-- ==== Sys2Proof/Word.lean ====
section
/-! DEFINITION. The plain types of the spec: bytes, words, endpoint numbers (spec/00_scope.md R10, R11). -/

namespace Sys2Proof

/-- A byte is 8 bits (R10). -/
abbrev Byte := BitVec 8

/-- A word is 32 bits (R10). -/
abbrev Word := BitVec 32

/-- An endpoint number: the four bits of a command word's `ep` field (spec/30_encoding.md R91).
Only numbers below `NUM_EPS` have an endpoint (R7, R8). -/
abbrev EpNum := Fin 16

end Sys2Proof
end

