-- ==== Sys2Proof/Config.lean ====
section
/-! DEFINITION. What an implementation fixes: the parameters of spec/00_scope.md R7 to R9, the numeric codes of
spec/30_encoding.md R103 to R106 among them, and the free values (spec/00_scope.md R13, `draw`). -/

namespace Sys2Proof

/-- The ten states of the DFU controller (spec/10_state.md R42, spec/44_dfu_controller.md R211). -/
inductive DfuState
  | appIDLE | appDETACH | dfuIDLE | dfuDNLOAD_SYNC | dfuDNBUSY | dfuDNLOAD_IDLE
  | dfuMANIFEST_SYNC | dfuMANIFEST | dfuMANIFEST_WAIT_RESET | dfuERROR
  deriving DecidableEq, Repr

/-- The five status values the block can produce (spec/30_encoding.md R105: "No other status value is ever written"). -/
inductive DfuStatus
  | ok | errERASE | errVERIFY | errNOTDONE | errINTERNAL
  deriving DecidableEq, Repr

/-- The Line Coding record: 7 bytes (spec/10_state.md R48, layout spec/30_encoding.md R102). -/
structure LineCoding where
  /-- Bytes 0 to 3: the baud rate, byte 0 least significant. -/
  rate0 : Byte
  rate1 : Byte
  rate2 : Byte
  rate3 : Byte
  /-- Byte 4: the stop-bit format. -/
  stopBits : Byte
  /-- Byte 5: the parity. -/
  parity : Byte
  /-- Byte 6: the data-bit count. -/
  dataBits : Byte
  deriving DecidableEq, Repr

/-- The parameters `REQ_*`: the `bRequest` of each class request (spec/30_encoding.md R103, R106). -/
structure RequestCodes where
  detach : Byte
  dnload : Byte
  upload : Byte
  getstatus : Byte
  clrstatus : Byte
  getstate : Byte
  abort : Byte
  setLineCoding : Byte
  getLineCoding : Byte
  setControlLineState : Byte
  deriving DecidableEq, Repr

/-- The default codes of spec/30_encoding.md R103 and R106, which are those of spec/opcode_table.json. PRESUMED (log 21). -/
def RequestCodes.default : RequestCodes :=
  { detach := 0, dnload := 1, upload := 2, getstatus := 3, clrstatus := 4, getstate := 5, abort := 6
    setLineCoding := 0x20, getLineCoding := 0x21, setControlLineState := 0x22 }

/-- The parameters `STATE_*`: one code for each DFU state (spec/30_encoding.md R104). -/
structure StateCodes where
  appIDLE : Byte
  appDETACH : Byte
  dfuIDLE : Byte
  dfuDNLOAD_SYNC : Byte
  dfuDNBUSY : Byte
  dfuDNLOAD_IDLE : Byte
  dfuMANIFEST_SYNC : Byte
  dfuMANIFEST : Byte
  dfuMANIFEST_WAIT_RESET : Byte
  dfuERROR : Byte
  deriving DecidableEq, Repr

/-- The parameters `ST_*`: one code for each status value (spec/30_encoding.md R105). -/
structure StatusCodes where
  ok : Byte
  errERASE : Byte
  errVERIFY : Byte
  errNOTDONE : Byte
  errINTERNAL : Byte
  deriving DecidableEq, Repr

/-- The implementation parameters of spec/00_scope.md R7. Beside the block's state, and no step changes them
(log 1), so a statement about every state is a statement about every value of every parameter, as D2 of
spec/92_eei_decisions.md asks. -/
structure Params where
  /-- `NUM_EPS`: number of endpoints, endpoint 0 included. -/
  numEps : Nat
  /-- `FIFO_CAP`: capacity in bytes of every endpoint FIFO. -/
  fifoCap : Nat
  /-- `BLOCK_WORDS`: size of the Flash Block Buffer in words. -/
  blockWords : Nat
  /-- `FLASH_BASE`: flash address at the start of a session. -/
  flashBase : Word
  /-- `ERASED_WORD`: what an erased flash word reads. -/
  erasedWord : Word
  /-- `POLL_TIMEOUT`: reported by GETSTATUS. -/
  pollTimeout : BitVec 24
  /-- `WAIT_BOUND`: bound of the data-stage wait, `none` for `INF`. -/
  waitBound : Option Nat
  /-- `DFU_RESET_STATE`. -/
  dfuResetState : DfuState
  /-- `LINE_CODING_RESET`. -/
  lineCodingReset : LineCoding
  /-- `EP_CDC_IN`. -/
  epCdcIn : EpNum
  /-- `EP_CDC_OUT`. -/
  epCdcOut : EpNum
  /-- `CDC_MPS`, in the 11 bits `CONFIGURE` gives a packet size (spec/30_encoding.md R93). -/
  cdcMps : BitVec 11
  requestCodes : RequestCodes
  stateCodes : StateCodes
  statusCodes : StatusCodes
  deriving DecidableEq, Repr

namespace Params

/-- `BLOCK_BYTES = 4 * BLOCK_WORDS` (R7). -/
def blockBytes (p : Params) : Nat := 4 * p.blockWords

/-- The legal ranges of R7 and the constraints of R8 on the parameters themselves. -/
abbrev Legal (p : Params) : Prop :=
  1 ≤ p.numEps ∧ p.numEps ≤ 16 ∧ 1 ≤ p.fifoCap ∧ 1 ≤ p.blockWords ∧
  p.flashBase.toNat % p.blockBytes = 0 ∧ p.dfuResetState ≠ .dfuMANIFEST_WAIT_RESET ∧
  1 ≤ p.epCdcIn.val ∧ p.epCdcIn.val < p.numEps ∧ 1 ≤ p.epCdcOut.val ∧ p.epCdcOut.val < p.numEps ∧
  p.epCdcOut ≠ p.epCdcIn ∧ 2 ≤ p.cdcMps.toNat ∧ p.cdcMps.toNat ≤ p.fifoCap

/-- The default codes of spec/30_encoding.md R104. -/
def defaultStateCodes : StateCodes :=
  { appIDLE := 0, appDETACH := 1, dfuIDLE := 2, dfuDNLOAD_SYNC := 3, dfuDNBUSY := 4, dfuDNLOAD_IDLE := 5
    dfuMANIFEST_SYNC := 6, dfuMANIFEST := 7, dfuMANIFEST_WAIT_RESET := 8, dfuERROR := 10 }

/-- The default codes of spec/30_encoding.md R105. -/
def defaultStatusCodes : StatusCodes :=
  { ok := 0x00, errERASE := 0x04, errVERIFY := 0x07, errNOTDONE := 0x09, errINTERNAL := 0x0E }

/-- The test parameter set `TP` of R9: the only values the spec gives for the open sizes. -/
def tp : Params :=
  { numEps := 4, fifoCap := 64, blockWords := 4, flashBase := 0x00002000, erasedWord := 0xFFFFFFFF
    pollTimeout := 0, waitBound := none, dfuResetState := .dfuIDLE
    lineCodingReset := ⟨0, 0, 0, 0, 0, 0, 0⟩, epCdcIn := 1, epCdcOut := 2, cdcMps := 64
    requestCodes := RequestCodes.default, stateCodes := defaultStateCodes
    statusCodes := defaultStatusCodes }

/-- The parameter values of the reset state: those of `TP`, but `DFU_RESET_STATE`, to which R7 gives the default
`appIDLE`. DESIGN CHOICE (log 2): the spec leaves the sizes open. -/
def default : Params := { tp with dfuResetState := .appIDLE }

/-- The code of a DFU state, `code(dfu.bState)` of spec/44_dfu_controller.md R221. -/
def stateCode (p : Params) : DfuState → Byte
  | .appIDLE => p.stateCodes.appIDLE
  | .appDETACH => p.stateCodes.appDETACH
  | .dfuIDLE => p.stateCodes.dfuIDLE
  | .dfuDNLOAD_SYNC => p.stateCodes.dfuDNLOAD_SYNC
  | .dfuDNBUSY => p.stateCodes.dfuDNBUSY
  | .dfuDNLOAD_IDLE => p.stateCodes.dfuDNLOAD_IDLE
  | .dfuMANIFEST_SYNC => p.stateCodes.dfuMANIFEST_SYNC
  | .dfuMANIFEST => p.stateCodes.dfuMANIFEST
  | .dfuMANIFEST_WAIT_RESET => p.stateCodes.dfuMANIFEST_WAIT_RESET
  | .dfuERROR => p.stateCodes.dfuERROR

/-- The code of a status value (spec/30_encoding.md R105). -/
def statusCode (p : Params) : DfuStatus → Byte
  | .ok => p.statusCodes.ok
  | .errERASE => p.statusCodes.errERASE
  | .errVERIFY => p.statusCodes.errVERIFY
  | .errNOTDONE => p.statusCodes.errNOTDONE
  | .errINTERNAL => p.statusCodes.errINTERNAL

end Params

namespace Config

/-- `bmRequestType` of a host-to-device class request to an interface (spec/30_encoding.md R97). -/
def hostToDevice : Byte := 0x21

/-- `bmRequestType` of a device-to-host class request to an interface (R97). -/
def deviceToHost : Byte := 0xA1

/-! The free values: inputs of a step "chosen by the environment, under no law" (spec/00_scope.md R13, `draw`).
Each is applied to the counter `draws` of the inputs. They have no body, so no proof can know a value of one. -/

/-- The `data` of the response to a `READ` of an empty FIFO (spec/60_exceptions.md R265; log 12). -/
opaque drawData : Nat → BitVec 16

/-- A word of a page whose erase or write failed (spec/44_dfu_controller.md R236, R237; log 14). -/
opaque drawWord : Nat → Word

/-- The answer of a flash primitive for which the environment has queued none (R236, R237; log 13). -/
opaque drawOk : Nat → Bool

end Config

end Sys2Proof
end

