-- ==== Sys2Proof/Syntax.lean ====
section
/-! DEFINITION. The operations of spec/opcode_table.json: one constructor of `Instr` for each of its 24 rows
(spec/30_encoding.md R92, R103, R106), and the encoded form an operation is presented in. -/

namespace Sys2Proof

/-- `ep[e].type` (spec/10_state.md R24, codes spec/30_encoding.md R108). -/
inductive XferType
  | ctrl | iso | bulk | int
  deriving DecidableEq, Repr

/-- `ep[e].dir` (spec/10_state.md R25, codes spec/30_encoding.md R108). -/
inductive Dir
  | out | inn
  deriving DecidableEq, Repr

/-- The class driver a request is handed to. The external dispatcher decides it "from the interface the request
addresses"; it is not encoded in the fields of the request (spec/30_encoding.md R99). -/
inductive Driver
  | dfu | cdc
  deriving DecidableEq, Repr

/-- The fields of a decoded Request beyond those that select the row (spec/10_state.md R49). -/
structure ReqArgs where
  wValue : BitVec 16
  wIndex : BitVec 16
  wLength : BitVec 16
  deriving DecidableEq, Repr

/-- The operations a client selects by code. -/
inductive Instr
  /-- `PCB_INIT` (spec/40_fifo_core.md R132). -/
  | pcbInit
  /-- `CONFIGURE e, type, dir, mps` (R121). -/
  | configure (e : EpNum) (ty : XferType) (dir : Dir) (mps : BitVec 11)
  /-- `WRITE e, byte` (R122). -/
  | write (e : EpNum) (b : Byte)
  /-- `READ e` (R123). -/
  | read (e : EpNum)
  /-- `FLUSH e` (R124). -/
  | flush (e : EpNum)
  /-- `DRAIN e` (R125). -/
  | drain (e : EpNum)
  /-- `SET_STALL e` (R126). -/
  | setStall (e : EpNum)
  /-- `CLEAR_STALL e` (R127). -/
  | clearStall (e : EpNum)
  /-- `ZLP_ACK` (R128). -/
  | zlpAck
  /-- `FLAG_SET mask` (R129). -/
  | flagSet (mask : BitVec 3)
  /-- `FLAG_CLR mask` (R130). -/
  | flagClr (mask : BitVec 3)
  /-- `PEND_CLR e` (R131). -/
  | pendClr (e : EpNum)
  /-- `DFU_DETACH` (spec/44_dfu_controller.md R227). -/
  | dfuDetach (r : ReqArgs)
  /-- `DFU_DNLOAD` (R215). -/
  | dfuDnload (r : ReqArgs)
  /-- `DFU_UPLOAD` (R224). -/
  | dfuUpload (r : ReqArgs)
  /-- `DFU_GETSTATUS` (R221). -/
  | dfuGetstatus (r : ReqArgs)
  /-- `DFU_CLRSTATUS` (R225). -/
  | dfuClrstatus (r : ReqArgs)
  /-- `DFU_GETSTATE` (R223). -/
  | dfuGetstate (r : ReqArgs)
  /-- `DFU_ABORT` (R226). -/
  | dfuAbort (r : ReqArgs)
  /-- `DFU_REJECT`: any other pair of `bmRequestType` and `bRequest` handed to the DFU driver (R228). -/
  | dfuReject (bmRequestType bRequest : Byte) (r : ReqArgs)
  /-- `CDC_SET_LINE_CODING` (spec/43_cdc_client.md R198). -/
  | cdcSetLineCoding (r : ReqArgs)
  /-- `CDC_GET_LINE_CODING` (R197). -/
  | cdcGetLineCoding (r : ReqArgs)
  /-- `CDC_SET_CONTROL_LINE_STATE` (R199). -/
  | cdcSetControlLineState (r : ReqArgs)
  /-- `CDC_REJECT`: any other pair handed to the CDC driver (R200). -/
  | cdcReject (bmRequestType bRequest : Byte) (r : ReqArgs)
  deriving DecidableEq, Repr

/-- An operation as it is presented: a `CMD32` command word (spec/30_encoding.md R90), or the eight bytes of a setup
packet read as one 64-bit value with byte `k` in bits `8k+7 : 8k` (R96) and the driver the dispatcher chose (R99). -/
inductive Encoded
  | cmd32 (w : BitVec 32)
  | setup8 (d : Driver) (s : BitVec 64)
  deriving DecidableEq, Repr

end Sys2Proof
end

