-- ==== Sys2Proof/WellFormed.lean ====
section
/-! DEFINITION. Which terms of `Instr` stand for a presented operation. The operand types leave only one check: the two
fallback rows have the "lowest priority within" their driver (spec/opcode_table.json), so a term of one must not carry
a pair of `bmRequestType` and `bRequest` that an earlier row of the same driver selects. -/

namespace Sys2Proof

/-- The pairs (`bRequest`, expected `bmRequestType`) the DFU driver lists (spec/30_encoding.md R103). -/
def dfuListed (c : RequestCodes) : List (Byte × Byte) :=
  [(c.detach, Config.hostToDevice), (c.dnload, Config.hostToDevice), (c.upload, Config.deviceToHost),
   (c.getstatus, Config.deviceToHost), (c.clrstatus, Config.hostToDevice), (c.getstate, Config.deviceToHost),
   (c.abort, Config.hostToDevice)]

/-- The pairs the CDC driver lists (spec/30_encoding.md R106). -/
def cdcListed (c : RequestCodes) : List (Byte × Byte) :=
  [(c.setLineCoding, Config.hostToDevice), (c.getLineCoding, Config.deviceToHost),
   (c.setControlLineState, Config.hostToDevice)]

/-- No two requests of one driver are selected by the same pair: the codes name the requests. -/
abbrev RequestCodes.Distinct (c : RequestCodes) : Prop := (dfuListed c).Nodup ∧ (cdcListed c).Nodup

/-- Well-formed instructions under the request codes `c`: a `DFU_REJECT` carries no pair the DFU driver lists, a
`CDC_REJECT` none the CDC driver lists. Every other constructor's operands have exactly the widths the encoding gives
them. -/
def Instr.WellFormed (c : RequestCodes) : Instr → Bool
  | .pcbInit | .configure _ _ _ _ | .write _ _ | .read _ | .flush _ | .drain _ | .setStall _ | .clearStall _
  | .zlpAck | .flagSet _ | .flagClr _ | .pendClr _ => true
  | .dfuDetach _ | .dfuDnload _ | .dfuUpload _ | .dfuGetstatus _ | .dfuClrstatus _ | .dfuGetstate _
  | .dfuAbort _ => true
  | .dfuReject bm br _ => !((dfuListed c).contains (br, bm))
  | .cdcSetLineCoding _ | .cdcGetLineCoding _ | .cdcSetControlLineState _ => true
  | .cdcReject bm br _ => !((cdcListed c).contains (br, bm))

end Sys2Proof
end

