-- ==== Sys2Proof/Decode.lean ====
section
/-! DEFINITION. The decoder, total on every command word and every setup packet, and the encoder written from the same
tables (spec/30_encoding.md sections 1 to 3). -/

namespace Sys2Proof

/-! ### Field codes (R108) -/

def XferType.ofBits (b : BitVec 2) : XferType :=
  if b = 0 then .ctrl else if b = 1 then .iso else if b = 2 then .bulk else .int

def XferType.toBits : XferType → BitVec 2
  | .ctrl => 0 | .iso => 1 | .bulk => 2 | .int => 3

def Dir.ofBits (b : BitVec 1) : Dir := if b = 0 then .out else .inn

def Dir.toBits : Dir → BitVec 1
  | .out => 0 | .inn => 1

/-- An endpoint number from the `ep` field. -/
def EpNum.ofBits (b : BitVec 4) : EpNum := ⟨b.toNat, b.isLt⟩

def EpNum.toBits (e : EpNum) : BitVec 4 := BitVec.ofNat 4 e.val

/-! ### The command word `CMD32` (R91 to R94) -/

/-- One row of the table of R93: a word `w` selects it with `(w & mask) = match`. -/
structure CmdRow where
  mtch : Word
  mask : Word
  deriving DecidableEq, Repr

def CmdRow.selects (r : CmdRow) (w : Word) : Bool := w &&& r.mask == r.mtch

def rowPcbInit : CmdRow := ⟨0x10000000, 0xFFFFFFFF⟩
def rowConfigure : CmdRow := ⟨0x20000000, 0xF01FF800⟩
def rowWrite : CmdRow := ⟨0x30000000, 0xF0FFFF00⟩
def rowRead : CmdRow := ⟨0x40000000, 0xF0FFFFFF⟩
def rowFlush : CmdRow := ⟨0x50000000, 0xF0FFFFFF⟩
def rowDrain : CmdRow := ⟨0x60000000, 0xF0FFFFFF⟩
def rowSetStall : CmdRow := ⟨0x70000000, 0xF0FFFFFF⟩
def rowClearStall : CmdRow := ⟨0x80000000, 0xF0FFFFFF⟩
def rowZlpAck : CmdRow := ⟨0x90000000, 0xFFFFFFFF⟩
def rowFlagSet : CmdRow := ⟨0xA0000000, 0xFFFFFFF8⟩
def rowFlagClr : CmdRow := ⟨0xB0000000, 0xFFFFFFF8⟩
def rowPendClr : CmdRow := ⟨0xC0000000, 0xF0FFFFFF⟩

/-- The twelve rows of R93. -/
def cmdRows : List CmdRow :=
  [rowPcbInit, rowConfigure, rowWrite, rowRead, rowFlush, rowDrain, rowSetStall, rowClearStall, rowZlpAck, rowFlagSet,
   rowFlagClr, rowPendClr]

/-- `ep`, bits 27:24 (R91). -/
def epField (w : Word) : EpNum := EpNum.ofBits (w.extractLsb' 24 4)

/-- The operation a command word names, `none` for a reserved word (R94): a reserved `op`, a must-be-zero bit set, or
`ep ≠ 0` where it must be 0. -/
def decodeCmd32 (w : Word) : Option Instr :=
  if rowPcbInit.selects w then some .pcbInit
  else if rowConfigure.selects w then
    some (.configure (epField w) (XferType.ofBits (w.extractLsb' 22 2)) (Dir.ofBits (w.extractLsb' 21 1))
      (w.extractLsb' 0 11))
  else if rowWrite.selects w then some (.write (epField w) (w.extractLsb' 0 8))
  else if rowRead.selects w then some (.read (epField w))
  else if rowFlush.selects w then some (.flush (epField w))
  else if rowDrain.selects w then some (.drain (epField w))
  else if rowSetStall.selects w then some (.setStall (epField w))
  else if rowClearStall.selects w then some (.clearStall (epField w))
  else if rowZlpAck.selects w then some .zlpAck
  else if rowFlagSet.selects w then some (.flagSet (w.extractLsb' 0 3))
  else if rowFlagClr.selects w then some (.flagClr (w.extractLsb' 0 3))
  else if rowPendClr.selects w then some (.pendClr (epField w))
  else none

/-! ### The class request `SETUP8` (R96 to R99, R103, R106) -/

/-- `bmRequestType`, byte 0. -/
def bmField (s : BitVec 64) : Byte := s.extractLsb' 0 8

/-- `bRequest`, byte 1. -/
def brField (s : BitVec 64) : Byte := s.extractLsb' 8 8

/-- `wValue = {byte3, byte2}`, `wIndex = {byte5, byte4}`, `wLength = {byte7, byte6}` (R98). -/
def argFields (s : BitVec 64) : ReqArgs := ⟨s.extractLsb' 16 16, s.extractLsb' 32 16, s.extractLsb' 48 16⟩

/-- Selection by the DFU driver: by `bRequest`, then the check of the whole `bmRequestType` (R99,
spec/44_dfu_controller.md R213). DESIGN CHOICE (log 21): spec/00_scope.md R7 does not keep the codes of two requests apart. Where
two have one code and expect different `bmRequestType` values, the pair decides, as in R99's table match, and both stay
reachable; R213's case order would reject the second. Where two agree in both, the first in this order is taken. -/
def decodeDfu (c : RequestCodes) (bm br : Byte) (r : ReqArgs) : Instr :=
  if br = c.dnload ∧ bm = Config.hostToDevice then .dfuDnload r
  else if br = c.getstatus ∧ bm = Config.deviceToHost then .dfuGetstatus r
  else if br = c.getstate ∧ bm = Config.deviceToHost then .dfuGetstate r
  else if br = c.clrstatus ∧ bm = Config.hostToDevice then .dfuClrstatus r
  else if br = c.abort ∧ bm = Config.hostToDevice then .dfuAbort r
  else if br = c.upload ∧ bm = Config.deviceToHost then .dfuUpload r
  else if br = c.detach ∧ bm = Config.hostToDevice then .dfuDetach r
  else .dfuReject bm br r

/-- Selection by the CDC driver (R99, spec/43_cdc_client.md R196). DESIGN CHOICE (log 21), as in `decodeDfu`: where two requests
have one code, the pair of code and `bmRequestType` decides, and where they agree in both, the first in this order is taken;
R196's case order would reject the second of two that differ in `bmRequestType`. -/
def decodeCdc (c : RequestCodes) (bm br : Byte) (r : ReqArgs) : Instr :=
  if br = c.getLineCoding ∧ bm = Config.deviceToHost then .cdcGetLineCoding r
  else if br = c.setLineCoding ∧ bm = Config.hostToDevice then .cdcSetLineCoding r
  else if br = c.setControlLineState ∧ bm = Config.hostToDevice then .cdcSetControlLineState r
  else .cdcReject bm br r

/-- The operation a request names: each driver has a last row that takes anything else (R99). -/
def decodeSetup8 (c : RequestCodes) : Driver → BitVec 64 → Instr
  | .dfu, s => decodeDfu c (bmField s) (brField s) (argFields s)
  | .cdc, s => decodeCdc c (bmField s) (brField s) (argFields s)

/-- The decoder, for the request codes `c`. -/
def decode (c : RequestCodes) : Encoded → Option Instr
  | .cmd32 w => decodeCmd32 w
  | .setup8 d s => some (decodeSetup8 c d s)

/-- The setup packet's eight bytes as one value, byte `k` in bits `8k+7 : 8k` (R96). A packet of another length is no
setup packet. -/
def setupOfBytes : List Byte → Option (BitVec 64)
  | [b0, b1, b2, b3, b4, b5, b6, b7] => some (b7 ++ b6 ++ b5 ++ b4 ++ b3 ++ b2 ++ b1 ++ b0)
  | _ => none

/-- The eight bytes of a setup packet, in wire order (R96). -/
def setupBytes (s : BitVec 64) : List Byte :=
  [s.extractLsb' 0 8, s.extractLsb' 8 8, s.extractLsb' 16 8, s.extractLsb' 24 8,
   s.extractLsb' 32 8, s.extractLsb' 40 8, s.extractLsb' 48 8, s.extractLsb' 56 8]

/-! ### The encoder -/

/-- `CMD32`: `op` in 31:28, `ep` in 27:24, `arg` in 23:0 (R91). -/
def cmdWord (op : BitVec 4) (e : EpNum) (arg : BitVec 24) : Word := op ++ e.toBits ++ arg

/-- The `arg` of `CONFIGURE`: `type` in 23:22, `dir` in 21, zero in 20:11, `mps` in 10:0 (R93). -/
def configureArg (ty : XferType) (dir : Dir) (mps : BitVec 11) : BitVec 24 :=
  ty.toBits ++ dir.toBits ++ (0 : BitVec 10) ++ mps

/-- `SETUP8` as one 64-bit value (R96, R98). -/
def setupWord (bm br : Byte) (r : ReqArgs) : BitVec 64 := r.wLength ++ r.wIndex ++ r.wValue ++ br ++ bm

/-- The encoded form of an instruction, from the tables of R92, R93, R103 and R106, for the request codes `c`. -/
def encode (c : RequestCodes) : Instr → Encoded
  | .pcbInit => .cmd32 (cmdWord 0x1 0 0)
  | .configure e ty dir mps => .cmd32 (cmdWord 0x2 e (configureArg ty dir mps))
  | .write e b => .cmd32 (cmdWord 0x3 e ((0 : BitVec 16) ++ b))
  | .read e => .cmd32 (cmdWord 0x4 e 0)
  | .flush e => .cmd32 (cmdWord 0x5 e 0)
  | .drain e => .cmd32 (cmdWord 0x6 e 0)
  | .setStall e => .cmd32 (cmdWord 0x7 e 0)
  | .clearStall e => .cmd32 (cmdWord 0x8 e 0)
  | .zlpAck => .cmd32 (cmdWord 0x9 0 0)
  | .flagSet m => .cmd32 (cmdWord 0xA 0 ((0 : BitVec 21) ++ m))
  | .flagClr m => .cmd32 (cmdWord 0xB 0 ((0 : BitVec 21) ++ m))
  | .pendClr e => .cmd32 (cmdWord 0xC e 0)
  | .dfuDetach r => .setup8 .dfu (setupWord Config.hostToDevice c.detach r)
  | .dfuDnload r => .setup8 .dfu (setupWord Config.hostToDevice c.dnload r)
  | .dfuUpload r => .setup8 .dfu (setupWord Config.deviceToHost c.upload r)
  | .dfuGetstatus r => .setup8 .dfu (setupWord Config.deviceToHost c.getstatus r)
  | .dfuClrstatus r => .setup8 .dfu (setupWord Config.hostToDevice c.clrstatus r)
  | .dfuGetstate r => .setup8 .dfu (setupWord Config.deviceToHost c.getstate r)
  | .dfuAbort r => .setup8 .dfu (setupWord Config.hostToDevice c.abort r)
  | .dfuReject bm br r => .setup8 .dfu (setupWord bm br r)
  | .cdcSetLineCoding r => .setup8 .cdc (setupWord Config.hostToDevice c.setLineCoding r)
  | .cdcGetLineCoding r => .setup8 .cdc (setupWord Config.deviceToHost c.getLineCoding r)
  | .cdcSetControlLineState r => .setup8 .cdc (setupWord Config.hostToDevice c.setControlLineState r)
  | .cdcReject bm br r => .setup8 .cdc (setupWord bm br r)

/-! ### Words as spec/opcode_table.json numbers them -/

/-- The driver a bare table word is given to. The fields do not encode it (R99), so the model takes the one whose
default request codes (R103, R106) hold the word's `bRequest`, and the DFU driver where neither's do. DESIGN CHOICE (log 20);
only `decodeTableWord` and `withFetchWord` rest on it. -/
def tableDriver (s : BitVec 64) : Driver :=
  let c := RequestCodes.default
  if brField s = c.setLineCoding ∨ brField s = c.getLineCoding ∨ brField s = c.setControlLineState then .cdc else .dfu

/-- A word as the opcode table numbers it: 32 bits are a command word, any other width is the low part of a setup
packet whose remaining bits are 0. -/
def tableEncoded (nbits w : Nat) : Encoded :=
  if nbits = 32 then .cmd32 (BitVec.ofNat 32 w)
  else .setup8 (tableDriver (BitVec.ofNat 64 (w % 2 ^ nbits))) (BitVec.ofNat 64 (w % 2 ^ nbits))

/-- The instruction the decoder reads from a word of the opcode table, whose request rows have the default codes. -/
def decodeTableWord (nbits w : Nat) : Option Instr := decode RequestCodes.default (tableEncoded nbits w)

end Sys2Proof
end

