-- ==== Sys2Proof/Machine/State.lean ====
section
/-! DEFINITION. The state of the block as plain data (spec/10_state.md R20 to R54) with what the model needs to hold
the agents, the inputs and the outputs (log 6, log 7, log 18), the reasons a step can stop, and the state after a
power-on reset (R52, spec/70_reset_and_hazards.md R301). -/

namespace Sys2Proof.Machine

/-! ### Endpoints (R21 to R26, R35 to R40) -/

structure Endpoint where
  /-- `ep[e].q`: the FIFO, head first (R21). -/
  q : List Byte
  /-- `ep[e].cfg_valid` (R23). -/
  cfgValid : Bool
  /-- `ep[e].type` (R24). -/
  xtype : XferType
  /-- `ep[e].dir` (R25). -/
  dir : Dir
  /-- `ep[e].mps`, held in 11 bits (R26). -/
  mps : BitVec 11
  /-- `ep[e].hw_en` (R35). -/
  hwEn : Bool
  /-- `ep[e].rx_buf` (R36). -/
  rxBuf : List Byte
  /-- `ep[e].rx_ready` (R37). -/
  rxReady : Bool
  /-- `ep[e].tx_pkt` (R38). -/
  txPkt : List Byte
  /-- `ep[e].tx_ready` (R38). -/
  txReady : Bool
  /-- `ep[e].underrun` (R39). -/
  underrun : Bool
  /-- `ep[e].hw_stall` (R40). -/
  hwStall : Bool
  /-- `ep[e].toggle`: the data toggle, false for 0 (R40, R166). -/
  toggle : Bool
  deriving DecidableEq, Repr

/-- The reset value of every per-endpoint field (R52). `type`, `dir`, `mps` and `tx_pkt`, which R52 leaves unspecified
while not configured and not ready, hold a named value (DESIGN CHOICE, log 3). -/
def Endpoint.reset : Endpoint :=
  { q := [], cfgValid := false, xtype := .ctrl, dir := .out, mps := 0, hwEn := false, rxBuf := [], rxReady := false
    txPkt := [], txReady := false, underrun := false, hwStall := false, toggle := false }

/-- `ep[e].len`: the length counter, derived (R22). -/
def Endpoint.len (x : Endpoint) : Nat := x.q.length

/-- `ep[e].rx_cnt`: the hardware-reported byte count, derived (R36). -/
def Endpoint.rxCnt (x : Endpoint) : Nat := x.rxBuf.length

/-! ### The Protocol Control Block (R28 to R31) -/

structure Pcb where
  /-- `pcb.flags`: bit 0 `ENUMERATED`, bit 1 `SETUP_DATA_AVAIL`, bit 2 `RX_DATA_AVAIL` (R29, R107). -/
  flags : BitVec 3
  /-- `pcb.pending` (R30). -/
  pending : BitVec 16
  /-- `pcb.stall` (R31). -/
  stall : BitVec 16
  deriving DecidableEq, Repr

/-! ### The DFU controller (R41 to R47) -/

structure Dfu where
  /-- `dfu.bStatus` (R41). -/
  bStatus : DfuStatus
  /-- `dfu.poll_timeout` (R41, R222). -/
  pollTimeout : BitVec 24
  /-- `dfu.bState` (R42). -/
  bState : DfuState
  /-- `dfu.iString`, always 0 (R41). -/
  iString : Byte
  /-- `dfu.blk`: the Flash Block Buffer (R43). -/
  blk : List Word
  /-- `dfu.cursor` (R44). -/
  cursor : Nat
  /-- `dfu.flush_pending` (R45). -/
  flushPending : Bool
  /-- `dfu.target_addr` (R46). -/
  targetAddr : Word
  /-- `dfu.booted` (R47). -/
  booted : Bool
  deriving DecidableEq, Repr

/-! ### The fault record and the observable events -/

/-- The two exceptions of the outcome class *fault* (spec/60_exceptions.md R261). -/
inductive FaultKind
  | fifoFull | fifoEmpty
  deriving DecidableEq, Repr

/-- What `emit` makes visible to the environment (spec/00_scope.md R13, spec/41_wire_side.md R170 O1). -/
inductive Event
  /-- `HostReceives(e, packet)` (R162). -/
  | hostReceives (e : EpNum) (packet : List Byte)
  /-- `HostSeesStall(e)` (R164). -/
  | hostSeesStall (e : EpNum)
  /-- `BootJump(address)` (spec/44_dfu_controller.md R234). -/
  | bootJump (address : Word)
  deriving DecidableEq, Repr

/-! ### What MAIN still has to do -/

/-- One thing a handler of MAIN does between two gaps: a FIFO command, a test of the sequencer's, or the last atomic
part of a driver's rule. A handler in progress is the list of those still to come. -/
inductive MainOp
  /-- Issue `WRITE e, b`. -/
  | write (e : EpNum) (b : Byte)
  /-- Issue `READ 0` and keep the byte of the response (`READN`, spec/30_encoding.md R111). -/
  | read0
  /-- Issue `FLUSH e`. -/
  | flush (e : EpNum)
  /-- Issue `ZLP_ACK`. -/
  | zlpAck
  /-- Issue `FLAG_CLR mask`. -/
  | flagClr (mask : BitVec 3)
  /-- Issue `PEND_CLR e`. -/
  | pendClr (e : EpNum)
  /-- Issue `CONFIGURE e, type, dir, mps`. -/
  | configure (e : EpNum) (ty : XferType) (dir : Dir) (mps : BitVec 11)
  /-- `seq.ep0_masked <- 1; i <- 0`: the data-stage wait for `len` bytes begins (spec/42_control_sequencer.md R182). -/
  | waitEnter (len : Nat)
  /-- One iteration of the wait, `i` polls made (R182). -/
  | waitLoop (len i : Nat)
  /-- `if ep[0].len = 0 then FLAG_CLR SETUP_DATA_AVAIL ; PEND_CLR 0` (R184). -/
  | clearIfDrained
  /-- `while ep[0].len > 0: FLUSH 0` (R185). -/
  | sendLoop
  /-- The end of `DFU_DNLOAD` after the data stage of `words` words (spec/44_dfu_controller.md R215 to R218). -/
  | dnloadStore (words : Nat)
  /-- The end of a `DFU_DNLOAD` of length 0 after its acknowledgement (R219). -/
  | dnloadEnd
  /-- The end of `DFU_CLRSTATUS` after its acknowledgement (R225). -/
  | clrstatusEnd
  /-- The end of `DFU_ABORT` after its acknowledgement (R226). -/
  | abortEnd
  /-- The end of `SET_LINE_CODING` after the data stage (spec/43_cdc_client.md R198). -/
  | lineCodingStore
  deriving DecidableEq, Repr

/-- What the external dispatcher hands MAIN (spec/42_control_sequencer.md R181): a command word, a request for a class
driver, or a call that has no encoding. -/
inductive MainItem
  /-- A command word, or `REQ driver, ...` with the eight bytes of the setup packet. -/
  | issue (w : Encoded)
  /-- `PUTCHAR c` (spec/43_cdc_client.md R201). -/
  | putchar (c : Byte)
  /-- A driver's endpoint-initialisation callback (R202). -/
  | initCallback (d : Driver)
  /-- The CDC receive-data callback (R203). -/
  | rxCallback
  deriving DecidableEq, Repr

/-! ### The steps of the other agents -/

/-- A step of `IRQ`, `WIRE` or `RESET`, or the environment event `HALT` (spec/00_scope.md R12, spec/30_encoding.md R112,
spec/60_exceptions.md R275). -/
inductive AgentStep
  | irqDrain (e : EpNum)
  | wireRx (e : EpNum) (bytes : List Byte)
  | wireTake (e : EpNum)
  | wirePollIn (e : EpNum)
  | wireSeeStall (e : EpNum)
  | wireSetup (bytes : List Byte)
  | resetBus
  | halt
  deriving DecidableEq, Repr

/-- Who steps at a gap between two commands of MAIN: another agent, or MAIN itself. -/
inductive Slot
  | agent (a : AgentStep)
  | main
  deriving DecidableEq, Repr

/-! ### The machine -/

/-- The state of the block: R20's list, then what the model needs beside it. It holds no parameter and no input (R51). -/
structure Block where
  /-- The endpoints; those numbered `NUM_EPS` and above do not exist (R8). -/
  eps : Vector Endpoint 16
  /-- The Protocol Control Block. -/
  pcb : Pcb
  /-- `seq.ep0_masked` (R33). -/
  ep0Masked : Bool
  /-- The DFU controller. -/
  dfu : Dfu
  /-- `cdc.line_coding` (R48). -/
  lineCoding : LineCoding
  /-- `flash`: the external program flash, its written bytes by rising address (R50; log 5). -/
  flash : List Host.Cell
  /-- `fault`: the recorded faults, no pair twice (R54). -/
  faults : List (FaultKind × EpNum)
  /-- The last response returned to MAIN (R95; log 18). -/
  resp : Word
  /-- What has been emitted, oldest first (log 18). -/
  events : List Event
  /-- What MAIN's handler in progress still has to do, empty between handlers (log 6). -/
  main : List MainOp
  /-- The bytes the handler in progress has read (log 6). -/
  rdata : List Byte
  /-- A class request is being handled (spec/41_wire_side.md R165, R170 H1; log 23). -/
  handling : Bool
  /-- The `HALT` event has happened (R275; log 11). -/
  halted : Bool
  deriving DecidableEq, Repr

/-- What R51 calls "configuration, not state": the parameters, the application handler the receive-data callback forwards to,
the draws and the schedule of agents; and with them what the dispatcher hands MAIN. The step relation `Block.StepsTo` takes
it as a parameter. -/
structure Inputs where
  /-- The parameters (spec/00_scope.md R7); no step changes them (log 1). -/
  params : Params
  /-- The application handler the CDC receive-data callback forwards to (spec/43_cdc_client.md R203), as the items it hands
  MAIN when control is passed to it; no step changes it (log 24). -/
  rxHandler : List MainItem
  /-- What the dispatcher hands MAIN next (log 6). -/
  program : List MainItem
  /-- Who steps at the next gaps; MAIN does when nothing is listed (log 7). -/
  sched : List Slot
  /-- The answers the flash controller will give next (R236, R237; log 13). -/
  flashAnswers : List Bool
  /-- How many free values the environment has been asked for; the next draw is the one of this number (spec/00_scope.md
  R13; log 12). -/
  draws : Nat
  deriving DecidableEq, Repr

/-- What `step` runs on: the block's state, and beside it the inputs still to come, since a step is a function of one value
(log 1). -/
structure State extends Block, Inputs where
  deriving DecidableEq, Repr

/-- Why a step ends in a fault. -/
inductive Fault
  /-- Raised by every step and every instruction after the environment event `HALT`: "a hard stop", "after which no
  agent has a step and no state changes" (spec/60_exceptions.md R275). Safe: the machine stops where the spec stops. -/
  | hardStop
  deriving DecidableEq, Repr

/-- Why a step is refused. -/
inductive Refusal
  /-- Raised by `exec` for an instruction that has no meaning yet. Safe: nothing is claimed of it. -/
  | notModelled (mnemonic : String)
  /-- Raised by `DFU_GETSTATUS` when its block flush would make the target address 2^32 or more: "a model must refuse
  the step rather than wrap" (spec/44_dfu_controller.md R235, U19). Safe: the spec puts the step outside the model. -/
  | targetAddressOverflow
  deriving DecidableEq, Repr

namespace State

/-- The state after `RESET POR` (R301) for given parameters and a given content of the flash, which no reset changes. -/
def powerOn (p : Params) (flash : List Host.Cell) : State :=
  { params := p
    eps := Vector.replicate 16 Endpoint.reset
    pcb := { flags := 0, pending := 0, stall := 0 }
    ep0Masked := false
    dfu :=
      { bStatus := .ok, pollTimeout := p.pollTimeout, bState := p.dfuResetState, iString := 0
        blk := List.replicate p.blockWords 0, cursor := 0, flushPending := false, targetAddr := p.flashBase
        booted := false }
    lineCoding := p.lineCodingReset
    flash := flash
    faults := []
    resp := 0
    events := []
    main := []
    rdata := []
    handling := false
    rxHandler := []
    program := []
    sched := []
    flashAnswers := []
    draws := 0
    halted := false }

/-- The machine right after reset: the default parameters (log 2), nothing known of the flash (log 5). -/
def reset : State := powerOn Params.default []

/-- `S_POR` of spec/00_scope.md R15: the reset table under the test parameter set `TP`. -/
def sPor : State := powerOn Params.tp []

end State

end Sys2Proof.Machine
end

