-- ==== Sys2Proof/Machine/Flags.lean ====
section
/-! DEFINITION. The device flags and the two per-endpoint masks of the Protocol Control Block (spec/10_state.md R29 to
R31, positions spec/30_encoding.md R107), and every way a command changes them. -/

namespace Sys2Proof.Machine

/-- Bit 0 of `pcb.flags` (R107). -/
def flagEnumerated : BitVec 3 := 0b001

/-- Bit 1 of `pcb.flags` (R107). -/
def flagSetupDataAvail : BitVec 3 := 0b010

/-- Bit 2 of `pcb.flags` (R107). -/
def flagRxDataAvail : BitVec 3 := 0b100

/-- Bit `e` of a per-endpoint mask. -/
def epBit (e : EpNum) : BitVec 16 := 1#16 <<< e.val

/-- The data-available flag a drain of endpoint `e` sets: "setup-data for endpoint 0, rx-data otherwise"
(spec/40_fifo_core.md R125). -/
def drainFlag (e : EpNum) : BitVec 3 := if e = 0 then flagSetupDataAvail else flagRxDataAvail

namespace Pcb

/-- `pcb.flags <- pcb.flags | mask`, one step (spec/20_memory.md R77). -/
def setFlags (mask : BitVec 3) (p : Pcb) : Pcb := { p with flags := p.flags ||| mask }

/-- `pcb.flags <- pcb.flags & ~mask`, one step (R77). -/
def clrFlags (mask : BitVec 3) (p : Pcb) : Pcb := { p with flags := p.flags &&& ~~~mask }

/-- `pcb.pending[e] <- 1`. -/
def setPending (e : EpNum) (p : Pcb) : Pcb := { p with pending := p.pending ||| epBit e }

/-- `pcb.pending[e] <- 0`. -/
def clrPending (e : EpNum) (p : Pcb) : Pcb := { p with pending := p.pending &&& ~~~epBit e }

/-- `pcb.stall[e] <- 1`. -/
def setStall (e : EpNum) (p : Pcb) : Pcb := { p with stall := p.stall ||| epBit e }

/-- `pcb.stall[e] <- 0`. -/
def clrStall (e : EpNum) (p : Pcb) : Pcb := { p with stall := p.stall &&& ~~~epBit e }

/-- `pcb.pending[e]`. -/
def pendingBit (p : Pcb) (e : EpNum) : Bool := p.pending.getLsbD e.val

/-- `pcb.stall[e]`. -/
def stallBit (p : Pcb) (e : EpNum) : Bool := p.stall.getLsbD e.val

/-- `pcb.flags[ENUMERATED]`. -/
def enumerated (p : Pcb) : Bool := p.flags.getLsbD 0

/-- `pcb.flags[SETUP_DATA_AVAIL]`. -/
def setupDataAvail (p : Pcb) : Bool := p.flags.getLsbD 1

/-- `pcb.flags[RX_DATA_AVAIL]`. -/
def rxDataAvail (p : Pcb) : Bool := p.flags.getLsbD 2

/-- What a drain of endpoint `e` that moved `k` bytes does to the PCB: nothing when `k = 0`, else the data-available
flag and the pending bit (R125, spec/10_state.md R29, R30). -/
def noteDrain (e : EpNum) (k : Nat) (p : Pcb) : Pcb :=
  if k = 0 then p else (p.setFlags (drainFlag e)).setPending e

end Pcb

end Sys2Proof.Machine
end

