-- ==== Sys2Proof/Machine/Operands.lean ====
section
/-! DEFINITION. How operands become values and values become words: endpoint operands and the conditions R120 checks on
them, packet-size arguments, the response word, and the byte order of multi-byte values (spec/20_memory.md R62 to
R65, spec/30_encoding.md R95 to R102). -/

namespace Sys2Proof.Machine

/-! ### The response word `RESP32` (spec/30_encoding.md R95) -/

inductive RespCode
  | ok | errEp | errNocfg | errFull | errEmpty | errArg | errDir | errOp
  deriving DecidableEq, Repr

def RespCode.bits : RespCode → BitVec 4
  | .ok => 0 | .errEp => 1 | .errNocfg => 2 | .errFull => 3 | .errEmpty => 4 | .errArg => 5 | .errDir => 6
  | .errOp => 7

/-- `resp(code, data)`: `code` in 31:28, zero in 27:16, `data` in 15:0. -/
def respWord (code : RespCode) (data : BitVec 16) : Word := code.bits ++ (0 : BitVec 12) ++ data

/-- The `data` field of a response. -/
def respData (w : Word) : BitVec 16 := w.extractLsb' 0 16

/-- The code field of a response. -/
def respCode (w : Word) : BitVec 4 := w.extractLsb' 28 4

/-- A byte as the `data` of a response, zero-extended (R95). -/
def byteData (b : Byte) : BitVec 16 := b.setWidth 16

/-- A count as the `data` of a response (R95). -/
def countData (n : Nat) : BitVec 16 := BitVec.ofNat 16 n

/-- The byte a `READ` response carries. -/
def respByte (w : Word) : Byte := w.extractLsb' 0 8

/-! ### Endpoint operands (spec/40_fifo_core.md R120) -/

namespace Endpoint

/-- Check 5 for `FLUSH`: refused on a non-control `OUT` endpoint. -/
def maySend (x : Endpoint) : Bool := x.xtype == .ctrl || x.dir == .inn

/-- Check 5 for `DRAIN`: refused on a non-control `IN` endpoint. -/
def mayReceive (x : Endpoint) : Bool := x.xtype == .ctrl || x.dir == .out

end Endpoint

/-- Check 3: `mps = 0`, or `mps > FIFO_CAP`, or endpoint 0 with a type other than control (R121). -/
def badConfigure (cap : Nat) (e : EpNum) (ty : XferType) (mps : BitVec 11) : Bool :=
  mps.toNat == 0 || decide (cap < mps.toNat) || (e == 0 && ty != .ctrl)

/-! ### Byte order -/

/-- Four bytes in FIFO order as a word: `{b3, b2, b1, b0}`, little-endian (spec/20_memory.md R63). -/
def wordOfBytes (b0 b1 b2 b3 : Byte) : Word := b3 ++ b2 ++ b1 ++ b0

/-- A payload in FIFO order as words (spec/44_dfu_controller.md R216). Bytes beyond the last whole word are no word. -/
def wordsOfBytes : List Byte → List Word
  | b0 :: b1 :: b2 :: b3 :: rest => wordOfBytes b0 b1 b2 b3 :: wordsOfBytes rest
  | _ => []

/-- The bytes of a word at rising addresses (R63, R65). -/
def bytesOfWord (w : Word) : List Byte :=
  [w.extractLsb' 0 8, w.extractLsb' 8 8, w.extractLsb' 16 8, w.extractLsb' 24 8]

/-- The 7 bytes of a Line Coding record (spec/30_encoding.md R102). -/
def lineCodingBytes (l : LineCoding) : List Byte :=
  [l.rate0, l.rate1, l.rate2, l.rate3, l.stopBits, l.parity, l.dataBits]

/-- A Line Coding record from its bytes, byte for byte; `l[i] <- data[i]` for `i` in 0 to 6
(spec/43_cdc_client.md R198). A byte that is not there leaves the record's byte as it was. -/
def lineCodingOfBytes (l : LineCoding) (data : List Byte) : LineCoding :=
  { rate0 := data.getD 0 l.rate0, rate1 := data.getD 1 l.rate1, rate2 := data.getD 2 l.rate2
    rate3 := data.getD 3 l.rate3, stopBits := data.getD 4 l.stopBits, parity := data.getD 5 l.parity
    dataBits := data.getD 6 l.dataBits }

/-- The baud rate, little-endian (R102). -/
def lineCodingBaud (l : LineCoding) : Word := wordOfBytes l.rate0 l.rate1 l.rate2 l.rate3

/-- The GETSTATUS response: `bStatus`, the poll timeout low byte first, `bState`, `iString`
(spec/30_encoding.md R100). -/
def statusBytes (p : Params) (d : Dfu) : List Byte :=
  [p.statusCode d.bStatus, d.pollTimeout.extractLsb' 0 8, d.pollTimeout.extractLsb' 8 8,
   d.pollTimeout.extractLsb' 16 8, p.stateCode d.bState, d.iString]

/-- The GETSTATE response (R101). -/
def stateBytes (p : Params) (d : Dfu) : List Byte := [p.stateCode d.bState]

end Sys2Proof.Machine
end

