-- ==== Sys2Proof/Machine/Ops.lean ====
section
/-! DEFINITION. The named operations every meaning is built from: reading and writing an endpoint, the response, the
flash as canonical data, the endpoint hardware primitive (spec/41_wire_side.md R160), raising an exception and
recovering from one (spec/60_exceptions.md R261, R277, R278). -/

namespace Sys2Proof.Machine

/-! ### The external flash (spec/10_state.md R50, spec/20_memory.md R60) -/

namespace Memory

/-- The canonical form: addresses strictly rising, inside the 32-bit address space. An unlisted byte has no value, so
no listed entry can equal it (log 5). -/
abbrev wf (m : List Host.Cell) : Prop := (m.map Prod.fst).Pairwise (· < ·) ∧ ∀ c ∈ m, c.1 < 2 ^ 32

/-- One byte of the flash, `none` where nothing has been written since the run began: R50 leaves the content
unspecified (log 5). -/
def readByte (a : Nat) : List Host.Cell → Option Byte
  | [] => none
  | (x, v) :: rest => if a = x then some v else readByte a rest

/-- Write one byte, keeping the canonical form. -/
def writeByte (a : Nat) (b : Byte) : List Host.Cell → List Host.Cell
  | [] => [(a, b)]
  | (x, v) :: rest =>
    if a < x then (a, b) :: (x, v) :: rest
    else if a = x then (a, b) :: rest
    else (x, v) :: writeByte a b rest

/-- Write bytes at rising addresses from `a`. -/
def writeBytes (a : Nat) : List Byte → List Host.Cell → List Host.Cell
  | [], m => m
  | b :: bs, m => writeBytes (a + 1) bs (writeByte a b m)

/-- `MemWrite(addr, 4, v)` (spec/00_scope.md R13). -/
def writeWord (a : Nat) (w : Word) (m : List Host.Cell) : List Host.Cell := writeBytes a (bytesOfWord w) m

/-- `MemWrite(address + 4i, 4, words[i])` for every `i` (spec/44_dfu_controller.md R236, R237). -/
def writeWords (a : Nat) : List Word → List Host.Cell → List Host.Cell
  | [], m => m
  | w :: ws, m => writeWords (a + 4) ws (writeWord a w m)

end Memory

/-! ### Reading and writing the state -/

namespace State

/-- `ep[e]`. -/
def ep (s : State) (e : EpNum) : Endpoint := s.eps[e.val]

/-- Replace `ep[e]`. -/
def setEp (e : EpNum) (x : Endpoint) (s : State) : State := { s with eps := s.eps.set e.val x }

/-- Replace the PCB. -/
def setPcb (p : Pcb) (s : State) : State := { s with pcb := p }

/-- Replace the DFU controller's state. -/
def setDfu (d : Dfu) (s : State) : State := { s with dfu := d }

/-- An endpoint number has an endpoint: `e < NUM_EPS` (spec/10_state.md, introduction). -/
def hasEp (s : State) (e : EpNum) : Bool := decide (e.val < s.params.numEps)

/-- Answer the issuer (spec/30_encoding.md R95). -/
def respond (code : RespCode) (data : BitVec 16) (s : State) : State := { s with resp := respWord code data }

/-- `emit` (spec/00_scope.md R13). -/
def emit (ev : Event) (s : State) : State := { s with events := s.events ++ [ev] }

/-- Add `(exception, endpoint)` to the set `fault` (spec/10_state.md R54). -/
def recordFault (k : FaultKind) (e : EpNum) (s : State) : State :=
  { s with faults := if (k, e) ∈ s.faults then s.faults else s.faults ++ [(k, e)] }

/-- What MAIN's handler still has to do. When nothing is left the handler has returned and no class request is being
handled any more. -/
def setMain (ops : List MainOp) (s : State) : State :=
  { s with main := ops, handling := s.handling && !ops.isEmpty }

/-- Set the stall bit and the hardware condition of `e` (spec/40_fifo_core.md R126). -/
def stall (e : EpNum) (s : State) : State :=
  (s.setEp e { s.ep e with hwStall := true }).setPcb (s.pcb.setStall e)

/-- Clear both and reset the data toggle (R127). -/
def unstall (e : EpNum) (s : State) : State :=
  (s.setEp e { s.ep e with hwStall := false, toggle := false }).setPcb (s.pcb.clrStall e)

end State

/-! ### The endpoint hardware configuration primitive (spec/41_wire_side.md R160) -/

namespace Endpoint

/-- `configure_endpoint`: the wire side starts afresh; the stall stays. -/
def configureHw (x : Endpoint) : Endpoint :=
  { x with rxBuf := [], rxReady := false, txReady := false, underrun := false, toggle := false }

/-- `enable_endpoint`. -/
def enableHw (x : Endpoint) : Endpoint := { x with hwEn := true }

/-- `disable_endpoint`. -/
def disableHw (x : Endpoint) : Endpoint :=
  { x with hwEn := false, rxBuf := [], rxReady := false, txReady := false, underrun := false, hwStall := false,
           toggle := false }

/-- What `PCB_INIT` and a bus reset do to an endpoint (spec/40_fifo_core.md R132): `q <- []`, `cfg_valid <- 0`, the
primitive `disable_endpoint`; "After it every per-endpoint ... field has its reset value", so the four fields that are
unspecified then (R52) hold their named reset value again (DESIGN CHOICE, log 3). -/
def tearDown (x : Endpoint) : Endpoint :=
  { x.disableHw with q := [], cfgValid := false, xtype := Endpoint.reset.xtype, dir := Endpoint.reset.dir,
                     mps := Endpoint.reset.mps, txPkt := Endpoint.reset.txPkt }

end Endpoint

/-! ### Raising an exception -/

/-- The exceptions of spec/60_exceptions.md R261. -/
inductive Exception
  | reservedCommand
  | badEndpoint (e : EpNum)
  | badArgument
  | notConfigured (e : EpNum)
  | badDirection (e : EpNum)
  | fifoFull (e : EpNum)
  | fifoEmpty (e : EpNum)
  | protocolStall
  | dataStageTimeout
  | dfuNotDone
  | dfuErase
  | dfuVerify
  | dfuOverrun
  deriving DecidableEq, Repr

/-- Enter `dfuERROR` with a status. -/
def State.dfuFail (st : DfuStatus) (s : State) : State :=
  s.setDfu { s.dfu with bState := .dfuERROR, bStatus := st }

/-- `raise`: nothing is saved, no vector is read, no handler is entered, no mode changes (R277). A refusal or a fault
answers its issuer, a fault is recorded as well; a protocol stall and a time-out leave their mark on endpoint 0; a DFU
error leaves its mark in `dfu.bState` and `dfu.bStatus` (the rest of a failing flush is the flush's own,
spec/44_dfu_controller.md R232). -/
def raise (x : Exception) (s : State) : State :=
  match x with
  | .reservedCommand => s.respond .errOp 0
  | .badEndpoint _ => s.respond .errEp 0
  | .badArgument => s.respond .errArg 0
  | .notConfigured _ => s.respond .errNocfg 0
  | .badDirection _ => s.respond .errDir 0
  | .fifoFull e => (s.recordFault .fifoFull e).respond .errFull 0
  | .fifoEmpty e =>
    { (s.recordFault .fifoEmpty e).respond .errEmpty (Config.drawData s.draws) with draws := s.draws + 1 }
  | .protocolStall => (s.stall 0).respond .ok 0
  | .dataStageTimeout =>
    let t := s.stall 0
    let t := t.setEp 0 { t.ep 0 with q := [] }
    let t := t.setPcb ((t.pcb.clrFlags flagSetupDataAvail).clrPending 0)
    ({ t with ep0Masked := false }.setMain []).respond .ok 0
  | .dfuNotDone => s.dfuFail .errNOTDONE
  | .dfuErase => s.dfuFail .errERASE
  | .dfuVerify => s.dfuFail .errVERIFY
  | .dfuOverrun => s.dfuFail .errINTERNAL

/-- The way back from a DFU error and from every other state of a session: entry to `dfuIDLE` by `DFU_CLRSTATUS` or
`DFU_ABORT` (R278), which also resets the block buffer's logical state (spec/44_dfu_controller.md R231). `dfu.blk` is
not cleared. -/
def State.enterDfuIdle (s : State) : State :=
  s.setDfu { s.dfu with bState := .dfuIDLE, bStatus := .ok, cursor := 0, flushPending := false,
                        targetAddr := s.params.flashBase }

/-- The run of the block is over for every agent: the boot jump has been made (spec/10_state.md R47). -/
def State.booted (s : State) : Bool := s.dfu.booted

/-- Run an instruction unless the run is over. After `HALT` the machine has stopped (R275). After the boot jump "no
further requests are processed" and no agent changes block state (spec/44_dfu_controller.md R234,
spec/70_reset_and_hazards.md R321): the instruction is not processed and nothing changes (log 10). -/
def unlessEnded (k : State → Host.Outcome State Fault Refusal) (s : State) : Host.Outcome State Fault Refusal :=
  if s.halted then .fault .hardStop else if s.booted then .next s else k s

end Sys2Proof.Machine
end

