-- ==== Sys2Proof/Machine/Flash.lean ====
section
/-! DEFINITION. The Flash Programming Interface as the block calls it (spec/44_dfu_controller.md R236 to R238) and the
block flush (R232, R233, R235). -/

namespace Sys2Proof.Machine

/-- The primitive's answer: the next one the flash controller has queued, else a free value (log 13). -/
def flashAnswer (s : State) : Bool := s.flashAnswers.head?.getD (Config.drawOk s.draws)

/-- The state after the answer has been given. -/
def takeAnswer (s : State) : State :=
  if s.flashAnswers.isEmpty then { s with draws := s.draws + 1 } else { s with flashAnswers := s.flashAnswers.tail }

/-- `n` free words, the content of a page whose erase or write failed (log 14). -/
def drawnWords (n start : Nat) : List Word := (List.range n).map fun i => Config.drawWord (start + i)

/-- The flash after a primitive that answered `ok`: the words it was to leave, else free words. -/
def programFlash (ok : Bool) (ws : List Word) (s : State) : State :=
  if ok then { s with flash := Memory.writeWords s.dfu.targetAddr.toNat ws s.flash }
  else
    { s with flash := Memory.writeWords s.dfu.targetAddr.toNat (drawnWords ws.length s.draws) s.flash
             draws := s.draws + ws.length }

/-- `call erase(dfu.target_addr, verify = true)` (R236). -/
def flashErase (s : State) : State :=
  programFlash (flashAnswer s) (List.replicate s.params.blockWords s.params.erasedWord) (takeAnswer s)

/-- `call write(dfu.target_addr, dfu.blk, verify = true)` (R237). -/
def flashWrite (s : State) : State := programFlash (flashAnswer s) s.dfu.blk (takeAnswer s)

/-- Erase, then write; an erase failure skips the write (R232, R233). -/
def eraseAndWrite (s : State) : State :=
  if flashAnswer s then
    let t := flashErase s
    if flashAnswer t then flashWrite t else raise .dfuVerify (flashWrite t)
  else raise .dfuErase (flashErase s)

/-- The sum R235 computes on naturals. -/
def nextTarget (s : State) : Nat := s.dfu.targetAddr.toNat + s.params.blockBytes

/-- The block flush: after erase and write "the target address advances and the pending flag clears whether or not the
flush succeeded" (R232, R233). -/
def blockFlush (s : State) : State :=
  let t := eraseAndWrite s
  t.setDfu { t.dfu with targetAddr := BitVec.ofNat 32 (nextTarget s), flushPending := false }

end Sys2Proof.Machine
end

