-- ==== Sys2Proof/Machine/Fifo.lean ====
section
/-! DEFINITION. The commands of the Endpoint FIFO Core (spec/40_fifo_core.md). Each `cmd...` is one atomic step with its
checks in the order of R120; `FLUSH` and `ZLP_ACK` answer `none` while they are held. Each `exec...` is the meaning of
one row of the opcode table. -/

namespace Sys2Proof.Machine

/-- Checks 2 of R120: an operation on an endpoint that exists, else `BadEndpoint`. -/
def onEndpoint (e : EpNum) (k : State → State) (s : State) : State :=
  if s.hasEp e then k s else raise (.badEndpoint e) s

/-- Checks 2 and 4 of R120: an operation on an endpoint that exists and is configured. -/
def onConfigured (e : EpNum) (k : State → State) (s : State) : State :=
  onEndpoint e (fun s => if (s.ep e).cfgValid then k s else raise (.notConfigured e) s) s

/-! ### The operations of the contract -/

/-- `CONFIGURE e, type, dir, mps` (R121). -/
def cmdConfigure (e : EpNum) (ty : XferType) (dir : Dir) (mps : BitVec 11) (s : State) : State :=
  onEndpoint e (fun s =>
    if badConfigure s.params.fifoCap e ty mps then raise .badArgument s
    else
      let x := { s.ep e with q := [], xtype := ty, dir := dir, mps := mps, cfgValid := true }
      (((s.setEp e x.configureHw.enableHw).setPcb (s.pcb.clrPending e)).respond .ok 0)) s

/-- `WRITE e, byte` (R122): the byte is rejected when the FIFO is full. -/
def cmdWrite (e : EpNum) (b : Byte) (s : State) : State :=
  onConfigured e (fun s =>
    if s.params.fifoCap ≤ (s.ep e).len then raise (.fifoFull e) s
    else (s.setEp e { s.ep e with q := (s.ep e).q ++ [b] }).respond .ok 0) s

/-- `READ e` (R123): the response to a read of an empty FIFO carries a free value. -/
def cmdRead (e : EpNum) (s : State) : State :=
  onConfigured e (fun s =>
    match (s.ep e).q with
    | [] => raise (.fifoEmpty e) s
    | b :: rest => (s.setEp e { s.ep e with q := rest }).respond .ok (byteData b)) s

/-- `FLUSH e` (R124): at most one packet, held while the previous one has not been taken. -/
def cmdFlush (e : EpNum) (s : State) : Option State :=
  if !s.hasEp e then some (raise (.badEndpoint e) s)
  else if !(s.ep e).cfgValid then some (raise (.notConfigured e) s)
  else if !(s.ep e).maySend then some (raise (.badDirection e) s)
  else if (s.ep e).txReady then none
  else
    let x := s.ep e
    let n := min x.len x.mps.toNat
    some ((s.setEp e { x with txPkt := x.q.take n, q := x.q.drop n, underrun := false, txReady := true }).respond .ok
      (countData n))

/-- The number of bytes a drain moves: what the wire holds, cut to the free space (R125). -/
def drainCount (cap : Nat) (x : Endpoint) : Nat := min x.rxCnt (cap - x.len)

/-- What a drain does to the endpoint (R125): the receive-ready condition is cleared when the byte count is zero after
the move. -/
def drained (cap : Nat) (x : Endpoint) : Endpoint :=
  let k := drainCount cap x
  { x with q := x.q ++ x.rxBuf.take k, rxBuf := x.rxBuf.drop k,
           rxReady := x.rxReady && !(x.rxBuf.drop k).isEmpty }

/-- `DRAIN e` (R125): never a fault, never a hold. -/
def cmdDrain (e : EpNum) (s : State) : State :=
  onConfigured e (fun s =>
    if !(s.ep e).mayReceive then raise (.badDirection e) s
    else
      let k := drainCount s.params.fifoCap (s.ep e)
      ((s.setEp e (drained s.params.fifoCap (s.ep e))).setPcb (s.pcb.noteDrain e k)).respond .ok (countData k)) s

/-- `SET_STALL e` (R126): from any endpoint state. -/
def cmdSetStall (e : EpNum) (s : State) : State := onEndpoint e (fun s => (s.stall e).respond .ok 0) s

/-- `CLEAR_STALL e` (R127). -/
def cmdClearStall (e : EpNum) (s : State) : State := onEndpoint e (fun s => (s.unstall e).respond .ok 0) s

/-- `ZLP_ACK` (R128): an empty packet on endpoint 0, held like `FLUSH`; the FIFO is not read. -/
def cmdZlpAck (s : State) : Option State :=
  if !(s.ep 0).cfgValid then some (raise (.notConfigured 0) s)
  else if (s.ep 0).txReady then none
  else some ((s.setEp 0 { s.ep 0 with txPkt := [], underrun := false, txReady := true }).respond .ok 0)

/-! ### Flag operations and initialisation -/

/-- `FLAG_SET mask` (R129). -/
def cmdFlagSet (mask : BitVec 3) (s : State) : State := (s.setPcb (s.pcb.setFlags mask)).respond .ok 0

/-- `FLAG_CLR mask` (R130). -/
def cmdFlagClr (mask : BitVec 3) (s : State) : State := (s.setPcb (s.pcb.clrFlags mask)).respond .ok 0

/-- `PEND_CLR e` (R131). -/
def cmdPendClr (e : EpNum) (s : State) : State :=
  onEndpoint e (fun s => (s.setPcb (s.pcb.clrPending e)).respond .ok 0) s

/-- Every endpoint that exists torn down (R132). -/
def tearDownEps (numEps : Nat) (eps : Vector Endpoint 16) : Vector Endpoint 16 :=
  Vector.ofFn fun i : Fin 16 => if i.val < numEps then eps[i].tearDown else eps[i]

/-- The state change of `PCB_INIT`, which is also that of a bus reset (R132, spec/70_reset_and_hazards.md R302): every
endpoint that exists is torn down, the PCB is 0, the mask is off. -/
def tearDownPcb (s : State) : State :=
  { s with
    eps := tearDownEps s.params.numEps s.eps
    pcb := { flags := 0, pending := 0, stall := 0 }
    ep0Masked := false }

/-- `PCB_INIT` (R132). -/
def cmdPcbInit (s : State) : State := (tearDownPcb s).respond .ok 0

/-! ### The meanings -/

/-- A command that is never held. -/
def runCommand (cmd : State → State) (s : State) : Host.Outcome State Fault Refusal :=
  unlessEnded (fun s => .next (cmd s)) s

/-- A command that may be held. While it is held MAIN waits on it: it stays the next thing MAIN does, and is tried again,
with all its checks, at MAIN's next turn (spec/00_scope.md R13, R14; log 9). -/
def runHeldCommand (cmd : State → Option State) (op : MainOp) (s : State) : Host.Outcome State Fault Refusal :=
  unlessEnded (fun s => .next ((cmd s).getD { s with main := op :: s.main })) s

def execPcbInit (s : State) : Host.Outcome State Fault Refusal := runCommand cmdPcbInit s

def execConfigure (e : EpNum) (ty : XferType) (dir : Dir) (mps : BitVec 11) (s : State) :
    Host.Outcome State Fault Refusal := runCommand (cmdConfigure e ty dir mps) s

def execWrite (e : EpNum) (b : Byte) (s : State) : Host.Outcome State Fault Refusal := runCommand (cmdWrite e b) s

def execRead (e : EpNum) (s : State) : Host.Outcome State Fault Refusal := runCommand (cmdRead e) s

def execFlush (e : EpNum) (s : State) : Host.Outcome State Fault Refusal := runHeldCommand (cmdFlush e) (.flush e) s

def execDrain (e : EpNum) (s : State) : Host.Outcome State Fault Refusal := runCommand (cmdDrain e) s

def execSetStall (e : EpNum) (s : State) : Host.Outcome State Fault Refusal := runCommand (cmdSetStall e) s

def execClearStall (e : EpNum) (s : State) : Host.Outcome State Fault Refusal := runCommand (cmdClearStall e) s

def execZlpAck (s : State) : Host.Outcome State Fault Refusal := runHeldCommand cmdZlpAck .zlpAck s

def execFlagSet (mask : BitVec 3) (s : State) : Host.Outcome State Fault Refusal := runCommand (cmdFlagSet mask) s

def execFlagClr (mask : BitVec 3) (s : State) : Host.Outcome State Fault Refusal := runCommand (cmdFlagClr mask) s

def execPendClr (e : EpNum) (s : State) : Host.Outcome State Fault Refusal := runCommand (cmdPendClr e) s

/-- A command word that matches no row: refused with `ERR_OP`, the state unchanged (spec/30_encoding.md R94). -/
def execReserved (s : State) : Host.Outcome State Fault Refusal := runCommand (raise .reservedCommand) s

end Sys2Proof.Machine
end

