-- ==== Sys2Proof/Machine/Wire.lean ====
section
/-! DEFINITION. The steps of the other agents: the wire and the interrupt context (spec/41_wire_side.md), the bus reset
(spec/70_reset_and_hazards.md R302) and the environment event `HALT` (spec/60_exceptions.md R275). -/

namespace Sys2Proof.Machine

/-- When a step can be taken. Nobody steps after the boot jump (R321) or after `HALT` (R275). -/
def agentEnabled (a : AgentStep) (s : State) : Bool :=
  !s.halted && !s.booted &&
  match a with
  | .irqDrain e =>  -- R168, R169
    s.hasEp e && (s.ep e).rxReady && (s.ep e).cfgValid && (s.ep e).mayReceive && !(e == 0 && s.ep0Masked)
  | .wireRx e bytes =>  -- R161
    s.hasEp e && (s.ep e).hwEn && (s.ep e).cfgValid && (s.ep e).mayReceive && !(s.ep e).hwStall && !(s.ep e).rxReady &&
      decide (bytes.length ≤ (s.ep e).mps.toNat)
  | .wireTake e =>  -- R162
    s.hasEp e && (s.ep e).hwEn && (s.ep e).txReady && !(s.ep e).hwStall && (s.ep e).maySend
  | .wirePollIn e =>  -- R163
    s.hasEp e && (s.ep e).hwEn && !(s.ep e).txReady && !(s.ep e).hwStall && (s.ep e).maySend
  | .wireSeeStall e => s.hasEp e && (s.ep e).hwStall  -- R164
  | .wireSetup bytes =>  -- R165; no class request is being handled, duty H1 of R170
    s.hasEp 0 && (s.ep 0).hwEn && (s.ep 0).cfgValid && !(s.ep 0).rxReady && bytes.length == 8 && !s.handling
  | .resetBus => true  -- R302
  | .halt => true  -- R275

/-- A packet arrives in the receive buffer: R161 and the last three lines of R165. -/
def receivePacket (bytes : List Byte) (x : Endpoint) : Endpoint :=
  { x with rxBuf := bytes, rxReady := true, toggle := !x.toggle }

/-- What the step does once it is taken. -/
def agentEffect (a : AgentStep) (s : State) : State :=
  match a with
  | .irqDrain e => { cmdDrain e s with resp := s.resp }  -- R168: "with the response discarded"
  | .wireRx e bytes => s.setEp e (receivePacket bytes (s.ep e))
  | .wireTake e =>
    (s.emit (.hostReceives e (s.ep e).txPkt)).setEp e
      { s.ep e with txReady := false, toggle := !(s.ep e).toggle }
  | .wirePollIn e => s.setEp e { s.ep e with underrun := true }
  | .wireSeeStall e => s.emit (.hostSeesStall e)
  | .wireSetup bytes =>
    (s.setEp 0 (receivePacket bytes { s.ep 0 with hwStall := false, txReady := false })).setPcb (s.pcb.clrStall 0)
  | .resetBus => tearDownPcb s
  | .halt => { s with halted := true }

/-- A scheduled step: taken when it is enabled; a step that is not enabled "cannot be taken", so nothing happens
(log 7). -/
def agentStep (a : AgentStep) (s : State) : State := if agentEnabled a s then agentEffect a s else s

end Sys2Proof.Machine
end

