-- ==== Sys2Proof/Machine/Handler.lean ====
section
/-! DEFINITION. The Control Transfer Sequencer (spec/42_control_sequencer.md) and how a handler of MAIN runs: one command
after another, with the other agents' steps in the gaps (spec/20_memory.md R69, R73). -/

namespace Sys2Proof.Machine

/-! ### The last, atomic parts of the drivers' rules -/

/-- `dfu.blk[c + i] <- ...` for every word (spec/44_dfu_controller.md R216). -/
def storeWords : List Word → Nat → List Word → List Word
  | blk, _, [] => blk
  | blk, c, w :: ws => storeWords (blk.set c w) (c + 1) ws

/-- R216 and R217: copy the payload at the cursor, advance it; a full block resets the cursor and requests a flush. -/
def bufferWords (p : Params) (n : Nat) (data : List Byte) (d : Dfu) : Dfu :=
  let d := { d with blk := storeWords d.blk d.cursor (wordsOfBytes data), cursor := d.cursor + n }
  if d.cursor = p.blockWords then { d with cursor := 0, flushPending := true } else d

/-- `DFU_DNLOAD` after its data stage: overrun (R218), else buffer the words and go to `dfuDNLOAD_SYNC` (R215). -/
def dnloadStore (n : Nat) (s : State) : State :=
  if s.params.blockWords < s.dfu.cursor + n then raise .dfuOverrun s
  else s.setDfu { bufferWords s.params n s.rdata s.dfu with bState := .dfuDNLOAD_SYNC }

/-- A `DFU_DNLOAD` of length 0 after its acknowledgement (R219). -/
def dnloadEnd (s : State) : State :=
  if s.dfu.bState = .dfuIDLE then raise .dfuNotDone s
  else s.setDfu { s.dfu with bState := .dfuMANIFEST_SYNC }

/-- `SET_LINE_CODING` after its data stage (spec/43_cdc_client.md R198). -/
def lineCodingStore (s : State) : State := { s with lineCoding := lineCodingOfBytes s.lineCoding s.rdata }

/-! ### One thing MAIN does between two gaps -/

/-- `READN` keeps the byte of the response (spec/30_encoding.md R111). A `READ` of an empty FIFO answered a free value
(spec/60_exceptions.md R265); one that was refused, since a bus reset has torn endpoint 0 down
(spec/70_reset_and_hazards.md R303), read no byte, and what `READN` takes for it is a free value too (log 16). -/
def keepByte (t : State) : State :=
  if respCode t.resp = RespCode.ok.bits ∨ respCode t.resp = RespCode.errEmpty.bits then
    { t with rdata := t.rdata ++ [respByte t.resp] }
  else { t with rdata := t.rdata ++ [respByte (respWord .ok (Config.drawData t.draws))], draws := t.draws + 1 }

/-- `DataStageTimeout` is due: `i = WAIT_BOUND`, never with `INF` (spec/42_control_sequencer.md R182). -/
def waitExpired (s : State) (i : Nat) : Bool := s.params.waitBound == some i

/-- One iteration of the data-stage wait (R182): leave it when `len` bytes are there, time out at the bound (R188), else
one `DRAIN 0`. The hook changes no state. -/
def waitIteration (len i : Nat) (rest : List MainOp) (s : State) : State :=
  if (s.ep 0).len < len then
    if waitExpired s i then raise .dataStageTimeout s
    else (cmdDrain 0 s).setMain (.waitLoop len (i + 1) :: rest)
  else { s with ep0Masked := false }.setMain rest

/-- Do `op`, with `rest` to follow; `none` while it is held. -/
def mainOp (op : MainOp) (rest : List MainOp) (s : State) : Option State :=
  match op with
  | .write e b => some ((cmdWrite e b s).setMain rest)
  | .read0 => some ((keepByte (cmdRead 0 s)).setMain rest)
  | .flush e => (cmdFlush e s).map (·.setMain rest)
  | .zlpAck => (cmdZlpAck s).map (·.setMain rest)
  | .flagClr mask => some ((cmdFlagClr mask s).setMain rest)
  | .pendClr e => some ((cmdPendClr e s).setMain rest)
  | .configure e ty dir mps => some ((cmdConfigure e ty dir mps s).setMain rest)
  | .waitEnter len => some ({ s with ep0Masked := true }.setMain (.waitLoop len 0 :: rest))
  | .waitLoop len i => some (waitIteration len i rest s)
  | .clearIfDrained =>
    some (s.setMain (if (s.ep 0).len = 0 then .flagClr flagSetupDataAvail :: .pendClr 0 :: rest else rest))
  | .sendLoop => some (s.setMain (if 0 < (s.ep 0).len then .flush 0 :: .sendLoop :: rest else rest))
  | .dnloadStore n => some ((dnloadStore n s).setMain rest)
  | .dnloadEnd => some ((dnloadEnd s).setMain rest)
  | .clrstatusEnd => some (s.enterDfuIdle.setMain rest)
  | .abortEnd => some (s.enterDfuIdle.setMain rest)
  | .lineCodingStore => some ((lineCodingStore s).setMain rest)

/-- MAIN goes on with its handler in progress; a held command leaves everything as it is. -/
def mainStep (s : State) : Option State :=
  match s.main with
  | [] => none
  | op :: rest => mainOp op rest s

/-! ### Running a handler -/

/-- Run MAIN's handler for at most `fuel` gaps. At a gap the schedule says who steps; where it lists nothing MAIN goes on.
The run ends when the handler has returned, when it is held and nobody is left to lift the hold, or when the fuel is
used up. What is left then stays in `main` and goes on at MAIN's next turn, so the fuel decides only how many atomic steps
one `step` of the model spans (log 8). -/
def drive : Nat → State → State
  | 0, s => s
  | fuel + 1, s =>
    if s.main.isEmpty || s.halted then s
    else
      match s.sched with
      | .agent a :: rest => drive fuel (agentStep a { s with sched := rest })
      | .main :: rest => drive fuel ((mainStep { s with sched := rest }).getD { s with sched := rest })
      | [] =>
        match mainStep s with
        | some t => drive fuel t
        | none => s

/-- Enough for every handler that is not held: the scheduled gaps, the polls of a bounded wait, one `READ` for each byte
of a data stage, and the fixed rest (log 8). -/
def driveFuel (s : State) : Nat := s.sched.length + s.params.fifoCap + s.params.waitBound.getD 0 + 32

/-- MAIN's turn while a handler or a held command is in progress. -/
def resume (s : State) : State := drive (driveFuel s) s

/-- Start a class request's handler and run it (spec/42_control_sequencer.md R181 (c): one at a time; log 26). -/
def runHandler (ops : List MainOp) (s : State) : State :=
  resume { s with main := ops ++ s.main, rdata := [], handling := true }

/-- Start a procedure of MAIN that is no class request. -/
def runProcedure (ops : List MainOp) (s : State) : State := resume { s with main := ops ++ s.main, rdata := [] }

/-! ### The sequencer's procedures -/

/-- `SEQ_REJECT` (R186). -/
def seqReject (s : State) : State := raise .protocolStall s

/-- `SEQ_ACK` (R183), with what the driver does after it. -/
def seqAck (after : List MainOp) (s : State) : State := runHandler (.zlpAck :: after) s

/-- The commands of `SEQ_RECV L` after its length check (R184), with what the driver does after it. -/
def recvOps (len : Nat) (after : List MainOp) : List MainOp :=
  .waitEnter len :: .zlpAck :: (List.replicate len .read0 ++ .clearIfDrained :: after)

/-- `SEQ_RECV L` (R184): a data stage longer than the FIFO is rejected, since the wait could never be satisfied. -/
def seqRecv (len : Nat) (after : List MainOp) (s : State) : State :=
  if s.params.fifoCap < len then seqReject s else runHandler (recvOps len after) s

/-- The commands of `SEQ_SEND bytes` (R185). -/
def sendOps (bytes : List Byte) : List MainOp := bytes.map (MainOp.write 0) ++ [.sendLoop]

/-- `SEQ_SEND bytes` (R185): enqueue the response, then one packet for each `FLUSH`. -/
def seqSend (bytes : List Byte) (s : State) : State := runHandler (sendOps bytes) s

end Sys2Proof.Machine
end

