-- ==== Sys2Proof/Machine/Cdc.lean ====
section
/-! DEFINITION. The CDC class client (spec/43_cdc_client.md): its three requests, its fallback, and its calls without an
encoding. -/

namespace Sys2Proof.Machine

/-- `GET_LINE_CODING` (R197): 7 bytes whatever `wLength` says. -/
def execCdcGetLineCoding (_r : ReqArgs) (s : State) : Host.Outcome State Fault Refusal :=
  unlessEnded (fun s => .next (seqSend (lineCodingBytes s.lineCoding) s)) s

/-- `SET_LINE_CODING` (R198): `wLength` must be 7. -/
def execCdcSetLineCoding (r : ReqArgs) (s : State) : Host.Outcome State Fault Refusal :=
  unlessEnded (fun s =>
    if r.wLength.toNat ≠ 7 then .next (seqReject s) else .next (seqRecv 7 [.lineCodingStore] s)) s

/-- `SET_CONTROL_LINE_STATE` (R199): acknowledged, nothing stored. -/
def execCdcSetControlLineState (_r : ReqArgs) (s : State) : Host.Outcome State Fault Refusal :=
  unlessEnded (fun s => .next (seqAck [] s)) s

/-- `CDC_REJECT` (R200). -/
def execCdcReject (_bm _br : Byte) (_r : ReqArgs) (s : State) : Host.Outcome State Fault Refusal :=
  unlessEnded (fun s => .next (seqReject s)) s

/-! ### Calls without an encoding -/

/-- `\n` and `\r` (R201). -/
def asciiLF : Byte := 0x0A
def asciiCR : Byte := 0x0D

/-- The commands of `PUTCHAR c` on an enumerated device (R201): the byte, a CR after an LF, one `FLUSH`. -/
def putcharOps (p : Params) (c : Byte) : List MainOp :=
  .write p.epCdcIn c :: ((if c = asciiLF then [.write p.epCdcIn asciiCR] else []) ++ [.flush p.epCdcIn])

/-- `PUTCHAR c` (R201): "dropped, not queued" unless the device is enumerated. -/
def callPutchar (c : Byte) (s : State) : State :=
  if s.pcb.enumerated then runProcedure (putcharOps s.params c) s else s

/-- The endpoint-initialisation callback (R202): CDC configures its two bulk endpoints; DFU configures nothing. -/
def callInit (d : Driver) (s : State) : State :=
  match d with
  | .cdc =>
    runProcedure
      [.configure s.params.epCdcIn .bulk .inn s.params.cdcMps, .configure s.params.epCdcOut .bulk .out s.params.cdcMps] s
  | .dfu => s

/-- The receive-data callback (R203): it "changes no state" of the block and "passes control to the application's handler",
which is a parameter of the step (spec/10_state.md R51) and whose items MAIN takes next (log 24). -/
def callRx (s : State) : State := { s with program := s.rxHandler ++ s.program }

end Sys2Proof.Machine
end

