-- ==== Sys2Proof/Machine/Dfu.lean ====
section
/-! DEFINITION. The requests of the DFU controller (spec/44_dfu_controller.md R213 to R230). The selection by `bRequest`
and `bmRequestType` is the decoder's. -/

namespace Sys2Proof.Machine

/-- The states that accept a `DFU_DNLOAD` (R215, R220). -/
def acceptsDnload (b : DfuState) : Bool := b == .dfuIDLE || b == .dfuDNLOAD_IDLE

/-- `DFU_DNLOAD` (R215 to R220): state, then length, then the data stage (R276). -/
def execDfuDnload (r : ReqArgs) (s : State) : Host.Outcome State Fault Refusal :=
  unlessEnded (fun s =>
    let len := r.wLength.toNat
    if !acceptsDnload s.dfu.bState then .next (seqReject s)
    else if len = 0 then .next (seqAck [.dnloadEnd] s)
    else if len % 4 ≠ 0 ∨ s.params.fifoCap < len then .next (seqReject s)
    else .next (seqRecv len [.dnloadStore (len / 4)] s)) s

/-- The state a GETSTATUS moves to, with the pending flag as sampled on entry (R221). -/
def getstatusNext (pending : Bool) : DfuState → DfuState
  | .dfuDNLOAD_SYNC => if pending then .dfuDNBUSY else .dfuDNLOAD_IDLE
  | .dfuDNBUSY => if pending then .dfuDNBUSY else .dfuDNLOAD_SYNC
  | .dfuMANIFEST_SYNC => .dfuMANIFEST
  | .dfuMANIFEST => .dfuMANIFEST_WAIT_RESET
  | .appIDLE => .appIDLE
  | .appDETACH => .appDETACH
  | .dfuIDLE => .dfuIDLE
  | .dfuDNLOAD_IDLE => .dfuDNLOAD_IDLE
  | .dfuMANIFEST_WAIT_RESET => .dfuMANIFEST_WAIT_RESET
  | .dfuERROR => .dfuERROR

/-- The transition of a GETSTATUS and the block flush when one is pending (R221). -/
def getstatusTransition (s : State) : State :=
  let t := s.setDfu { s.dfu with bState := getstatusNext s.dfu.flushPending s.dfu.bState }
  if s.dfu.flushPending then blockFlush t else t

/-- The boot jump (R234). -/
def bootJump (s : State) : State :=
  (s.emit (.bootJump s.params.flashBase)).setDfu { s.dfu with booted := true }

/-- `DFU_GETSTATUS` (R221, R222): transition, flush, then the boot jump or the six-byte response. A flush whose target
address would reach 2^32 is refused before anything is done (R235, log 15). -/
def execDfuGetstatus (_r : ReqArgs) (s : State) : Host.Outcome State Fault Refusal :=
  unlessEnded (fun s =>
    if s.dfu.flushPending ∧ 2 ^ 32 ≤ nextTarget s then .refused .targetAddressOverflow
    else
      let t := getstatusTransition s
      if t.dfu.bState = .dfuMANIFEST_WAIT_RESET then .next (bootJump t)
      else .next (seqSend (statusBytes t.params t.dfu) t)) s

/-- `DFU_GETSTATE` (R223): one byte, no transition, no flush. -/
def execDfuGetstate (_r : ReqArgs) (s : State) : Host.Outcome State Fault Refusal :=
  unlessEnded (fun s => .next (seqSend (stateBytes s.params s.dfu) s)) s

/-- `DFU_CLRSTATUS` (R225): accepted only in `dfuERROR`. -/
def execDfuClrstatus (_r : ReqArgs) (s : State) : Host.Outcome State Fault Refusal :=
  unlessEnded (fun s =>
    if s.dfu.bState = .dfuERROR then .next (seqAck [.clrstatusEnd] s) else .next (seqReject s)) s

/-- `DFU_ABORT` (R226): from every state in which requests are processed. -/
def execDfuAbort (_r : ReqArgs) (s : State) : Host.Outcome State Fault Refusal :=
  unlessEnded (fun s => .next (seqAck [.abortEnd] s)) s

/-- `DFU_UPLOAD` (R224): "unconditionally stalled". -/
def execDfuUpload (_r : ReqArgs) (s : State) : Host.Outcome State Fault Refusal :=
  unlessEnded (fun s => .next (seqReject s)) s

/-- `DFU_DETACH` (R227): stalled in every state. -/
def execDfuDetach (_r : ReqArgs) (s : State) : Host.Outcome State Fault Refusal :=
  unlessEnded (fun s => .next (seqReject s)) s

/-- `DFU_REJECT` (R228): any other pair of `bmRequestType` and `bRequest`. -/
def execDfuReject (_bm _br : Byte) (_r : ReqArgs) (s : State) : Host.Outcome State Fault Refusal :=
  unlessEnded (fun s => .next (seqReject s)) s

end Sys2Proof.Machine
end

