-- ==== Sys2Proof/Machine/Dispatch.lean ====
section
/-! DEFINITION. `exec`: one arm for each constructor of `Instr`. -/

namespace Sys2Proof.Machine

def exec (i : Instr) (s : State) : Host.Outcome State Fault Refusal :=
  match i with
  | .pcbInit => Sys2Proof.Machine.execPcbInit s
  | .configure e ty dir mps => Sys2Proof.Machine.execConfigure e ty dir mps s
  | .write e b => Sys2Proof.Machine.execWrite e b s
  | .read e => Sys2Proof.Machine.execRead e s
  | .flush e => Sys2Proof.Machine.execFlush e s
  | .drain e => Sys2Proof.Machine.execDrain e s
  | .setStall e => Sys2Proof.Machine.execSetStall e s
  | .clearStall e => Sys2Proof.Machine.execClearStall e s
  | .zlpAck => Sys2Proof.Machine.execZlpAck s
  | .flagSet mask => Sys2Proof.Machine.execFlagSet mask s
  | .flagClr mask => Sys2Proof.Machine.execFlagClr mask s
  | .pendClr e => Sys2Proof.Machine.execPendClr e s
  | .dfuDetach r => Sys2Proof.Machine.execDfuDetach r s
  | .dfuDnload r => Sys2Proof.Machine.execDfuDnload r s
  | .dfuUpload r => Sys2Proof.Machine.execDfuUpload r s
  | .dfuGetstatus r => Sys2Proof.Machine.execDfuGetstatus r s
  | .dfuClrstatus r => Sys2Proof.Machine.execDfuClrstatus r s
  | .dfuGetstate r => Sys2Proof.Machine.execDfuGetstate r s
  | .dfuAbort r => Sys2Proof.Machine.execDfuAbort r s
  | .dfuReject bm br r => Sys2Proof.Machine.execDfuReject bm br r s
  | .cdcSetLineCoding r => Sys2Proof.Machine.execCdcSetLineCoding r s
  | .cdcGetLineCoding r => Sys2Proof.Machine.execCdcGetLineCoding r s
  | .cdcSetControlLineState r => Sys2Proof.Machine.execCdcSetControlLineState r s
  | .cdcReject bm br r => Sys2Proof.Machine.execCdcReject bm br r s

end Sys2Proof.Machine
end

