-- ==== Sys2Proof/Machine/Sched.lean ====
section
/-! DEFINITION. How a step finds what to do: the schedule says which agent steps, MAIN goes on with its handler in progress
or takes the next item the dispatcher hands it (spec/00_scope.md R6, R12, spec/20_memory.md R73). -/

namespace Sys2Proof.Machine

/-- MAIN takes an item. A reserved command word is answered with `ERR_OP` (spec/30_encoding.md R94). -/
def runItem (it : MainItem) (s : State) : Host.Outcome State Fault Refusal :=
  match it with
  | .issue w =>
    match decode s.params.requestCodes w with
    | some i => exec i s
    | none => execReserved s
  | .putchar c => .next (callPutchar c s)
  | .initCallback d => .next (callInit d s)
  | .rxCallback => .next (callRx s)

/-- MAIN's turn: a handler or a held command in progress goes on; else the next item; with nothing to do, nothing. -/
def mainTurn (s : State) : Host.Outcome State Fault Refusal :=
  if s.main.isEmpty then
    match s.program with
    | [] => .next s
    | it :: rest => runItem it { s with program := rest }
  else .next (resume s)

/-- One step. After `HALT` the machine has stopped; after the boot jump nothing changes any more (R321, log 10). -/
def nextStep (s : State) : Host.Outcome State Fault Refusal :=
  unlessEnded (fun s =>
    match s.sched with
    | .agent a :: rest => .next (agentStep a { s with sched := rest })
    | .main :: rest => mainTurn { s with sched := rest }
    | [] => mainTurn s) s

/-- Put one encoded operation where the next step takes it: MAIN is between handlers, it is MAIN's turn, and the operation
is the dispatcher's next item (log 6). -/
def placeNext (w : Encoded) (s : State) : State :=
  { s with main := [], handling := false, sched := .main :: s.sched, program := .issue w :: s.program }

/-! ### The expansion of one request (spec/42_control_sequencer.md R189) -/

/-- The steps of the wire and the interrupt context with which a request reaches the FIFO of endpoint 0. -/
def hostReqSlots (s : BitVec 64) : List Slot := [.agent (.wireSetup (setupBytes s)), .agent (.irqDrain 0)]

/-- What the dispatcher then hands MAIN: eight `READ 0`, the two clearing commands, and the driver's call. -/
def hostReqItems (d : Driver) (s : BitVec 64) : List MainItem :=
  List.replicate 8 (.issue (.cmd32 0x40000000)) ++
    [.issue (.cmd32 0xB0000002), .issue (.cmd32 0xC0000000), .issue (.setup8 d s)]

end Sys2Proof.Machine
end

