-- ==== Sys2Proof/Machine/Step.lean ====
section
/-! DEFINITION. `step`, and where it takes its next instruction from. -/

namespace Sys2Proof.Machine

/-- One step of the machine. -/
def step (s : State) : Host.Outcome State Fault Refusal := nextStep s

/-- The step relation of the block, with what is configuration or input and not state as a parameter of it
(spec/10_state.md R51). `step` is the same relation with both halves in one value (log 1). -/
def Block.StepsTo (i : Inputs) (b b' : Block) : Prop := ∃ i' : Inputs, step ⟨b, i⟩ = .next ⟨b', i'⟩

/-- `s` with the instruction of a table word placed where `step` takes its next one. -/
def State.withFetchWord (s : State) (nbits w : Nat) : State := placeNext (tableEncoded nbits w) s

end Sys2Proof.Machine
end

