-- ==== Sys2Proof/Safety.lean ====
section
/-! DEFINITION. What statements are made in terms of: the invariants of spec/10_state.md R55 and
spec/44_dfu_controller.md R239, a run free of recorded faults (spec/10_state.md R54), the conditions under which a request
runs undisturbed, and what a command leaves alone. -/

namespace Sys2Proof.Machine

/-! ### Invariants -/

/-- R55 (a), (c), (d), (f) and R24 for endpoint `e`, and what holds of one that is not configured (R307). -/
structure EndpointInv (p : Params) (e : EpNum) (x : Endpoint) : Prop where
  /-- R55 (a). -/
  capacity : x.q.length ≤ p.fifoCap
  /-- R55 (c). -/
  packetSize : x.cfgValid = true → 1 ≤ x.mps.toNat ∧ x.mps.toNat ≤ p.fifoCap
  /-- R55 (d). -/
  receive : x.rxReady = false → x.rxBuf = []
  /-- R55 (f). -/
  transmit : x.txReady = true → x.txPkt.length ≤ x.mps.toNat
  /-- `hw_en = 0` on an endpoint that is not configured (R307), and only there. -/
  enabled : x.hwEn = x.cfgValid
  /-- A FIFO that has not been created holds nothing (spec/60_exceptions.md R263). -/
  unconfigured : x.cfgValid = false → x.q = []
  /-- "Invariant: endpoint 0 is always control" (R24). -/
  control : e = 0 → x.cfgValid = true → x.xtype = .ctrl

/-- R55 (g) to (j) and R239 for the DFU controller. -/
structure DfuInv (p : Params) (d : Dfu) : Prop where
  /-- R55 (g), R239 (a). -/
  cursor : d.cursor < p.blockWords
  /-- R55 (h), R239 (b). -/
  pending : d.flushPending = true → d.cursor = 0 ∧ d.bState = .dfuDNLOAD_SYNC
  /-- R55 (i), R239 (e). -/
  target : ∃ f, d.targetAddr.toNat = p.flashBase.toNat + p.blockBytes * f
  /-- R55 (j). -/
  iString : d.iString = 0
  /-- `dfu.poll_timeout` is the constant `POLL_TIMEOUT` (R222). -/
  pollTimeout : d.pollTimeout = p.pollTimeout
  /-- R239 (d). -/
  status : d.bStatus ≠ .ok → d.bState = .dfuERROR
  /-- R234: `dfu.bState = dfuMANIFEST_WAIT_RESET` if and only if `dfu.booted = 1`. -/
  boot : d.bState = .dfuMANIFEST_WAIT_RESET ↔ d.booted = true
  /-- The block buffer has `BLOCK_WORDS` words (R43). -/
  block : d.blk.length = p.blockWords

/-- The parts of a handler that end a DFU request. -/
def MainOp.endsDfu : MainOp → Bool
  | .dnloadStore _ | .dnloadEnd | .clrstatusEnd | .abortEnd => true
  | .write _ _ | .read0 | .flush _ | .zlpAck | .flagClr _ | .pendClr _ | .configure _ _ _ _ | .waitEnter _
  | .waitLoop _ _ | .clearIfDrained | .sendLoop | .lineCodingStore => false

/-- The state a DFU request was accepted in is still the state when its last part runs. -/
def MainOp.suits (b : DfuState) : MainOp → Bool
  | .dnloadStore _ | .dnloadEnd => acceptsDnload b
  | .clrstatusEnd => b == .dfuERROR
  | .abortEnd | .write _ _ | .read0 | .flush _ | .zlpAck | .flagClr _ | .pendClr _ | .configure _ _ _ _ | .waitEnter _
  | .waitLoop _ _ | .clearIfDrained | .sendLoop | .lineCodingStore => true

/-- At most one handler is in progress (spec/42_control_sequencer.md R181 (c)), and it suits the DFU state. -/
structure MainInv (s : State) : Prop where
  oneEnd : (s.main.filter MainOp.endsDfu).length ≤ 1
  suits : ∀ op ∈ s.main, op.suits s.dfu.bState = true
  handling : s.handling = true → s.main ≠ []

/-- The invariant of the block: R55 and R239. -/
structure BlockInv (s : State) : Prop where
  legal : s.params.Legal
  endpoints : ∀ e : EpNum, EndpointInv s.params e (s.ep e)
  /-- The numbers `NUM_EPS` to 15 have no endpoint (R7, R8): nothing is ever there. -/
  absent : ∀ e : EpNum, s.params.numEps ≤ e.val → s.ep e = Endpoint.reset
  /-- R55 (e). -/
  stalls : ∀ e : EpNum, s.pcb.stallBit e = (s.ep e).hwStall
  dfu : DfuInv s.params s.dfu
  /-- The flash is in canonical form. -/
  flash : Memory.wf s.flash
  /-- `fault` is a set (R54). -/
  faults : s.faults.Nodup

/-- The invariant of the machine. -/
structure Inv (s : State) : Prop where
  block : BlockInv s
  main : MainInv s

/-- A run free of recorded faults, the premise a claim about a run may take (R54). -/
abbrev State.faultFree (s : State) : Prop := s.faults = []

/-! ### When a request is handled undisturbed -/

/-- The machine runs: neither `HALT` nor the boot jump has happened. -/
abbrev State.running (s : State) : Prop := s.halted = false ∧ s.dfu.booted = false

/-- MAIN is between handlers and no other agent is scheduled: what is run now runs to its end undisturbed. -/
abbrev State.quiet (s : State) : Prop := s.running ∧ s.main = [] ∧ s.sched = []

/-- The state in which spec/42_control_sequencer.md R189 hands a request to a driver, as far as the driver needs it:
endpoint 0 is configured (R181 (d)), as a control endpoint, and no packet is ready on it. -/
abbrev State.readyForRequest (s : State) : Prop :=
  s.quiet ∧ 0 < s.params.numEps ∧ (s.ep 0).cfgValid = true ∧ (s.ep 0).xtype = .ctrl ∧
    (s.ep 0).txReady = false

/-! ### Frames -/

/-- Everything a FIFO command but `PCB_INIT` leaves alone, whatever its endpoint (spec/40_fifo_core.md R139): the
parameters, the DFU controller, the Line Coding record, every byte of the flash, the mask, and the inputs and outputs but the
free values. -/
structure CommandFrame (s t : State) : Prop where
  params : t.params = s.params
  rxHandler : t.rxHandler = s.rxHandler
  dfu : t.dfu = s.dfu
  lineCoding : t.lineCoding = s.lineCoding
  flash : ∀ a, Memory.readByte a t.flash = Memory.readByte a s.flash
  ep0Masked : t.ep0Masked = s.ep0Masked
  events : t.events = s.events
  rdata : t.rdata = s.rdata
  handling : t.handling = s.handling
  program : t.program = s.program
  sched : t.sched = s.sched
  flashAnswers : t.flashAnswers = s.flashAnswers
  halted : t.halted = s.halted

/-- Only endpoint `e` may differ. -/
abbrev OnlyEndpoint (e : EpNum) (s t : State) : Prop := ∀ e' : EpNum, e' ≠ e → t.ep e' = s.ep e'

/-- What every class request leaves alone: the parameters, every endpoint but endpoint 0, the program, the schedule. -/
structure RequestFrame (s t : State) : Prop where
  params : t.params = s.params
  rxHandler : t.rxHandler = s.rxHandler
  others : OnlyEndpoint 0 s t
  program : t.program = s.program
  sched : t.sched = s.sched
  halted : t.halted = s.halted

/-- What a request that runs no block flush, makes no boot jump and causes no fault leaves alone as well: every byte of the
flash, the flash controller, the events, the fault record, the free values. -/
structure QuietFrame (s t : State) : Prop extends RequestFrame s t where
  flash : ∀ a, Memory.readByte a t.flash = Memory.readByte a s.flash
  flashAnswers : t.flashAnswers = s.flashAnswers
  events : t.events = s.events
  faults : t.faults = s.faults
  draws : t.draws = s.draws

/-! ### What the sequencer's procedures leave in a state that is ready for a request -/

/-- After `SEQ_SEND bytes` (spec/42_control_sequencer.md R185): one packet is marked ready. When more bytes are queued than
fit one packet, the next `FLUSH 0` is held and the handler is still in progress. -/
structure Sent (bytes : List Byte) (s t : State) : Prop where
  endpoint : t.ep 0 =
    { s.ep 0 with q := ((s.ep 0).q ++ bytes).drop (s.ep 0).mps.toNat, underrun := false, txReady := true,
                  txPkt := ((s.ep 0).q ++ bytes).take (s.ep 0).mps.toNat }
  pcb : t.pcb = s.pcb
  ep0Masked : t.ep0Masked = s.ep0Masked
  main : t.main = if ((s.ep 0).q ++ bytes).length ≤ (s.ep 0).mps.toNat then [] else [.flush 0, .sendLoop]

/-- After `SEQ_RECV n` whose `n` bytes had arrived (R184): the bytes are out of the FIFO, the acknowledgement is ready, the
two flags are cleared if the FIFO is empty, the mask is off, and the handler has returned. -/
structure Received (n : Nat) (s t : State) : Prop where
  endpoint : t.ep 0 = { s.ep 0 with q := (s.ep 0).q.drop n, txPkt := [], underrun := false, txReady := true }
  pcb : t.pcb =
    if (s.ep 0).len = n then
      { s.pcb with flags := s.pcb.flags &&& ~~~0b010#3, pending := s.pcb.pending &&& ~~~1#16 }
    else s.pcb
  ep0Masked : t.ep0Masked = false
  main : t.main = []
  handling : t.handling = false

/-! ### Sequences of commands -/

/-- Issue commands one after another: the responses in order, and the state after the last. -/
def runAll : List Instr → State → Option (List Word × State)
  | [], s => some ([], s)
  | i :: is, s =>
    match exec i s with
    | .next t => (runAll is t).map fun r => (t.resp :: r.1, r.2)
    | _ => none

/-- `n` rounds of `FLUSH e` and the host's `TAKE e`. -/
def flushTake (e : EpNum) : Nat → State → Option State
  | 0, s => some s
  | n + 1, s =>
    match exec (.flush e) s with
    | .next t => flushTake e n (agentStep (.wireTake e) t)
    | _ => none

/-- `n` steps of the machine. -/
def stepN : Nat → State → Option State
  | 0, s => some s
  | n + 1, s =>
    match step s with
    | .next t => stepN n t
    | _ => none

/-! ### The data-stage wait as the schedule sees it (spec/42_control_sequencer.md R182; log 7) -/

/-- What happens up to and including one poll of the wait: a packet may arrive, the interrupt context may ask to drain
endpoint 0, and MAIN polls. -/
structure WaitRound where
  packet : Option (List Byte)
  irq : Bool
  deriving DecidableEq, Repr

/-- The slots of one round. -/
def WaitRound.slots (r : WaitRound) : List Slot :=
  r.packet.toList.map (fun p => .agent (.wireRx 0 p)) ++ ((if r.irq then [.agent (.irqDrain 0)] else []) ++ [.main])

/-- The packets that arrive, in order. -/
def arrivals (rounds : List WaitRound) : List (List Byte) := rounds.filterMap WaitRound.packet

/-- Endpoint 0 can receive the data stage of a request and nothing has arrived yet. -/
abbrev State.awaitsData (s : State) : Prop :=
  s.running ∧ s.main = [] ∧ 0 < s.params.numEps ∧ (s.ep 0).cfgValid = true ∧ (s.ep 0).hwEn = true ∧
    (s.ep 0).xtype = .ctrl ∧ (s.ep 0).hwStall = false ∧ (s.ep 0).rxReady = false ∧ (s.ep 0).rxBuf = [] ∧
    (s.ep 0).txReady = false ∧ (s.ep 0).q = []

/-- What every request leaves whose data stage arrived in the packets `ps` during its wait and was consumed whole: the
acknowledgement ready on endpoint 0, the toggle turned once for each packet, the two flags clear, the mask off, the
handler at its end, and nothing else changed but the fields of the driver. -/
structure ReceivedDuringWait (ps : List (List Byte)) (s t : State) : Prop where
  endpoint : t.ep 0 =
    { s.ep 0 with toggle := (s.ep 0).toggle ^^ (ps.length % 2 == 1), txPkt := [], underrun := false, txReady := true }
  others : OnlyEndpoint 0 s t
  pcb : t.pcb = { s.pcb with flags := s.pcb.flags &&& ~~~0b010#3, pending := s.pcb.pending &&& ~~~1#16 }
  rest : t =
    { s with
      eps := t.eps, pcb := t.pcb, dfu := t.dfu, lineCoding := t.lineCoding, resp := t.resp, rdata := t.rdata
      sched := [], ep0Masked := false, handling := false }

end Sys2Proof.Machine

namespace Sys2Proof.Instr

/-! ### The commands of the Endpoint FIFO Core and what each may write -/

/-- The operations with a command word (spec/30_encoding.md R92). -/
def isCommand : Instr → Bool
  | .pcbInit | .configure _ _ _ _ | .write _ _ | .read _ | .flush _ | .drain _ | .setStall _ | .clearStall _
  | .zlpAck | .flagSet _ | .flagClr _ | .pendClr _ => true
  | .dfuDetach _ | .dfuDnload _ | .dfuUpload _ | .dfuGetstatus _ | .dfuClrstatus _ | .dfuGetstate _ | .dfuAbort _
  | .dfuReject _ _ _ | .cdcSetLineCoding _ | .cdcGetLineCoding _ | .cdcSetControlLineState _ | .cdcReject _ _ _ => false

/-- The commands that write fields of endpoint `e`. -/
def writesEndpoint (e : EpNum) (i : Instr) : Bool :=
  match i with
  | .configure e' _ _ _ | .write e' _ | .read e' | .flush e' | .drain e' | .setStall e' | .clearStall e' => e' == e
  | .zlpAck => e == 0
  | _ => false

/-- The commands that write `pcb.flags`: "Flags written" of R125, R129, R130. -/
def writesFlags (i : Instr) : Bool :=
  match i with
  | .drain _ | .flagSet _ | .flagClr _ => true
  | _ => false

/-- The commands that write `pcb.pending[e]` (R121, R125, R131). -/
def writesPending (e : EpNum) (i : Instr) : Bool :=
  match i with
  | .configure e' _ _ _ | .drain e' | .pendClr e' => e' == e
  | _ => false

/-- The commands that write `pcb.stall[e]` (R126, R127). -/
def writesStall (e : EpNum) (i : Instr) : Bool :=
  match i with
  | .setStall e' | .clearStall e' => e' == e
  | _ => false

/-- The commands that can raise a fault (R122, R123). -/
def canFault (i : Instr) : Bool :=
  match i with
  | .write _ _ | .read _ => true
  | _ => false

/-- What stays to be done when a command is held (R124, R128). -/
def heldAs (i : Instr) : Option Machine.MainOp :=
  match i with
  | .flush e => some (.flush e)
  | .zlpAck => some .zlpAck
  | _ => none

end Sys2Proof.Instr
end

