-- ==== Sys2Proof/Certificates/Slice0/Obligations.lean ====
section
/-! DEFINITION. The statements for the provers, from the numbered rules of spec/. A statement about a command or a request
says the whole next state, so what it does not name it says unchanged. -/

open Sys2Proof Sys2Proof.Machine

/-! ## Encodings -/

/-- A few words of spec/95_test_vectors.md and spec/00_scope.md R15, read by the decoder: one for each command row, one for
each request row, and reserved words. -/
def Obligations.DecodesSpecWords : Prop :=
  decode RequestCodes.default (.cmd32 0x10000000) = some .pcbInit ∧
  decode RequestCodes.default (.cmd32 0x21A00040) = some (.configure 1 .bulk .inn 64) ∧
  decode RequestCodes.default (.cmd32 0x31000042) = some (.write 1 0x42) ∧
  decode RequestCodes.default (.cmd32 0x40000000) = some (.read 0) ∧
  decode RequestCodes.default (.cmd32 0x51000000) = some (.flush 1) ∧
  decode RequestCodes.default (.cmd32 0x62000000) = some (.drain 2) ∧
  decode RequestCodes.default (.cmd32 0x72000000) = some (.setStall 2) ∧
  decode RequestCodes.default (.cmd32 0x82000000) = some (.clearStall 2) ∧
  decode RequestCodes.default (.cmd32 0x90000000) = some .zlpAck ∧
  decode RequestCodes.default (.cmd32 0xA0000001) = some (.flagSet 0b001) ∧
  decode RequestCodes.default (.cmd32 0xB0000002) = some (.flagClr 0b010) ∧
  decode RequestCodes.default (.cmd32 0xC2000000) = some (.pendClr 2) ∧
  decode RequestCodes.default (.cmd32 0x00000000) = none ∧ decode RequestCodes.default (.cmd32 0x40000001) = none ∧ decode RequestCodes.default (.cmd32 0x91000000) = none ∧
  (setupOfBytes [0x21, 0x01, 0, 0, 0, 0, 0x10, 0]).map (fun s => decode RequestCodes.default (.setup8 .dfu s)) =
    some (some (.dfuDnload ⟨0, 0, 16⟩)) ∧
  (setupOfBytes [0xA1, 0x21, 0, 0, 0, 0, 0x07, 0]).map (fun s => decode RequestCodes.default (.setup8 .cdc s)) =
    some (some (.cdcGetLineCoding ⟨0, 0, 7⟩))

/-- R93: a word selects a row with `(w & mask) = match`, each row's fields lie where the table has them, and no word selects
two rows; R94: a word that selects none names no operation. -/
def Obligations.CommandRows : Prop :=
  (∀ (c : RequestCodes) (w : Word),
    (w &&& 0xFFFFFFFF = 0x10000000 → decode c (.cmd32 w) = some .pcbInit) ∧
    (w &&& 0xF01FF800 = 0x20000000 →
      decode c (.cmd32 w) = some (.configure (epField w) (XferType.ofBits (w.extractLsb' 22 2))
        (Dir.ofBits (w.extractLsb' 21 1)) (w.extractLsb' 0 11))) ∧
    (w &&& 0xF0FFFF00 = 0x30000000 → decode c (.cmd32 w) = some (.write (epField w) (w.extractLsb' 0 8))) ∧
    (w &&& 0xF0FFFFFF = 0x40000000 → decode c (.cmd32 w) = some (.read (epField w))) ∧
    (w &&& 0xF0FFFFFF = 0x50000000 → decode c (.cmd32 w) = some (.flush (epField w))) ∧
    (w &&& 0xF0FFFFFF = 0x60000000 → decode c (.cmd32 w) = some (.drain (epField w))) ∧
    (w &&& 0xF0FFFFFF = 0x70000000 → decode c (.cmd32 w) = some (.setStall (epField w))) ∧
    (w &&& 0xF0FFFFFF = 0x80000000 → decode c (.cmd32 w) = some (.clearStall (epField w))) ∧
    (w &&& 0xFFFFFFFF = 0x90000000 → decode c (.cmd32 w) = some .zlpAck) ∧
    (w &&& 0xFFFFFFF8 = 0xA0000000 → decode c (.cmd32 w) = some (.flagSet (w.extractLsb' 0 3))) ∧
    (w &&& 0xFFFFFFF8 = 0xB0000000 → decode c (.cmd32 w) = some (.flagClr (w.extractLsb' 0 3))) ∧
    (w &&& 0xF0FFFFFF = 0xC0000000 → decode c (.cmd32 w) = some (.pendClr (epField w)))) ∧
  (∀ w : Word, cmdRows.Pairwise fun r r' => ¬(w &&& r.mask = r.mtch ∧ w &&& r'.mask = r'.mtch)) ∧
  (∀ (c : RequestCodes) (w : Word), (∀ r ∈ cmdRows, w &&& r.mask ≠ r.mtch) → decode c (.cmd32 w) = none)

/-- Decoding an encoded well-formed instruction gives it back, with every operand at every value, whatever the request codes
(R7) are, as long as no two requests of one driver have the same. -/
def Obligations.DecodeEncode : Prop :=
  ∀ (c : RequestCodes) (i : Instr), c.Distinct → i.WellFormed c = true → decode c (encode c i) = some i

/-- The other direction: what the decoder reads from any word is well formed, and encodes to that word, so each instruction
has one encoded form and no bit of a word is dropped. -/
def Obligations.EncodeDecode : Prop :=
  ∀ (c : RequestCodes) (w : Encoded) (i : Instr), decode c w = some i → i.WellFormed c = true ∧ encode c i = w

/-- R96 and R98: the eight bytes of a setup packet, the fields assembled low byte first. -/
def Obligations.SetupFields : Prop :=
  ∀ b0 b1 b2 b3 b4 b5 b6 b7 : Byte, ∃ s : BitVec 64, setupOfBytes [b0, b1, b2, b3, b4, b5, b6, b7] = some s ∧
    setupBytes s = [b0, b1, b2, b3, b4, b5, b6, b7] ∧ bmField s = b0 ∧ brField s = b1 ∧
    argFields s = ⟨b3 ++ b2, b5 ++ b4, b7 ++ b6⟩

/-- R103 and R106 with the default codes, as spec/opcode_table.json writes them: a request row matches on `S[15:0]`, and each driver's last row
takes everything else (R99). -/
def Obligations.RequestRows : Prop :=
  ∀ s : BitVec 64,
    decode RequestCodes.default (.setup8 .dfu s) = some (
      if s.extractLsb' 0 16 = 0x0021 then .dfuDetach (argFields s)
      else if s.extractLsb' 0 16 = 0x0121 then .dfuDnload (argFields s)
      else if s.extractLsb' 0 16 = 0x02A1 then .dfuUpload (argFields s)
      else if s.extractLsb' 0 16 = 0x03A1 then .dfuGetstatus (argFields s)
      else if s.extractLsb' 0 16 = 0x0421 then .dfuClrstatus (argFields s)
      else if s.extractLsb' 0 16 = 0x05A1 then .dfuGetstate (argFields s)
      else if s.extractLsb' 0 16 = 0x0621 then .dfuAbort (argFields s)
      else .dfuReject (s.extractLsb' 0 8) (s.extractLsb' 8 8) (argFields s)) ∧
    decode RequestCodes.default (.setup8 .cdc s) = some (
      if s.extractLsb' 0 16 = 0x2021 then .cdcSetLineCoding (argFields s)
      else if s.extractLsb' 0 16 = 0x21A1 then .cdcGetLineCoding (argFields s)
      else if s.extractLsb' 0 16 = 0x2221 then .cdcSetControlLineState (argFields s)
      else .cdcReject (s.extractLsb' 0 8) (s.extractLsb' 8 8) (argFields s))

/-! ## Steps -/

/-- When MAIN is between handlers and it is its turn, a step takes the dispatcher's next item and runs the decoded
instruction; when a handler or a held command is in progress, MAIN's turn goes on with it (`drive`, stated in
`HandlerGaps`), with fuel left for at least one part; a step of another agent that is scheduled is taken instead
(spec/00_scope.md R6, R12). -/
def Obligations.StepRunsDecoded : Prop :=
  (∀ (s : State) (w : Encoded) (i : Instr) (items : List MainItem), s.running → s.main = [] →
    s.program = .issue w :: items → decode s.params.requestCodes w = some i →
    (s.sched = [] → step s = exec i { s with program := items }) ∧
    (∀ slots, s.sched = .main :: slots → step s = exec i { s with sched := slots, program := items })) ∧
  (∀ s : State, s.running → s.main ≠ [] →
    (s.sched = [] → ∃ fuel, 32 ≤ fuel ∧ step s = .next (drive fuel s)) ∧
    (∀ slots, s.sched = .main :: slots →
      ∃ fuel, 32 ≤ fuel ∧ step s = .next (drive fuel { s with sched := slots }))) ∧
  (∀ (s : State) (a : AgentStep) (slots : List Slot), s.running → s.sched = .agent a :: slots →
    step s = .next (agentStep a { s with sched := slots })) ∧
  (∀ (s : State) (nbits w : Nat) (i : Instr), s.running → s.params.requestCodes = RequestCodes.default →
    decodeTableWord nbits w = some i →
    step (s.withFetchWord nbits w) = exec i { s with main := [], handling := false })

/-- A request's handler is not atomic (spec/20_memory.md R69): while it is in progress and not at its end, a scheduled step
of another agent falls in the gap before its next command, and where MAIN is scheduled, or nobody is, it issues that
command; a held command leaves everything as it was. -/
def Obligations.HandlerGaps : Prop :=
  ∀ (s : State) (fuel : Nat), s.main ≠ [] → s.halted = false →
    (∀ a slots, s.sched = .agent a :: slots →
      drive (fuel + 1) s = drive fuel (agentStep a { s with sched := slots })) ∧
    (∀ slots t, s.sched = .main :: slots → mainStep { s with sched := slots } = some t →
      drive (fuel + 1) s = drive fuel t) ∧
    (∀ slots, s.sched = .main :: slots → mainStep { s with sched := slots } = none →
      drive (fuel + 1) s = drive fuel { s with sched := slots }) ∧
    (∀ t, s.sched = [] → mainStep s = some t → drive (fuel + 1) s = drive fuel t) ∧
    (s.sched = [] → mainStep s = none → drive (fuel + 1) s = s)

/-! ## The Endpoint FIFO Core -/

/-- R95: the code in 31:28, zero in 27:16, the data in 15:0, with the eight codes. -/
def Obligations.ResponseLayout : Prop :=
  (∀ (c : RespCode) (d : BitVec 16),
    (respWord c d).extractLsb' 28 4 =
      (match c with
        | .ok => 0 | .errEp => 1 | .errNocfg => 2 | .errFull => 3 | .errEmpty => 4 | .errArg => 5 | .errDir => 6
        | .errOp => 7) ∧
    (respWord c d).extractLsb' 16 12 = 0 ∧ (respWord c d).extractLsb' 0 16 = d)

/-- R268: a command word that matches no row is answered with `ERR_OP`, and nothing else changes. -/
def Obligations.ReservedWordRefused : Prop :=
  ∀ (s : State) (w : Word) (items : List MainItem), s.running → s.main = [] → s.sched = [] →
    s.program = .issue (.cmd32 w) :: items → (∀ r ∈ cmdRows, w &&& r.mask ≠ r.mtch) →
    step s = .next { s with program := items, resp := 0x70000000 }

/-- R121: `CONFIGURE e, type, dir, mps`, with the endpoint check before the argument check (R120). -/
def Obligations.Configure : Prop :=
  (∀ (c : RequestCodes) (w : Word), w &&& 0xF01FF800 = 0x20000000 →
    decode c (.cmd32 w) = some (.configure (epField w) (XferType.ofBits (w.extractLsb' 22 2))
      (Dir.ofBits (w.extractLsb' 21 1)) (w.extractLsb' 0 11))) ∧
  ∀ (e : EpNum) (ty : XferType) (dir : Dir) (mps : BitVec 11) (s : State), s.running →
    exec (.configure e ty dir mps) s = .next (
      if s.params.numEps ≤ e.val then { s with resp := respWord .errEp 0 }
      else if mps.toNat = 0 ∨ s.params.fifoCap < mps.toNat ∨ (e = 0 ∧ ty ≠ .ctrl) then
        { s with resp := respWord .errArg 0 }
      else
        { s with
          eps := s.eps.set e.val
            { s.ep e with q := [], xtype := ty, dir := dir, mps := mps, cfgValid := true, rxBuf := [], rxReady := false,
                          txReady := false, underrun := false, toggle := false, hwEn := true }
          pcb := { s.pcb with pending := s.pcb.pending &&& ~~~(1#16 <<< e.val) }
          resp := respWord .ok 0 })

/-- R122: `WRITE e, byte`; a full FIFO rejects the byte and the fault is recorded (R264). The premise on the length is part of
the invariant (R55 (a)). -/
def Obligations.Write : Prop :=
  (∀ (c : RequestCodes) (w : Word), w &&& 0xF0FFFF00 = 0x30000000 →
    decode c (.cmd32 w) = some (.write (epField w) (w.extractLsb' 0 8))) ∧
  ∀ (e : EpNum) (b : Byte) (s : State), s.running → (s.ep e).len ≤ s.params.fifoCap →
    exec (.write e b) s = .next (
      if s.params.numEps ≤ e.val then { s with resp := respWord .errEp 0 }
      else if (s.ep e).cfgValid = false then { s with resp := respWord .errNocfg 0 }
      else if (s.ep e).len = s.params.fifoCap then
        { s with
          faults := if (.fifoFull, e) ∈ s.faults then s.faults else s.faults ++ [(.fifoFull, e)]
          resp := respWord .errFull 0 }
      else
        { s with
          eps := s.eps.set e.val { s.ep e with q := (s.ep e).q ++ [b] }
          resp := respWord .ok 0 })

/-- R123: `READ e`; a read of an empty FIFO is recorded as a fault and answers with any data at all (R265). The model's count of
free values may change with it. -/
def Obligations.Read : Prop :=
  (∀ (c : RequestCodes) (w : Word), w &&& 0xF0FFFFFF = 0x40000000 → decode c (.cmd32 w) = some (.read (epField w))) ∧
  ∀ (e : EpNum) (s : State), s.running →
    (s.params.numEps ≤ e.val → exec (.read e) s = .next { s with resp := respWord .errEp 0 }) ∧
    (e.val < s.params.numEps → (s.ep e).cfgValid = false →
      exec (.read e) s = .next { s with resp := respWord .errNocfg 0 }) ∧
    (e.val < s.params.numEps → (s.ep e).cfgValid = true → (s.ep e).q = [] →
      ∃ d n, exec (.read e) s = .next
        { s with
          faults := if (.fifoEmpty, e) ∈ s.faults then s.faults else s.faults ++ [(.fifoEmpty, e)]
          resp := respWord .errEmpty d
          draws := n }) ∧
    (∀ b rest, e.val < s.params.numEps → (s.ep e).cfgValid = true → (s.ep e).q = b :: rest →
      exec (.read e) s = .next
        { s with eps := s.eps.set e.val { s.ep e with q := rest }, resp := respWord .ok (b.setWidth 16) })

/-- R124: `FLUSH e`: at most one packet; held while the last one has not been taken: then nothing changes but that MAIN has
the command still to do (log 9). -/
def Obligations.Flush : Prop :=
  (∀ (c : RequestCodes) (w : Word), w &&& 0xF0FFFFFF = 0x50000000 → decode c (.cmd32 w) = some (.flush (epField w))) ∧
  ∀ (e : EpNum) (s : State), s.running →
    exec (.flush e) s = .next (
      if s.params.numEps ≤ e.val then { s with resp := respWord .errEp 0 }
      else if (s.ep e).cfgValid = false then { s with resp := respWord .errNocfg 0 }
      else if (s.ep e).xtype ≠ .ctrl ∧ (s.ep e).dir = .out then { s with resp := respWord .errDir 0 }
      else if (s.ep e).txReady = true then { s with main := .flush e :: s.main }
      else
        { s with
          eps := s.eps.set e.val
            { s.ep e with txPkt := (s.ep e).q.take (min (s.ep e).len (s.ep e).mps.toNat),
                          q := (s.ep e).q.drop (min (s.ep e).len (s.ep e).mps.toNat),
                          underrun := false, txReady := true }
          resp := respWord .ok (BitVec.ofNat 16 (min (s.ep e).len (s.ep e).mps.toNat)) })

/-- R125: `DRAIN e`: as many bytes as fit, the flags when any moved, the receive-ready condition cleared when none is left. -/
def Obligations.Drain : Prop :=
  (∀ (c : RequestCodes) (w : Word), w &&& 0xF0FFFFFF = 0x60000000 → decode c (.cmd32 w) = some (.drain (epField w))) ∧
  ∀ (e : EpNum) (s : State) (k : Nat), s.running → k = min (s.ep e).rxBuf.length (s.params.fifoCap - (s.ep e).len) →
    exec (.drain e) s = .next (
      if s.params.numEps ≤ e.val then { s with resp := respWord .errEp 0 }
      else if (s.ep e).cfgValid = false then { s with resp := respWord .errNocfg 0 }
      else if (s.ep e).xtype ≠ .ctrl ∧ (s.ep e).dir = .inn then { s with resp := respWord .errDir 0 }
      else
        { s with
          eps := s.eps.set e.val
            { s.ep e with q := (s.ep e).q ++ (s.ep e).rxBuf.take k, rxBuf := (s.ep e).rxBuf.drop k,
                          rxReady := if (s.ep e).rxBuf.length ≤ k then false else (s.ep e).rxReady }
          pcb :=
            if k = 0 then s.pcb
            else { s.pcb with flags := s.pcb.flags ||| (if e = 0 then 0b010#3 else 0b100#3),
                              pending := s.pcb.pending ||| (1#16 <<< e.val) }
          resp := respWord .ok (BitVec.ofNat 16 k) })

/-- R126 and R127: `SET_STALL e` and `CLEAR_STALL e`, in every state of the endpoint (R137). -/
def Obligations.StallCommands : Prop :=
  (∀ (c : RequestCodes) (w : Word),
    (w &&& 0xF0FFFFFF = 0x70000000 → decode c (.cmd32 w) = some (.setStall (epField w))) ∧
    (w &&& 0xF0FFFFFF = 0x80000000 → decode c (.cmd32 w) = some (.clearStall (epField w)))) ∧
  ∀ (e : EpNum) (s : State), s.running →
    exec (.setStall e) s = .next (
      if s.params.numEps ≤ e.val then { s with resp := respWord .errEp 0 }
      else
        { s with
          eps := s.eps.set e.val { s.ep e with hwStall := true }
          pcb := { s.pcb with stall := s.pcb.stall ||| (1#16 <<< e.val) }
          resp := respWord .ok 0 }) ∧
    exec (.clearStall e) s = .next (
      if s.params.numEps ≤ e.val then { s with resp := respWord .errEp 0 }
      else
        { s with
          eps := s.eps.set e.val { s.ep e with hwStall := false, toggle := false }
          pcb := { s.pcb with stall := s.pcb.stall &&& ~~~(1#16 <<< e.val) }
          resp := respWord .ok 0 })

/-- R128: `ZLP_ACK`: an empty packet, the FIFO not read; held like `FLUSH` (log 9). -/
def Obligations.ZlpAck : Prop :=
  (∀ (c : RequestCodes) (w : Word), w &&& 0xFFFFFFFF = 0x90000000 → decode c (.cmd32 w) = some .zlpAck) ∧
  ∀ s : State, s.running →
    exec .zlpAck s = .next (
      if (s.ep 0).cfgValid = false then { s with resp := respWord .errNocfg 0 }
      else if (s.ep 0).txReady = true then { s with main := .zlpAck :: s.main }
      else
        { s with
          eps := s.eps.set 0 { s.ep 0 with txPkt := [], underrun := false, txReady := true }
          resp := respWord .ok 0 })

/-- R129, R130, R131: the atomic flag operations. -/
def Obligations.FlagCommands : Prop :=
  (∀ (c : RequestCodes) (w : Word),
    (w &&& 0xFFFFFFF8 = 0xA0000000 → decode c (.cmd32 w) = some (.flagSet (w.extractLsb' 0 3))) ∧
    (w &&& 0xFFFFFFF8 = 0xB0000000 → decode c (.cmd32 w) = some (.flagClr (w.extractLsb' 0 3))) ∧
    (w &&& 0xF0FFFFFF = 0xC0000000 → decode c (.cmd32 w) = some (.pendClr (epField w)))) ∧
  ∀ (mask : BitVec 3) (e : EpNum) (s : State), s.running →
    exec (.flagSet mask) s =
      .next { s with pcb := { s.pcb with flags := s.pcb.flags ||| mask }, resp := respWord .ok 0 } ∧
    exec (.flagClr mask) s =
      .next { s with pcb := { s.pcb with flags := s.pcb.flags &&& ~~~mask }, resp := respWord .ok 0 } ∧
    exec (.pendClr e) s = .next (
      if s.params.numEps ≤ e.val then { s with resp := respWord .errEp 0 }
      else
        { s with pcb := { s.pcb with pending := s.pcb.pending &&& ~~~(1#16 <<< e.val) }, resp := respWord .ok 0 })

/-- R132: `PCB_INIT`: every endpoint torn down, the PCB and the mask 0, the DFU controller, the Line Coding record, the flash
and the fault record kept; idempotent. (What the four fields hold that are unspecified then is not stated; log 3.) -/
def Obligations.PcbInit : Prop :=
  (∀ (c : RequestCodes) (w : Word), w &&& 0xFFFFFFFF = 0x10000000 → decode c (.cmd32 w) = some .pcbInit) ∧
  ∀ s : State, s.running → ∃ t, exec .pcbInit s = .next t ∧
    (∀ e : EpNum, e.val < s.params.numEps →
      (t.ep e).q = [] ∧ (t.ep e).cfgValid = false ∧ (t.ep e).hwEn = false ∧ (t.ep e).rxBuf = [] ∧
      (t.ep e).rxReady = false ∧ (t.ep e).txReady = false ∧ (t.ep e).underrun = false ∧ (t.ep e).hwStall = false ∧
      (t.ep e).toggle = false) ∧
    (∀ e : EpNum, s.params.numEps ≤ e.val → t.ep e = s.ep e) ∧
    t.resp = respWord .ok 0 ∧ t = { s with eps := t.eps, pcb := ⟨0, 0, 0⟩, ep0Masked := false, resp := t.resp } ∧
    exec .pcbInit t = .next t

/-- What a command leaves unchanged: R139, R277 and the "Flags written" of each rule. A command changes no endpoint but its
own, no flag, pending or stall bit but those its rule names, records a fault only where its rule raises one, and is either
done or held with nothing changed. -/
def Obligations.CommandFrames : Prop :=
  ∀ (i : Instr) (s t : State), i.isCommand = true → i ≠ .pcbInit → exec i s = .next t →
    CommandFrame s t ∧
    (∀ e : EpNum, i.writesEndpoint e = false → t.ep e = s.ep e) ∧
    (i.writesFlags = false → t.pcb.flags = s.pcb.flags) ∧
    (∀ e : EpNum, i.writesPending e = false → t.pcb.pendingBit e = s.pcb.pendingBit e) ∧
    (∀ e : EpNum, i.writesStall e = false → t.pcb.stallBit e = s.pcb.stallBit e) ∧
    (i.canFault = false → t.faults = s.faults ∧ t.draws = s.draws) ∧
    (t.main = s.main ∨ ∃ op, i.heldAs = some op ∧ t = { s with main := op :: s.main })

/-- R134: after every command `|ep[e].q| <= FIFO_CAP`, and only `WRITE` and `DRAIN` lengthen a FIFO. -/
def Obligations.Capacity : Prop :=
  ∀ (i : Instr) (s t : State) (e : EpNum), i.isCommand = true → exec i s = .next t →
    (s.ep e).len ≤ s.params.fifoCap →
    (t.ep e).len ≤ s.params.fifoCap ∧
    ((s.ep e).len < (t.ep e).len →
      (∃ b, i = .write e b ∧ (s.ep e).len < s.params.fifoCap ∧ (t.ep e).len = (s.ep e).len + 1) ∨
      (i = .drain e ∧ (t.ep e).len - (s.ep e).len ≤ s.params.fifoCap - (s.ep e).len))

/-- R133: bytes written are read back in the order written, after those that were queued before. -/
def Obligations.FifoOrder : Prop :=
  ∀ (e : EpNum) (s : State) (bs : List Byte), s.running → e.val < s.params.numEps → (s.ep e).cfgValid = true →
    (s.ep e).len + bs.length ≤ s.params.fifoCap →
    ∃ t, runAll (bs.map (Instr.write e) ++ List.replicate ((s.ep e).len + bs.length) (.read e)) s =
        some (List.replicate bs.length (respWord .ok 0) ++
          ((s.ep e).q ++ bs).map (fun b => respWord .ok (b.setWidth 16)), t) ∧
      (t.ep e).q = []

/-- R135: a FIFO of `L > 0` bytes is emptied by exactly `ceil(L / m)` `FLUSH` commands, the wire taking each packet; every
packet but the last has `m` bytes, the last the rest, and their concatenation is the FIFO's content. -/
def Obligations.MultiPacket : Prop :=
  ∀ (e : EpNum) (s : State) (m n : Nat), s.running → e.val < s.params.numEps → (s.ep e).cfgValid = true →
    ((s.ep e).xtype = .ctrl ∨ (s.ep e).dir = .inn) → (s.ep e).hwEn = true → (s.ep e).hwStall = false →
    (s.ep e).txReady = false → (s.ep e).q ≠ [] → m = (s.ep e).mps.toNat → 1 ≤ m → n = ((s.ep e).len + m - 1) / m →
    (∃ (packets : List (List Byte)) (t : State), flushTake e n s = some t ∧ (t.ep e).q = [] ∧
      t.events = s.events ++ packets.map (Event.hostReceives e) ∧
      packets.length = n ∧ packets.flatten = (s.ep e).q ∧
      (∀ i p, packets[i]? = some p → p.length = if i + 1 < n then m else (s.ep e).len - m * (n - 1))) ∧
    (∀ k < n, ∃ t, flushTake e k s = some t ∧ (t.ep e).q ≠ [])

/-! ## The wire, the interrupt context, reset -/

/-- R161: `WIRE RX e, bytes` under its enabling condition; when it is not enabled it cannot be taken. -/
def Obligations.WireReceive : Prop :=
  ∀ (e : EpNum) (bytes : List Byte) (s : State), s.running →
    agentStep (.wireRx e bytes) s =
      if e.val < s.params.numEps ∧ (s.ep e).hwEn = true ∧ (s.ep e).cfgValid = true ∧
          ((s.ep e).xtype = .ctrl ∨ (s.ep e).dir = .out) ∧ (s.ep e).hwStall = false ∧ (s.ep e).rxReady = false ∧
          bytes.length ≤ (s.ep e).mps.toNat then
        { s with
          eps := s.eps.set e.val { s.ep e with rxBuf := bytes, rxReady := true, toggle := !(s.ep e).toggle } }
      else s

/-- R162, R163, R164: `WIRE TAKE e`, `WIRE POLL_IN e`, `WIRE SEE_STALL e`; a stalled endpoint moves no data. -/
def Obligations.WireTransmit : Prop :=
  ∀ (e : EpNum) (s : State), s.running →
    agentStep (.wireTake e) s =
      (if e.val < s.params.numEps ∧ (s.ep e).hwEn = true ∧ (s.ep e).txReady = true ∧ (s.ep e).hwStall = false ∧
          ((s.ep e).xtype = .ctrl ∨ (s.ep e).dir = .inn) then
        { s with
          eps := s.eps.set e.val { s.ep e with txReady := false, toggle := !(s.ep e).toggle }
          events := s.events ++ [.hostReceives e (s.ep e).txPkt] }
      else s) ∧
    agentStep (.wirePollIn e) s =
      (if e.val < s.params.numEps ∧ (s.ep e).hwEn = true ∧ (s.ep e).txReady = false ∧ (s.ep e).hwStall = false ∧
          ((s.ep e).xtype = .ctrl ∨ (s.ep e).dir = .inn) then
        { s with eps := s.eps.set e.val { s.ep e with underrun := true } }
      else s) ∧
    agentStep (.wireSeeStall e) s =
      (if e.val < s.params.numEps ∧ (s.ep e).hwStall = true then { s with events := s.events ++ [.hostSeesStall e] }
      else s) ∧
    ((s.ep e).hwStall = true → ∀ bytes, agentStep (.wireTake e) s = s ∧ agentStep (.wirePollIn e) s = s ∧
      agentStep (.wireRx e bytes) s = s)

/-- R165: `WIRE SETUP bytes`: the setup packet releases endpoint 0 and abandons a packet left ready. (That "no class request
is being handled" is read from the field `handling` is the model's choice, log 23.) -/
def Obligations.WireSetup : Prop :=
  ∀ (bytes : List Byte) (s : State), s.running → 0 < s.params.numEps →
    agentStep (.wireSetup bytes) s =
      if (s.ep 0).hwEn = true ∧ (s.ep 0).cfgValid = true ∧ (s.ep 0).rxReady = false ∧ bytes.length = 8 ∧
          s.handling = false then
        { s with
          eps := s.eps.set 0
            { s.ep 0 with hwStall := false, txReady := false, rxBuf := bytes, rxReady := true,
                          toggle := !(s.ep 0).toggle }
          pcb := { s.pcb with stall := s.pcb.stall &&& ~~~1#16 } }
      else s

/-- R168, R169: `IRQ DRAIN e` is the command `DRAIN e` with the response discarded; endpoint 0 is masked while a data-stage
wait is in progress. -/
def Obligations.InterruptDrain : Prop :=
  ∀ (e : EpNum) (s : State), s.running → ∃ t, exec (.drain e) s = .next t ∧
    agentStep (.irqDrain e) s =
      if e.val < s.params.numEps ∧ (s.ep e).rxReady = true ∧ (s.ep e).cfgValid = true ∧
          ((s.ep e).xtype = .ctrl ∨ (s.ep e).dir = .out) ∧ ¬(e = 0 ∧ s.ep0Masked = true) then
        { t with resp := s.resp }
      else s

/-- R302: `RESET BUS` has exactly the state change of `PCB_INIT`, with no response: the DFU controller, the Line Coding record,
the flash and the fault record are kept. It cannot be taken once the boot jump has been made. -/
def Obligations.BusReset : Prop :=
  (∀ s : State, s.running → ∃ t, exec .pcbInit s = .next t ∧ agentStep .resetBus s = { t with resp := s.resp } ∧
    t.pcb = ⟨0, 0, 0⟩ ∧ t.ep0Masked = false ∧ (∀ e : EpNum, e.val < s.params.numEps → (t.ep e).cfgValid = false) ∧
    t.dfu = s.dfu ∧ t.lineCoding = s.lineCoding ∧ t.flash = s.flash ∧ t.faults = s.faults) ∧
  (∀ s : State, s.dfu.booted = true → agentStep .resetBus s = s)

/-- R275: after `HALT` no agent has a step and no state changes: every step and every instruction stops. -/
def Obligations.Halt : Prop :=
  (∀ s : State, s.running → agentStep .halt s = { s with halted := true }) ∧
  (∀ s : State, s.halted = true → step s = .fault .hardStop ∧ (∀ i : Instr, exec i s = .fault .hardStop) ∧
    ∀ a : AgentStep, agentStep a s = s)

/-- spec/20_memory.md R74, spec/60_exceptions.md R282: the other agents leave MAIN's own state alone, and the wire touches
only wire-side fields and the stall bit of endpoint 0. -/
def Obligations.AgentFrames : Prop :=
  ∀ (a : AgentStep) (s : State),
    (agentStep a s).params = s.params ∧ (agentStep a s).dfu = s.dfu ∧ (agentStep a s).lineCoding = s.lineCoding ∧
    (∀ x, Memory.readByte x (agentStep a s).flash = Memory.readByte x s.flash) ∧
    (agentStep a s).faults = s.faults ∧ (agentStep a s).main = s.main ∧ (agentStep a s).rdata = s.rdata ∧
    ((∀ e, a ≠ .irqDrain e) → a ≠ .resetBus → ∀ e : EpNum,
      ((agentStep a s).ep e).q = (s.ep e).q ∧ ((agentStep a s).ep e).cfgValid = (s.ep e).cfgValid ∧
      ((agentStep a s).ep e).xtype = (s.ep e).xtype ∧ ((agentStep a s).ep e).dir = (s.ep e).dir ∧
      ((agentStep a s).ep e).mps = (s.ep e).mps ∧ ((agentStep a s).ep e).hwEn = (s.ep e).hwEn ∧
      (agentStep a s).pcb.flags = s.pcb.flags ∧ (agentStep a s).pcb.pending = s.pcb.pending ∧
      (e ≠ 0 → (agentStep a s).pcb.stallBit e = s.pcb.stallBit e))

/-! ## Class requests -/

/-- R189: the expansion of one request. The setup packet, its drain, the eight reads and the two clearing commands leave the
state in which the driver is called: the FIFO empty, nothing received, no stall, no packet ready, the two flags clear, the
toggle turned once, and the request next. (The program and the schedule that say so are the model's own, logs 6 and 7.) -/
def Obligations.RequestExpansion : Prop :=
  ∀ (s : State) (d : Driver) (w : BitVec 64) (items : List MainItem), s.running → s.main = [] → s.handling = false →
    s.sched = hostReqSlots w → s.program = hostReqItems d w ++ items → 0 < s.params.numEps → 8 ≤ s.params.fifoCap →
    (s.ep 0).hwEn = true → (s.ep 0).cfgValid = true → (s.ep 0).xtype = .ctrl → (s.ep 0).rxReady = false →
    (s.ep 0).q = [] → s.ep0Masked = false →
    stepN 12 s = some
      { s with
        eps := s.eps.set 0
          { s.ep 0 with rxBuf := [], rxReady := false, toggle := !(s.ep 0).toggle, hwStall := false, txReady := false }
        pcb := ⟨s.pcb.flags &&& ~~~0b010#3, s.pcb.pending &&& ~~~1#16, s.pcb.stall &&& ~~~1#16⟩
        resp := respWord .ok 0, sched := [], program := .issue (.setup8 d w) :: items }

/-- R186, R269: the requests that are always rejected, and the pairs of state or length and request that are: endpoint 0 is
stalled, and nothing else changes (R200, R215, R220, R224, R225, R227, R228, spec/43_cdc_client.md R198). -/
def Obligations.RejectedRequests : Prop :=
  ∀ (s t : State), s.running →
    t = { s with
          eps := s.eps.set 0 { s.ep 0 with hwStall := true }
          pcb := { s.pcb with stall := s.pcb.stall ||| 1#16 }
          resp := respWord .ok 0 } →
    ∀ (r : ReqArgs) (bm br : Byte),
      exec (.dfuUpload r) s = .next t ∧ exec (.dfuDetach r) s = .next t ∧ exec (.dfuReject bm br r) s = .next t ∧
      exec (.cdcReject bm br r) s = .next t ∧
      (s.dfu.bState ≠ .dfuIDLE → s.dfu.bState ≠ .dfuDNLOAD_IDLE → exec (.dfuDnload r) s = .next t) ∧
      (r.wLength.toNat % 4 ≠ 0 ∨ s.params.fifoCap < r.wLength.toNat → r.wLength.toNat ≠ 0 →
        exec (.dfuDnload r) s = .next t) ∧
      (s.dfu.bState ≠ .dfuERROR → exec (.dfuClrstatus r) s = .next t) ∧
      (r.wLength.toNat ≠ 7 ∨ s.params.fifoCap < 7 → exec (.cdcSetLineCoding r) s = .next t)

/-- R199: `SET_CONTROL_LINE_STATE` is acknowledged with a zero-length packet, and nothing is stored. (That the handler's
collected bytes are empty afterwards is the model's own bookkeeping, log 6.) -/
def Obligations.ControlLineState : Prop :=
  ∀ (r : ReqArgs) (s : State), s.readyForRequest →
    exec (.cdcSetControlLineState r) s = .next
      { s with
        eps := s.eps.set 0 { s.ep 0 with txPkt := [], underrun := false, txReady := true }
        resp := respWord .ok 0, rdata := [], handling := false }

/-- R225, R226, R231: `DFU_CLRSTATUS` in `dfuERROR` and `DFU_ABORT` in every state return to `dfuIDLE` with status OK, and
reset the block buffer's logical state, but not its words. -/
def Obligations.AbortAndClearStatus : Prop :=
  ∀ (r : ReqArgs) (s t : State), s.readyForRequest →
    t = { s with
          eps := s.eps.set 0 { s.ep 0 with txPkt := [], underrun := false, txReady := true }
          dfu := { s.dfu with bState := .dfuIDLE, bStatus := .ok, cursor := 0, flushPending := false,
                              targetAddr := s.params.flashBase }
          resp := respWord .ok 0, rdata := [], handling := false } →
    exec (.dfuAbort r) s = .next t ∧ (s.dfu.bState = .dfuERROR → exec (.dfuClrstatus r) s = .next t)

/-- R219: `DFU_DNLOAD` of length 0 is acknowledged; in `dfuIDLE` it is the error `errNOTDONE`, in `dfuDNLOAD_IDLE` the end of
the image. -/
def Obligations.DnloadZeroLength : Prop :=
  ∀ (r : ReqArgs) (s t : State), s.readyForRequest → r.wLength = 0 →
    t = { s with
          eps := s.eps.set 0 { s.ep 0 with txPkt := [], underrun := false, txReady := true }
          resp := respWord .ok 0, rdata := [], handling := false } →
    (s.dfu.bState = .dfuIDLE → exec (.dfuDnload r) s = .next
      { t with dfu := { s.dfu with bState := .dfuERROR, bStatus := .errNOTDONE } }) ∧
    (s.dfu.bState = .dfuDNLOAD_IDLE → exec (.dfuDnload r) s = .next
      { t with dfu := { s.dfu with bState := .dfuMANIFEST_SYNC } })

/-- An acknowledgement is held while an earlier packet of endpoint 0 has not been taken (spec/42_control_sequencer.md R183,
spec/70_reset_and_hazards.md R312): no field of the block changes, and what the request still has to do stays in progress. -/
def Obligations.HeldAcknowledgement : Prop :=
  ∀ (r : ReqArgs) (s : State), s.quiet → (s.ep 0).cfgValid = true → (s.ep 0).txReady = true →
    exec (.cdcSetControlLineState r) s = .next { s with main := [.zlpAck], rdata := [], handling := true } ∧
    exec (.dfuAbort r) s = .next { s with main := [.zlpAck, .abortEnd], rdata := [], handling := true } ∧
    (s.dfu.bState = .dfuERROR → exec (.dfuClrstatus r) s = .next
      { s with main := [.zlpAck, .clrstatusEnd], rdata := [], handling := true }) ∧
    (s.dfu.bState = .dfuIDLE ∨ s.dfu.bState = .dfuDNLOAD_IDLE → r.wLength = 0 → exec (.dfuDnload r) s = .next
      { s with main := [.zlpAck, .dnloadEnd], rdata := [], handling := true })

/-- A held command completes at MAIN's next turn once the host has taken the packet in the way (spec/00_scope.md R13,
spec/40_fifo_core.md R124, R128, spec/41_wire_side.md R162), with exactly its own effect; and so do the acknowledgement
that was held and the rest of its request. (How what is held is kept is the model's choice, log 9.) -/
def Obligations.HeldCompletes : Prop :=
  (∀ (e : EpNum) (s : State), s.running → s.sched = [] → e.val < s.params.numEps → (s.ep e).cfgValid = true →
    ((s.ep e).xtype = .ctrl ∨ (s.ep e).dir = .inn) → (s.ep e).hwEn = true → (s.ep e).hwStall = false →
    (s.ep e).txReady = true →
    (s.main = [.flush e] → step (agentStep (.wireTake e) s) = .next
      { s with
        eps := s.eps.set e.val
          { s.ep e with toggle := !(s.ep e).toggle, txPkt := (s.ep e).q.take (s.ep e).mps.toNat,
                        q := (s.ep e).q.drop (s.ep e).mps.toNat, underrun := false }
        events := s.events ++ [.hostReceives e (s.ep e).txPkt]
        resp := respWord .ok (BitVec.ofNat 16 (min (s.ep e).len (s.ep e).mps.toNat)), main := [], handling := false }) ∧
    (e = 0 → s.main = [.zlpAck] → step (agentStep (.wireTake 0) s) = .next
      { s with
        eps := s.eps.set 0 { s.ep 0 with toggle := !(s.ep 0).toggle, txPkt := [], underrun := false }
        events := s.events ++ [.hostReceives 0 (s.ep 0).txPkt]
        resp := respWord .ok 0, main := [], handling := false })) ∧
  (∀ (r : ReqArgs) (s t : State), s.quiet → 0 < s.params.numEps → (s.ep 0).cfgValid = true → (s.ep 0).xtype = .ctrl →
    (s.ep 0).hwEn = true → (s.ep 0).hwStall = false → (s.ep 0).txReady = true →
    t = { s with
      eps := s.eps.set 0 { s.ep 0 with toggle := !(s.ep 0).toggle, txPkt := [], underrun := false }
      events := s.events ++ [.hostReceives 0 (s.ep 0).txPkt]
      resp := respWord .ok 0, rdata := [], handling := false } →
    (∃ u, exec (.cdcSetControlLineState r) s = .next u ∧ step (agentStep (.wireTake 0) u) = .next t) ∧
    (∃ u, exec (.dfuAbort r) s = .next u ∧ step (agentStep (.wireTake 0) u) = .next
      { t with dfu := { s.dfu with bState := .dfuIDLE, bStatus := .ok, cursor := 0, flushPending := false,
                                   targetAddr := s.params.flashBase } }) ∧
    (s.dfu.bState = .dfuERROR → ∃ u, exec (.dfuClrstatus r) s = .next u ∧
      step (agentStep (.wireTake 0) u) = .next
        { t with dfu := { s.dfu with bState := .dfuIDLE, bStatus := .ok, cursor := 0, flushPending := false,
                                     targetAddr := s.params.flashBase } }) ∧
    (s.dfu.bState = .dfuIDLE → r.wLength = 0 → ∃ u, exec (.dfuDnload r) s = .next u ∧
      step (agentStep (.wireTake 0) u) = .next
        { t with dfu := { s.dfu with bState := .dfuERROR, bStatus := .errNOTDONE } }) ∧
    (s.dfu.bState = .dfuDNLOAD_IDLE → r.wLength = 0 → ∃ u, exec (.dfuDnload r) s = .next u ∧
      step (agentStep (.wireTake 0) u) = .next { t with dfu := { s.dfu with bState := .dfuMANIFEST_SYNC } }))

/-- R185: one packet for each time the host has taken the one before, until the FIFO is empty; then the request is finished.
So the seven bytes of a Line Coding response on an endpoint with small packets reach the host in two. (That what is still
to be sent waits in `main` is the model's choice, log 9.) -/
def Obligations.ResponsePackets : Prop :=
  (∀ s : State, s.running → s.sched = [] → s.main = [.flush 0, .sendLoop] → 0 < s.params.numEps →
    (s.ep 0).cfgValid = true → (s.ep 0).xtype = .ctrl → (s.ep 0).hwEn = true → (s.ep 0).hwStall = false →
    (s.ep 0).txReady = true →
    ∃ t, step (agentStep (.wireTake 0) s) = .next t ∧
      t.ep 0 = { s.ep 0 with toggle := !(s.ep 0).toggle, txPkt := (s.ep 0).q.take (s.ep 0).mps.toNat,
                             q := (s.ep 0).q.drop (s.ep 0).mps.toNat, underrun := false } ∧
      OnlyEndpoint 0 s t ∧
      t.main = (if (s.ep 0).len ≤ (s.ep 0).mps.toNat then [] else [.flush 0, .sendLoop]) ∧
      t = { s with
        eps := t.eps, main := t.main, handling := s.handling && !t.main.isEmpty
        events := s.events ++ [.hostReceives 0 (s.ep 0).txPkt]
        resp := respWord .ok (BitVec.ofNat 16 (min (s.ep 0).len (s.ep 0).mps.toNat)) }) ∧
  (∀ (r : ReqArgs) (s : State) (bytes : List Byte), s.readyForRequest → (s.ep 0).hwEn = true →
    (s.ep 0).hwStall = false → (s.ep 0).q = [] → 7 ≤ s.params.fifoCap → 4 ≤ (s.ep 0).mps.toNat →
    (s.ep 0).mps.toNat < 7 → bytes = lineCodingBytes s.lineCoding →
    ∃ t u, exec (.cdcGetLineCoding r) s = .next t ∧ step (agentStep (.wireTake 0) t) = .next u ∧ u.main = [] ∧
      (agentStep (.wireTake 0) u).events = s.events ++
        [.hostReceives 0 (bytes.take (s.ep 0).mps.toNat), .hostReceives 0 (bytes.drop (s.ep 0).mps.toNat)])

/-- R215, R216, R217 and spec/20_memory.md R63: `DFU_DNLOAD` whose data stage has arrived and fits the block buffer. Word
`i` of the payload, little-endian, lies at the cursor plus `i`, every other word is kept, the cursor advances, and a full
block resets it and requests a flush; the flash is not touched. -/
def Obligations.DnloadBuffers : Prop :=
  ∀ (r : ReqArgs) (s : State) (n : Nat), s.readyForRequest →
    (s.dfu.bState = .dfuIDLE ∨ s.dfu.bState = .dfuDNLOAD_IDLE) → 1 ≤ n → r.wLength.toNat = 4 * n →
    4 * n ≤ s.params.fifoCap → 4 * n ≤ (s.ep 0).len → s.dfu.cursor + n ≤ s.params.blockWords →
    s.dfu.blk.length = s.params.blockWords →
    ∃ t, exec (.dfuDnload r) s = .next t ∧ QuietFrame s t ∧ Received (4 * n) s t ∧ t.lineCoding = s.lineCoding ∧
      t.dfu = { s.dfu with
        bState := .dfuDNLOAD_SYNC, blk := t.dfu.blk
        cursor := if s.dfu.cursor + n = s.params.blockWords then 0 else s.dfu.cursor + n
        flushPending := if s.dfu.cursor + n = s.params.blockWords then true else s.dfu.flushPending } ∧
      (∀ i b0 b1 b2 b3, i < n → (s.ep 0).q[4 * i]? = some b0 → (s.ep 0).q[4 * i + 1]? = some b1 →
        (s.ep 0).q[4 * i + 2]? = some b2 → (s.ep 0).q[4 * i + 3]? = some b3 →
        t.dfu.blk[s.dfu.cursor + i]? = some (b3 ++ b2 ++ b1 ++ b0)) ∧
      (∀ j, j < s.dfu.cursor ∨ s.dfu.cursor + n ≤ j → t.dfu.blk[j]? = s.dfu.blk[j]?)

/-- R218: a payload that does not fit the rest of the block is read and discarded, nothing is copied, and the state is
`dfuERROR` with `errINTERNAL`. -/
def Obligations.DnloadOverrun : Prop :=
  ∀ (r : ReqArgs) (s : State) (n : Nat), s.readyForRequest →
    (s.dfu.bState = .dfuIDLE ∨ s.dfu.bState = .dfuDNLOAD_IDLE) → 1 ≤ n → r.wLength.toNat = 4 * n →
    4 * n ≤ s.params.fifoCap → 4 * n ≤ (s.ep 0).len → s.params.blockWords < s.dfu.cursor + n →
    ∃ t, exec (.dfuDnload r) s = .next t ∧ QuietFrame s t ∧ Received (4 * n) s t ∧ t.lineCoding = s.lineCoding ∧
      t.dfu = { s.dfu with bState := .dfuERROR, bStatus := .errINTERNAL }

/-- R182, R169: the data-stage wait drains for itself while endpoint 0 is masked. The data stage arrives after the wait has
begun, in any number of packets, with any number of polls that find nothing new before each and any interrupt requests,
which are masked; the last packet arrives before the last poll the bound allows. It is received whole, and the request
ends as if the bytes had been there before. (Which steps fall in the gaps is given by the schedule, log 7.) -/
def Obligations.DataStageArrives : Prop :=
  ∀ (r : ReqArgs) (s : State) (rounds : List WaitRound) (lastRound : WaitRound) (last : List Byte)
    (ps : List (List Byte)), s.awaitsData → s.sched = .main :: (rounds ++ [lastRound]).flatMap WaitRound.slots →
    ps = arrivals (rounds ++ [lastRound]) → lastRound.packet = some last → last ≠ [] →
    (∀ p ∈ ps, p.length ≤ (s.ep 0).mps.toNat) → ps.flatten.length = r.wLength.toNat →
    r.wLength.toNat ≤ s.params.fifoCap → (∀ bound, s.params.waitBound = some bound → rounds.length + 1 ≤ bound) →
    (∀ n, (s.dfu.bState = .dfuIDLE ∨ s.dfu.bState = .dfuDNLOAD_IDLE) → r.wLength.toNat = 4 * n →
      s.dfu.cursor + n ≤ s.params.blockWords → s.dfu.blk.length = s.params.blockWords →
      ∃ t, exec (.dfuDnload r) s = .next t ∧ ReceivedDuringWait ps s t ∧ t.lineCoding = s.lineCoding ∧
        t.dfu = { s.dfu with
          bState := .dfuDNLOAD_SYNC, blk := t.dfu.blk
          cursor := if s.dfu.cursor + n = s.params.blockWords then 0 else s.dfu.cursor + n
          flushPending := if s.dfu.cursor + n = s.params.blockWords then true else s.dfu.flushPending } ∧
        (∀ i b0 b1 b2 b3, i < n → ps.flatten[4 * i]? = some b0 → ps.flatten[4 * i + 1]? = some b1 →
          ps.flatten[4 * i + 2]? = some b2 → ps.flatten[4 * i + 3]? = some b3 →
          t.dfu.blk[s.dfu.cursor + i]? = some (b3 ++ b2 ++ b1 ++ b0)) ∧
        (∀ j, j < s.dfu.cursor ∨ s.dfu.cursor + n ≤ j → t.dfu.blk[j]? = s.dfu.blk[j]?)) ∧
    (∀ b0 b1 b2 b3 b4 b5 b6, ps.flatten = [b0, b1, b2, b3, b4, b5, b6] →
      ∃ t, exec (.cdcSetLineCoding r) s = .next t ∧ ReceivedDuringWait ps s t ∧ t.dfu = s.dfu ∧
        t.lineCoding = ⟨b0, b1, b2, b3, b4, b5, b6⟩)

/-- R182, R188, R270: the wait counts its polls from 0; with the payload not there it polls once more, by one `DRAIN 0`, while
fewer than `WAIT_BOUND` polls have been made, and times out when exactly `WAIT_BOUND` have: endpoint 0 is stalled, its
FIFO emptied, its two flags cleared, the mask lifted, and the handler ends with none of its own state changed. So a
request whose data stage never comes ends so. -/
def Obligations.DataStageTimeout : Prop :=
  (∀ (s : State) (len : Nat) (rest : List MainOp), s.main = .waitEnter len :: rest →
    mainStep s = some { s with ep0Masked := true, main := .waitLoop len 0 :: rest }) ∧
  (∀ (s t : State) (len polls : Nat) (rest : List MainOp), s.running → s.main = .waitLoop len polls :: rest →
    (s.ep 0).len < len → s.params.waitBound ≠ some polls → exec (.drain 0) s = .next t →
    mainStep s = some { t with main := .waitLoop len (polls + 1) :: rest }) ∧
  (∀ (s : State) (len polls : Nat) (rest : List MainOp), s.main = .waitLoop len polls :: rest →
    (s.ep 0).len < len → s.params.waitBound = some polls →
    mainStep s = some
      { s with
        eps := s.eps.set 0 { s.ep 0 with hwStall := true, q := [] }
        pcb := ⟨s.pcb.flags &&& ~~~0b010#3, s.pcb.pending &&& ~~~1#16, s.pcb.stall ||| 1#16⟩
        resp := respWord .ok 0, ep0Masked := false, main := [], handling := false }) ∧
  ∀ (r : ReqArgs) (s : State) (bound : Nat), s.readyForRequest → (s.ep 0).xtype = .ctrl →
    s.params.waitBound = some bound → (s.ep 0).len + (s.ep 0).rxBuf.length < r.wLength.toNat →
    r.wLength.toNat ≤ s.params.fifoCap →
    ((s.dfu.bState = .dfuIDLE ∨ s.dfu.bState = .dfuDNLOAD_IDLE) → r.wLength.toNat % 4 = 0 →
      ∃ t, exec (.dfuDnload r) s = .next t ∧ QuietFrame s t ∧ t.dfu = s.dfu ∧ t.lineCoding = s.lineCoding ∧
        (t.ep 0).hwStall = true ∧ (t.ep 0).q = [] ∧ (t.ep 0).txReady = false ∧ t.ep0Masked = false ∧ t.main = [] ∧
        t.pcb = ⟨s.pcb.flags &&& ~~~0b010#3, s.pcb.pending &&& ~~~1#16, s.pcb.stall ||| 1#16⟩) ∧
    (r.wLength.toNat = 7 →
      ∃ t, exec (.cdcSetLineCoding r) s = .next t ∧ QuietFrame s t ∧ t.dfu = s.dfu ∧ t.lineCoding = s.lineCoding ∧
        (t.ep 0).hwStall = true ∧ (t.ep 0).q = [] ∧ (t.ep 0).txReady = false ∧ t.ep0Masked = false ∧ t.main = [] ∧
        t.pcb = ⟨s.pcb.flags &&& ~~~0b010#3, s.pcb.pending &&& ~~~1#16, s.pcb.stall ||| 1#16⟩)

/-- R221, R222, R229, R230: `DFU_GETSTATUS` with no flush pending: the state's next state, then the six bytes of the response
with the state after the transition. The two premises on constants are part of the invariant (R55 (j), R222). (That a
second packet that is held waits in `main` is the model's choice, log 9.) -/
def Obligations.GetstatusReports : Prop :=
  ∀ (r : ReqArgs) (s : State) (next : DfuState), s.readyForRequest → s.dfu.flushPending = false →
    s.dfu.bState ≠ .dfuMANIFEST → s.dfu.bState ≠ .dfuMANIFEST_WAIT_RESET →
    s.dfu.pollTimeout = s.params.pollTimeout → s.dfu.iString = 0 → (s.ep 0).len + 6 ≤ s.params.fifoCap →
    next = (match s.dfu.bState with
      | .dfuDNLOAD_SYNC => .dfuDNLOAD_IDLE
      | .dfuDNBUSY => .dfuDNLOAD_SYNC
      | .dfuMANIFEST_SYNC => .dfuMANIFEST
      | b => b) →
    ∃ t, exec (.dfuGetstatus r) s = .next t ∧ QuietFrame s t ∧ t.lineCoding = s.lineCoding ∧
      t.dfu = { s.dfu with bState := next } ∧
      Sent [s.params.statusCode s.dfu.bStatus, s.params.pollTimeout.extractLsb' 0 8,
        s.params.pollTimeout.extractLsb' 8 8, s.params.pollTimeout.extractLsb' 16 8, s.params.stateCode next, 0] s t

/-- R221, R232, R233, R235: `DFU_GETSTATUS` with a flush pending, whatever the flash controller answers: it completes, the
target address advances by one block, the pending flag clears, no byte of the flash outside the target block changes, and the
response carries the status and the state after the flush: `dfuDNBUSY`, or `dfuERROR` with the error. A flush whose target
address would reach 2^32 is refused. (That the whole GETSTATUS is refused then, before any of its effects, where the answers
come from, and that a second packet that is held waits in `main`, are the model's choices: logs 15, 13 and 9.) -/
def Obligations.GetstatusFlushes : Prop :=
  ∀ (r : ReqArgs) (s : State), s.running → s.dfu.flushPending = true →
    (2 ^ 32 ≤ s.dfu.targetAddr.toNat + 4 * s.params.blockWords →
      exec (.dfuGetstatus r) s = .refused .targetAddressOverflow) ∧
    (s.dfu.targetAddr.toNat + 4 * s.params.blockWords < 2 ^ 32 → s.readyForRequest → s.dfu.bState = .dfuDNLOAD_SYNC →
      s.dfu.blk.length = s.params.blockWords → s.dfu.pollTimeout = s.params.pollTimeout → s.dfu.iString = 0 →
      (s.ep 0).len + 6 ≤ s.params.fifoCap →
      ∃ t, exec (.dfuGetstatus r) s = .next t ∧ RequestFrame s t ∧ t.lineCoding = s.lineCoding ∧ t.events = s.events ∧
        t.faults = s.faults ∧
        t.dfu = { s.dfu with
          bState := t.dfu.bState, bStatus := t.dfu.bStatus, flushPending := false
          targetAddr := s.dfu.targetAddr + BitVec.ofNat 32 (4 * s.params.blockWords) } ∧
        ((t.dfu.bState = .dfuDNBUSY ∧ t.dfu.bStatus = s.dfu.bStatus) ∨
          (t.dfu.bState = .dfuERROR ∧ (t.dfu.bStatus = .errERASE ∨ t.dfu.bStatus = .errVERIFY))) ∧
        (∀ a, a < s.dfu.targetAddr.toNat ∨ s.dfu.targetAddr.toNat + 4 * s.params.blockWords ≤ a →
          Memory.readByte a t.flash = Memory.readByte a s.flash) ∧
        Sent [s.params.statusCode t.dfu.bStatus, s.params.pollTimeout.extractLsb' 0 8,
          s.params.pollTimeout.extractLsb' 8 8, s.params.pollTimeout.extractLsb' 16 8,
          s.params.stateCode t.dfu.bState, 0] s t)

/-- R232, R233, R236, R237, R272, R273: what a flush leaves for each answer of the flash controller. Both primitives succeed:
word `k` of the block buffer lies at the target address plus `4k`, as bytes, the least significant first (that order is the
model's choice, log 5: R64 says the flash has none that the block could observe). The write fails: `errVERIFY`. The erase
fails: `errERASE`, and the write is not called. (The answers are given in advance in the model's own field, log 13.) -/
def Obligations.FlushOutcomes : Prop :=
  ∀ (r : ReqArgs) (s t : State), s.readyForRequest → s.dfu.flushPending = true → s.dfu.bState = .dfuDNLOAD_SYNC →
    s.dfu.blk.length = s.params.blockWords → exec (.dfuGetstatus r) s = .next t →
    (∀ answers, s.flashAnswers = true :: true :: answers →
      t.flashAnswers = answers ∧ t.dfu.bState = .dfuDNBUSY ∧ t.dfu.bStatus = s.dfu.bStatus ∧
      ∀ k w j, s.dfu.blk[k]? = some w → j < 4 →
        Memory.readByte (s.dfu.targetAddr.toNat + 4 * k + j) t.flash = some (w.extractLsb' (8 * j) 8)) ∧
    (∀ answers, s.flashAnswers = true :: false :: answers →
      t.flashAnswers = answers ∧ t.dfu.bState = .dfuERROR ∧ t.dfu.bStatus = .errVERIFY) ∧
    (∀ answers, s.flashAnswers = false :: answers →
      t.flashAnswers = answers ∧ t.dfu.bState = .dfuERROR ∧ t.dfu.bStatus = .errERASE)

/-- R234: the GETSTATUS that leaves `dfuMANIFEST` makes the boot jump and sends no response; after it nothing changes any
more (R321), whatever is presented. -/
def Obligations.BootJump : Prop :=
  (∀ (r : ReqArgs) (s : State), s.running → s.dfu.bState = .dfuMANIFEST → s.dfu.flushPending = false →
    exec (.dfuGetstatus r) s = .next
      { s with
        dfu := { s.dfu with bState := .dfuMANIFEST_WAIT_RESET, booted := true }
        events := s.events ++ [.bootJump s.params.flashBase] }) ∧
  (∀ s : State, s.halted = false → s.dfu.booted = true →
    step s = .next s ∧ (∀ i : Instr, exec i s = .next s) ∧ ∀ a : AgentStep, agentStep a s = s)

/-- R223, R101: `DFU_GETSTATE` answers the one byte of the state; no transition, and no flush even when one is pending. -/
def Obligations.Getstate : Prop :=
  ∀ (r : ReqArgs) (s : State), s.readyForRequest → (s.ep 0).len < s.params.fifoCap →
    ∃ t, exec (.dfuGetstate r) s = .next t ∧ QuietFrame s t ∧ t.dfu = s.dfu ∧ t.lineCoding = s.lineCoding ∧
      Sent [s.params.stateCode s.dfu.bState] s t

/-- R197: `GET_LINE_CODING` sends the 7 bytes of the record, whatever `wLength` says. -/
def Obligations.GetLineCoding : Prop :=
  ∀ (r : ReqArgs) (s : State), s.readyForRequest → (s.ep 0).len + 7 ≤ s.params.fifoCap →
    ∃ t, exec (.cdcGetLineCoding r) s = .next t ∧ QuietFrame s t ∧ t.dfu = s.dfu ∧ t.lineCoding = s.lineCoding ∧
      Sent [s.lineCoding.rate0, s.lineCoding.rate1, s.lineCoding.rate2, s.lineCoding.rate3, s.lineCoding.stopBits,
        s.lineCoding.parity, s.lineCoding.dataBits] s t

/-- R198: `SET_LINE_CODING` whose data stage has arrived stores its seven bytes unchecked. -/
def Obligations.SetLineCoding : Prop :=
  ∀ (r : ReqArgs) (s : State) (b0 b1 b2 b3 b4 b5 b6 : Byte) (rest : List Byte), s.readyForRequest → r.wLength = 7 →
    7 ≤ s.params.fifoCap → (s.ep 0).q = b0 :: b1 :: b2 :: b3 :: b4 :: b5 :: b6 :: rest →
    ∃ t, exec (.cdcSetLineCoding r) s = .next t ∧ QuietFrame s t ∧ t.dfu = s.dfu ∧ Received 7 s t ∧
      t.lineCoding = ⟨b0, b1, b2, b3, b4, b5, b6⟩

/-- R204 (a): GET_LINE_CODING after a SET_LINE_CODING with 7 specific bytes, the host having taken the acknowledgement between
the two, returns exactly those 7 bytes. -/
def Obligations.LineCodingRoundTrip : Prop :=
  ∀ (r r' : ReqArgs) (s : State) (data : List Byte), s.readyForRequest → r.wLength = 7 → 7 ≤ s.params.fifoCap →
    7 ≤ (s.ep 0).mps.toNat → (s.ep 0).hwEn = true → (s.ep 0).hwStall = false → (s.ep 0).xtype = .ctrl →
    data.length = 7 → (s.ep 0).q = data →
    ∃ t u, exec (.cdcSetLineCoding r) s = .next t ∧
      exec (.cdcGetLineCoding r') (agentStep (.wireTake 0) t) = .next u ∧
      (agentStep (.wireTake 0) u).events = s.events ++ [.hostReceives 0 [], .hostReceives 0 data]

/-- R201, R204 (b): `PUTCHAR c` does nothing on a device that is not enumerated; on one that is, it writes the character, a CR
after an LF, and flushes once. -/
def Obligations.Putchar : Prop :=
  ∀ (c : Byte) (s : State) (items : List MainItem), s.quiet → s.program = .putchar c :: items →
    (s.pcb.enumerated = false → step s = .next { s with program := items }) ∧
    (∀ (e : EpNum) (out : List Byte), s.pcb.enumerated = true → e = s.params.epCdcIn → e.val < s.params.numEps →
      (s.ep e).cfgValid = true → ((s.ep e).xtype = .ctrl ∨ (s.ep e).dir = .inn) → (s.ep e).txReady = false →
      (s.ep e).len + 2 ≤ s.params.fifoCap → out = (s.ep e).q ++ (if c = 0x0A then [c, 0x0D] else [c]) →
      step s = .next
        { s with
          program := items, rdata := [], handling := false
          eps := s.eps.set e.val
            { s.ep e with txPkt := out.take (s.ep e).mps.toNat, q := out.drop (s.ep e).mps.toNat, underrun := false,
                          txReady := true }
          resp := respWord .ok (BitVec.ofNat 16 (min out.length (s.ep e).mps.toNat)) })

/-- R202, R203: the callbacks: CDC configures its two bulk endpoints, which is all that changes; DFU configures nothing; the
receive-data callback changes no state of the block, and MAIN goes on with what the application's handler hands it. (That the
handler's collected bytes are empty afterwards is the model's own bookkeeping, log 6; that the handler's items come next, and
before the dispatcher's, is the model's choice, log 24.) -/
def Obligations.Callbacks : Prop :=
  (∀ (s : State) (items : List MainItem) (configured : Endpoint → Dir → Endpoint), s.quiet → s.params.Legal →
    s.program = .initCallback .cdc :: items →
    configured = (fun x d =>
      { x with
        q := [], xtype := .bulk, dir := d, mps := s.params.cdcMps, cfgValid := true, rxBuf := [], rxReady := false
        txReady := false, underrun := false, toggle := false, hwEn := true }) →
    step s = .next
      { s with
        program := items
        eps := (s.eps.set s.params.epCdcIn.val (configured (s.ep s.params.epCdcIn) .inn)).set s.params.epCdcOut.val
          (configured (s.ep s.params.epCdcOut) .out)
        pcb := { s.pcb with
          pending := s.pcb.pending &&& ~~~(1#16 <<< s.params.epCdcIn.val) &&& ~~~(1#16 <<< s.params.epCdcOut.val) }
        resp := respWord .ok 0, rdata := [], handling := false }) ∧
  (∀ (s : State) (items : List MainItem), s.quiet →
    s.program = .initCallback .dfu :: items → step s = .next { s with program := items }) ∧
  (∀ (s : State) (items : List MainItem), s.quiet → s.program = .rxCallback :: items →
    step s = .next { s with program := s.rxHandler ++ items })

/-! ## The whole machine -/

/-- R301, R52: the state after a power-on reset, for every value of the parameters, and whatever the flash holds. (What the
fields hold that R52 leaves unspecified is not stated; logs 3, 4, 5.) -/
def Obligations.ResetValues : Prop :=
  ∀ (p : Params) (flash : List Host.Cell),
    (∀ e : EpNum, ((State.powerOn p flash).ep e).q = [] ∧ ((State.powerOn p flash).ep e).len = 0 ∧
      ((State.powerOn p flash).ep e).cfgValid = false ∧ ((State.powerOn p flash).ep e).hwEn = false ∧
      ((State.powerOn p flash).ep e).rxBuf = [] ∧ ((State.powerOn p flash).ep e).rxReady = false ∧
      ((State.powerOn p flash).ep e).txReady = false ∧ ((State.powerOn p flash).ep e).underrun = false ∧
      ((State.powerOn p flash).ep e).hwStall = false ∧ ((State.powerOn p flash).ep e).toggle = false) ∧
    (State.powerOn p flash).pcb = ⟨0, 0, 0⟩ ∧ (State.powerOn p flash).ep0Masked = false ∧
    (State.powerOn p flash).dfu.bState = p.dfuResetState ∧ (State.powerOn p flash).dfu.bStatus = .ok ∧
    (State.powerOn p flash).dfu.pollTimeout = p.pollTimeout ∧ (State.powerOn p flash).dfu.iString = 0 ∧
    (State.powerOn p flash).dfu.cursor = 0 ∧ (State.powerOn p flash).dfu.flushPending = false ∧
    (State.powerOn p flash).dfu.targetAddr = p.flashBase ∧ (State.powerOn p flash).dfu.booted = false ∧
    (State.powerOn p flash).lineCoding = p.lineCodingReset ∧ (State.powerOn p flash).flash = flash ∧
    (State.powerOn p flash).faults = [] ∧
    State.reset = State.powerOn Params.default [] ∧ Params.default.dfuResetState = .appIDLE

/-- The invariant holds after a power-on reset, for every legal value of the parameters and whatever the flash holds in
canonical form; and in the reset state. -/
def Obligations.ResetInvariant : Prop :=
  (∀ (p : Params) (flash : List Host.Cell), p.Legal → Memory.wf flash → Inv (State.powerOn p flash)) ∧ Inv State.reset

/-- R55, R239: from every state that meets the invariant, whatever is scheduled and whatever is presented, a step leads to a
state that meets it. -/
def Obligations.StepKeepsInvariant : Prop :=
  ∀ s t : State, Inv s → step s = .next t → Inv t

/-- R54: no step removes a recorded fault; and no step changes a parameter or the application handler, which is what
makes the fields `params` and `rxHandler` parameters of the step relation, as R51 asks (that they are fields is the model's
choice, log 1). -/
def Obligations.FaultsStay : Prop :=
  ∀ s t : State, step s = .next t → t.params = s.params ∧ t.rxHandler = s.rxHandler ∧ ∀ f ∈ s.faults, f ∈ t.faults

/-- R50: the flash is changed only by the block flush: a byte that a step changes lies in the target block of a flush that was
pending. -/
def Obligations.FlashChangesOnlyByFlush : Prop :=
  ∀ (s t : State) (a : Nat), Inv s → step s = .next t → Memory.readByte a t.flash ≠ Memory.readByte a s.flash →
    s.dfu.flushPending = true ∧ s.dfu.targetAddr.toNat ≤ a ∧ a < s.dfu.targetAddr.toNat + s.params.blockBytes

/-- R240: the single staging buffer is safe: while a buffered block awaits its flush, no step changes a word of it. -/
def Obligations.BufferIsSafe : Prop :=
  ∀ s t : State, Inv s → s.dfu.flushPending = true → step s = .next t → t.dfu.blk = s.dfu.blk

/-- R234, R211: the boot jump is made only by a step that starts in `dfuMANIFEST`, with no flush pending, and it is emitted
exactly once. -/
def Obligations.BootOnlyFromManifest : Prop :=
  ∀ s t : State, Inv s → step s = .next t → s.dfu.booted = false → t.dfu.booted = true →
    s.dfu.bState = .dfuMANIFEST ∧ s.dfu.flushPending = false ∧ t.dfu.bState = .dfuMANIFEST_WAIT_RESET ∧
    t.events = s.events ++ [.bootJump s.params.flashBase]
end

