-- ==== Sys2Proof/Laws/Pcb.lean ====
section
/-! SUPPORT. What each change of the Protocol Control Block does to each of its bits. -/

namespace Sys2Proof.Machine

@[simp] theorem epBit_getLsbD (e e' : EpNum) : (epBit e).getLsbD e'.val = decide (e' = e) := by
  revert e e'; decide

@[simp] theorem epBit_getElem (e e' : EpNum) : (epBit e)[e'.val] = decide (e' = e) := by
  rw [← epBit_getLsbD, ← BitVec.getLsbD_eq_getElem]

namespace Pcb

variable (p : Pcb) (e e' : EpNum) (mask : BitVec 3)

@[simp] theorem setFlags_flags : (p.setFlags mask).flags = p.flags ||| mask := rfl
@[simp] theorem setFlags_pending : (p.setFlags mask).pending = p.pending := rfl
@[simp] theorem setFlags_stall : (p.setFlags mask).stall = p.stall := rfl
@[simp] theorem clrFlags_flags : (p.clrFlags mask).flags = p.flags &&& ~~~mask := rfl
@[simp] theorem clrFlags_pending : (p.clrFlags mask).pending = p.pending := rfl
@[simp] theorem clrFlags_stall : (p.clrFlags mask).stall = p.stall := rfl
@[simp] theorem setPending_flags : (p.setPending e).flags = p.flags := rfl
@[simp] theorem setPending_stall : (p.setPending e).stall = p.stall := rfl
@[simp] theorem clrPending_flags : (p.clrPending e).flags = p.flags := rfl
@[simp] theorem clrPending_stall : (p.clrPending e).stall = p.stall := rfl
@[simp] theorem setStall_flags : (p.setStall e).flags = p.flags := rfl
@[simp] theorem setStall_pending : (p.setStall e).pending = p.pending := rfl
@[simp] theorem clrStall_flags : (p.clrStall e).flags = p.flags := rfl
@[simp] theorem clrStall_pending : (p.clrStall e).pending = p.pending := rfl

@[simp] theorem setFlags_pendingBit : (p.setFlags mask).pendingBit e = p.pendingBit e := rfl
@[simp] theorem setFlags_stallBit : (p.setFlags mask).stallBit e = p.stallBit e := rfl
@[simp] theorem clrFlags_pendingBit : (p.clrFlags mask).pendingBit e = p.pendingBit e := rfl
@[simp] theorem clrFlags_stallBit : (p.clrFlags mask).stallBit e = p.stallBit e := rfl
@[simp] theorem setPending_stallBit : (p.setPending e).stallBit e' = p.stallBit e' := rfl
@[simp] theorem clrPending_stallBit : (p.clrPending e).stallBit e' = p.stallBit e' := rfl
@[simp] theorem setStall_pendingBit : (p.setStall e).pendingBit e' = p.pendingBit e' := rfl
@[simp] theorem clrStall_pendingBit : (p.clrStall e).pendingBit e' = p.pendingBit e' := rfl

@[simp] theorem setPending_pendingBit : (p.setPending e).pendingBit e' = (p.pendingBit e' || decide (e' = e)) := by
  simp [pendingBit, setPending]

@[simp] theorem clrPending_pendingBit : (p.clrPending e).pendingBit e' = (p.pendingBit e' && !decide (e' = e)) := by
  simp [pendingBit, clrPending]

@[simp] theorem setStall_stallBit : (p.setStall e).stallBit e' = (p.stallBit e' || decide (e' = e)) := by
  simp [stallBit, setStall]

@[simp] theorem clrStall_stallBit : (p.clrStall e).stallBit e' = (p.stallBit e' && !decide (e' = e)) := by
  simp [stallBit, clrStall]

@[simp] theorem noteDrain_stall (k : Nat) : (p.noteDrain e k).stall = p.stall := by
  unfold noteDrain; split <;> rfl

@[simp] theorem noteDrain_stallBit (k : Nat) : (p.noteDrain e k).stallBit e' = p.stallBit e' := by
  unfold noteDrain; split <;> rfl

@[simp] theorem noteDrain_zero : p.noteDrain e 0 = p := rfl

theorem noteDrain_pos {k : Nat} (h : 0 < k) : p.noteDrain e k = (p.setFlags (drainFlag e)).setPending e := by
  unfold noteDrain; rw [if_neg (by omega)]

end Pcb

end Sys2Proof.Machine
end

