-- ==== Sys2Proof/Laws/State.lean ====
section
/-! SUPPORT. One lemma for each field and each named update of the state, so that no proof unfolds a record update, and
what an update of one endpoint does to the endpoints. -/

namespace Sys2Proof.Machine.State

/-! ### `setEp` -/

section
variable (s : State) (e : EpNum) (x : Endpoint)

@[simp] theorem setEp_params : (s.setEp e x).params = s.params := rfl
@[simp] theorem setEp_eps : (s.setEp e x).eps = s.eps.set e.val x := rfl
@[simp] theorem setEp_pcb : (s.setEp e x).pcb = s.pcb := rfl
@[simp] theorem setEp_ep0Masked : (s.setEp e x).ep0Masked = s.ep0Masked := rfl
@[simp] theorem setEp_dfu : (s.setEp e x).dfu = s.dfu := rfl
@[simp] theorem setEp_lineCoding : (s.setEp e x).lineCoding = s.lineCoding := rfl
@[simp] theorem setEp_flash : (s.setEp e x).flash = s.flash := rfl
@[simp] theorem setEp_faults : (s.setEp e x).faults = s.faults := rfl
@[simp] theorem setEp_resp : (s.setEp e x).resp = s.resp := rfl
@[simp] theorem setEp_events : (s.setEp e x).events = s.events := rfl
@[simp] theorem setEp_main : (s.setEp e x).main = s.main := rfl
@[simp] theorem setEp_rdata : (s.setEp e x).rdata = s.rdata := rfl
@[simp] theorem setEp_handling : (s.setEp e x).handling = s.handling := rfl
@[simp] theorem setEp_rxHandler : (s.setEp e x).rxHandler = s.rxHandler := rfl
@[simp] theorem setEp_program : (s.setEp e x).program = s.program := rfl
@[simp] theorem setEp_sched : (s.setEp e x).sched = s.sched := rfl
@[simp] theorem setEp_flashAnswers : (s.setEp e x).flashAnswers = s.flashAnswers := rfl
@[simp] theorem setEp_draws : (s.setEp e x).draws = s.draws := rfl
@[simp] theorem setEp_halted : (s.setEp e x).halted = s.halted := rfl

end

/-! ### `setPcb` -/

section
variable (s : State) (p : Pcb)

@[simp] theorem setPcb_params : (s.setPcb p).params = s.params := rfl
@[simp] theorem setPcb_eps : (s.setPcb p).eps = s.eps := rfl
@[simp] theorem setPcb_pcb : (s.setPcb p).pcb = p := rfl
@[simp] theorem setPcb_ep0Masked : (s.setPcb p).ep0Masked = s.ep0Masked := rfl
@[simp] theorem setPcb_dfu : (s.setPcb p).dfu = s.dfu := rfl
@[simp] theorem setPcb_lineCoding : (s.setPcb p).lineCoding = s.lineCoding := rfl
@[simp] theorem setPcb_flash : (s.setPcb p).flash = s.flash := rfl
@[simp] theorem setPcb_faults : (s.setPcb p).faults = s.faults := rfl
@[simp] theorem setPcb_resp : (s.setPcb p).resp = s.resp := rfl
@[simp] theorem setPcb_events : (s.setPcb p).events = s.events := rfl
@[simp] theorem setPcb_main : (s.setPcb p).main = s.main := rfl
@[simp] theorem setPcb_rdata : (s.setPcb p).rdata = s.rdata := rfl
@[simp] theorem setPcb_handling : (s.setPcb p).handling = s.handling := rfl
@[simp] theorem setPcb_rxHandler : (s.setPcb p).rxHandler = s.rxHandler := rfl
@[simp] theorem setPcb_program : (s.setPcb p).program = s.program := rfl
@[simp] theorem setPcb_sched : (s.setPcb p).sched = s.sched := rfl
@[simp] theorem setPcb_flashAnswers : (s.setPcb p).flashAnswers = s.flashAnswers := rfl
@[simp] theorem setPcb_draws : (s.setPcb p).draws = s.draws := rfl
@[simp] theorem setPcb_halted : (s.setPcb p).halted = s.halted := rfl

end

/-! ### `setDfu` -/

section
variable (s : State) (d : Dfu)

@[simp] theorem setDfu_params : (s.setDfu d).params = s.params := rfl
@[simp] theorem setDfu_eps : (s.setDfu d).eps = s.eps := rfl
@[simp] theorem setDfu_pcb : (s.setDfu d).pcb = s.pcb := rfl
@[simp] theorem setDfu_ep0Masked : (s.setDfu d).ep0Masked = s.ep0Masked := rfl
@[simp] theorem setDfu_dfu : (s.setDfu d).dfu = d := rfl
@[simp] theorem setDfu_lineCoding : (s.setDfu d).lineCoding = s.lineCoding := rfl
@[simp] theorem setDfu_flash : (s.setDfu d).flash = s.flash := rfl
@[simp] theorem setDfu_faults : (s.setDfu d).faults = s.faults := rfl
@[simp] theorem setDfu_resp : (s.setDfu d).resp = s.resp := rfl
@[simp] theorem setDfu_events : (s.setDfu d).events = s.events := rfl
@[simp] theorem setDfu_main : (s.setDfu d).main = s.main := rfl
@[simp] theorem setDfu_rdata : (s.setDfu d).rdata = s.rdata := rfl
@[simp] theorem setDfu_handling : (s.setDfu d).handling = s.handling := rfl
@[simp] theorem setDfu_rxHandler : (s.setDfu d).rxHandler = s.rxHandler := rfl
@[simp] theorem setDfu_program : (s.setDfu d).program = s.program := rfl
@[simp] theorem setDfu_sched : (s.setDfu d).sched = s.sched := rfl
@[simp] theorem setDfu_flashAnswers : (s.setDfu d).flashAnswers = s.flashAnswers := rfl
@[simp] theorem setDfu_draws : (s.setDfu d).draws = s.draws := rfl
@[simp] theorem setDfu_halted : (s.setDfu d).halted = s.halted := rfl

end

/-! ### `respond` -/

section
variable (s : State) (c : RespCode) (v : BitVec 16)

@[simp] theorem respond_params : (s.respond c v).params = s.params := rfl
@[simp] theorem respond_eps : (s.respond c v).eps = s.eps := rfl
@[simp] theorem respond_pcb : (s.respond c v).pcb = s.pcb := rfl
@[simp] theorem respond_ep0Masked : (s.respond c v).ep0Masked = s.ep0Masked := rfl
@[simp] theorem respond_dfu : (s.respond c v).dfu = s.dfu := rfl
@[simp] theorem respond_lineCoding : (s.respond c v).lineCoding = s.lineCoding := rfl
@[simp] theorem respond_flash : (s.respond c v).flash = s.flash := rfl
@[simp] theorem respond_faults : (s.respond c v).faults = s.faults := rfl
@[simp] theorem respond_resp : (s.respond c v).resp = respWord c v := rfl
@[simp] theorem respond_events : (s.respond c v).events = s.events := rfl
@[simp] theorem respond_main : (s.respond c v).main = s.main := rfl
@[simp] theorem respond_rdata : (s.respond c v).rdata = s.rdata := rfl
@[simp] theorem respond_handling : (s.respond c v).handling = s.handling := rfl
@[simp] theorem respond_rxHandler : (s.respond c v).rxHandler = s.rxHandler := rfl
@[simp] theorem respond_program : (s.respond c v).program = s.program := rfl
@[simp] theorem respond_sched : (s.respond c v).sched = s.sched := rfl
@[simp] theorem respond_flashAnswers : (s.respond c v).flashAnswers = s.flashAnswers := rfl
@[simp] theorem respond_draws : (s.respond c v).draws = s.draws := rfl
@[simp] theorem respond_halted : (s.respond c v).halted = s.halted := rfl

end

/-! ### `emit` -/

section
variable (s : State) (ev : Event)

@[simp] theorem emit_params : (s.emit ev).params = s.params := rfl
@[simp] theorem emit_eps : (s.emit ev).eps = s.eps := rfl
@[simp] theorem emit_pcb : (s.emit ev).pcb = s.pcb := rfl
@[simp] theorem emit_ep0Masked : (s.emit ev).ep0Masked = s.ep0Masked := rfl
@[simp] theorem emit_dfu : (s.emit ev).dfu = s.dfu := rfl
@[simp] theorem emit_lineCoding : (s.emit ev).lineCoding = s.lineCoding := rfl
@[simp] theorem emit_flash : (s.emit ev).flash = s.flash := rfl
@[simp] theorem emit_faults : (s.emit ev).faults = s.faults := rfl
@[simp] theorem emit_resp : (s.emit ev).resp = s.resp := rfl
@[simp] theorem emit_events : (s.emit ev).events = s.events ++ [ev] := rfl
@[simp] theorem emit_main : (s.emit ev).main = s.main := rfl
@[simp] theorem emit_rdata : (s.emit ev).rdata = s.rdata := rfl
@[simp] theorem emit_handling : (s.emit ev).handling = s.handling := rfl
@[simp] theorem emit_rxHandler : (s.emit ev).rxHandler = s.rxHandler := rfl
@[simp] theorem emit_program : (s.emit ev).program = s.program := rfl
@[simp] theorem emit_sched : (s.emit ev).sched = s.sched := rfl
@[simp] theorem emit_flashAnswers : (s.emit ev).flashAnswers = s.flashAnswers := rfl
@[simp] theorem emit_draws : (s.emit ev).draws = s.draws := rfl
@[simp] theorem emit_halted : (s.emit ev).halted = s.halted := rfl

end

/-! ### `recordFault` -/

section
variable (s : State) (k : FaultKind) (e : EpNum)

@[simp] theorem recordFault_params : (s.recordFault k e).params = s.params := rfl
@[simp] theorem recordFault_eps : (s.recordFault k e).eps = s.eps := rfl
@[simp] theorem recordFault_pcb : (s.recordFault k e).pcb = s.pcb := rfl
@[simp] theorem recordFault_ep0Masked : (s.recordFault k e).ep0Masked = s.ep0Masked := rfl
@[simp] theorem recordFault_dfu : (s.recordFault k e).dfu = s.dfu := rfl
@[simp] theorem recordFault_lineCoding : (s.recordFault k e).lineCoding = s.lineCoding := rfl
@[simp] theorem recordFault_flash : (s.recordFault k e).flash = s.flash := rfl
@[simp] theorem recordFault_faults : (s.recordFault k e).faults = if (k, e) ∈ s.faults then s.faults else s.faults ++ [(k, e)] := rfl
@[simp] theorem recordFault_resp : (s.recordFault k e).resp = s.resp := rfl
@[simp] theorem recordFault_events : (s.recordFault k e).events = s.events := rfl
@[simp] theorem recordFault_main : (s.recordFault k e).main = s.main := rfl
@[simp] theorem recordFault_rdata : (s.recordFault k e).rdata = s.rdata := rfl
@[simp] theorem recordFault_handling : (s.recordFault k e).handling = s.handling := rfl
@[simp] theorem recordFault_rxHandler : (s.recordFault k e).rxHandler = s.rxHandler := rfl
@[simp] theorem recordFault_program : (s.recordFault k e).program = s.program := rfl
@[simp] theorem recordFault_sched : (s.recordFault k e).sched = s.sched := rfl
@[simp] theorem recordFault_flashAnswers : (s.recordFault k e).flashAnswers = s.flashAnswers := rfl
@[simp] theorem recordFault_draws : (s.recordFault k e).draws = s.draws := rfl
@[simp] theorem recordFault_halted : (s.recordFault k e).halted = s.halted := rfl

end

/-! ### `setMain` -/

section
variable (s : State) (ops : List MainOp)

@[simp] theorem setMain_params : (s.setMain ops).params = s.params := rfl
@[simp] theorem setMain_eps : (s.setMain ops).eps = s.eps := rfl
@[simp] theorem setMain_pcb : (s.setMain ops).pcb = s.pcb := rfl
@[simp] theorem setMain_ep0Masked : (s.setMain ops).ep0Masked = s.ep0Masked := rfl
@[simp] theorem setMain_dfu : (s.setMain ops).dfu = s.dfu := rfl
@[simp] theorem setMain_lineCoding : (s.setMain ops).lineCoding = s.lineCoding := rfl
@[simp] theorem setMain_flash : (s.setMain ops).flash = s.flash := rfl
@[simp] theorem setMain_faults : (s.setMain ops).faults = s.faults := rfl
@[simp] theorem setMain_resp : (s.setMain ops).resp = s.resp := rfl
@[simp] theorem setMain_events : (s.setMain ops).events = s.events := rfl
@[simp] theorem setMain_main : (s.setMain ops).main = ops := rfl
@[simp] theorem setMain_rdata : (s.setMain ops).rdata = s.rdata := rfl
@[simp] theorem setMain_handling : (s.setMain ops).handling = (s.handling && !ops.isEmpty) := rfl
@[simp] theorem setMain_rxHandler : (s.setMain ops).rxHandler = s.rxHandler := rfl
@[simp] theorem setMain_program : (s.setMain ops).program = s.program := rfl
@[simp] theorem setMain_sched : (s.setMain ops).sched = s.sched := rfl
@[simp] theorem setMain_flashAnswers : (s.setMain ops).flashAnswers = s.flashAnswers := rfl
@[simp] theorem setMain_draws : (s.setMain ops).draws = s.draws := rfl
@[simp] theorem setMain_halted : (s.setMain ops).halted = s.halted := rfl

end

/-! ### Endpoints after an update -/

@[simp] theorem ep_setEp_same (s : State) (e : EpNum) (x : Endpoint) : (s.setEp e x).ep e = x := by
  simp [ep, setEp]

theorem ep_setEp_of_ne (s : State) {e e' : EpNum} (x : Endpoint) (h : e' ≠ e) : (s.setEp e x).ep e' = s.ep e' := by
  have : e.val ≠ e'.val := fun hv => h (Fin.ext hv.symm)
  simp [ep, setEp, Vector.getElem_set_ne, this]

theorem ep_setEp (s : State) (e e' : EpNum) (x : Endpoint) :
    (s.setEp e x).ep e' = if e' = e then x else s.ep e' := by
  split
  · next h => subst h; simp
  · next h => exact ep_setEp_of_ne s x h

/-- Two states with the same endpoint vector have the same endpoints. -/
theorem ep_congr {s t : State} (h : t.eps = s.eps) (e : EpNum) : t.ep e = s.ep e := by simp [ep, h]

@[simp] theorem ep_setPcb (s : State) (p : Pcb) (e : EpNum) : (s.setPcb p).ep e = s.ep e := rfl
@[simp] theorem ep_setDfu (s : State) (d : Dfu) (e : EpNum) : (s.setDfu d).ep e = s.ep e := rfl
@[simp] theorem ep_respond (s : State) (c : RespCode) (v : BitVec 16) (e : EpNum) : (s.respond c v).ep e = s.ep e := rfl
@[simp] theorem ep_emit (s : State) (ev : Event) (e : EpNum) : (s.emit ev).ep e = s.ep e := rfl
@[simp] theorem ep_recordFault (s : State) (k : FaultKind) (e' e : EpNum) : (s.recordFault k e').ep e = s.ep e := rfl
@[simp] theorem ep_setMain (s : State) (ops : List MainOp) (e : EpNum) : (s.setMain ops).ep e = s.ep e := rfl

@[simp] theorem hasEp_iff (s : State) (e : EpNum) : s.hasEp e = true ↔ e.val < s.params.numEps := by simp [hasEp]

end Sys2Proof.Machine.State
end

