-- ==== Sys2Proof/Laws/Commands.lean ====
section
/-! SUPPORT. What each FIFO command can do, once (spec/40_fifo_core.md): the performed case of every command as an equation
under the checks of R120, the frame every command keeps, and that every command keeps the invariant of the block. -/

namespace Sys2Proof.Machine

/-! ### Performed commands: one equation for each, under the checks of R120 -/

theorem onEndpoint_of_hasEp {s : State} {e : EpNum} (k : State → State) (h : s.hasEp e = true) :
    onEndpoint e k s = k s := by simp [onEndpoint, h]

theorem onEndpoint_of_not_hasEp {s : State} {e : EpNum} (k : State → State) (h : s.hasEp e = false) :
    onEndpoint e k s = raise (.badEndpoint e) s := by simp [onEndpoint, h]

theorem onConfigured_of_cfgValid {s : State} {e : EpNum} (k : State → State) (h : s.hasEp e = true)
    (hc : (s.ep e).cfgValid = true) : onConfigured e k s = k s := by simp [onConfigured, onEndpoint, h, hc]

theorem cmdWrite_performed {s : State} {e : EpNum} (b : Byte) (h : s.hasEp e = true) (hc : (s.ep e).cfgValid = true)
    (hl : (s.ep e).len < s.params.fifoCap) :
    cmdWrite e b s = (s.setEp e { s.ep e with q := (s.ep e).q ++ [b] }).respond .ok 0 := by
  rw [cmdWrite, onConfigured_of_cfgValid _ h hc, if_neg (by omega)]

theorem cmdRead_performed {s : State} {e : EpNum} {b : Byte} {rest : List Byte} (h : s.hasEp e = true)
    (hc : (s.ep e).cfgValid = true) (hq : (s.ep e).q = b :: rest) :
    cmdRead e s = (s.setEp e { s.ep e with q := rest }).respond .ok (byteData b) := by
  rw [cmdRead, onConfigured_of_cfgValid _ h hc, hq]

theorem cmdFlush_performed {s : State} {e : EpNum} (h : s.hasEp e = true) (hc : (s.ep e).cfgValid = true)
    (hd : (s.ep e).maySend = true) (ht : (s.ep e).txReady = false) :
    cmdFlush e s = some ((s.setEp e { s.ep e with
        txPkt := (s.ep e).q.take (min (s.ep e).len (s.ep e).mps.toNat)
        q := (s.ep e).q.drop (min (s.ep e).len (s.ep e).mps.toNat), underrun := false, txReady := true }).respond .ok
      (countData (min (s.ep e).len (s.ep e).mps.toNat))) := by
  simp [cmdFlush, h, hc, hd, ht]

theorem cmdZlpAck_performed {s : State} (hc : (s.ep 0).cfgValid = true) (ht : (s.ep 0).txReady = false) :
    cmdZlpAck s =
      some ((s.setEp 0 { s.ep 0 with txPkt := [], underrun := false, txReady := true }).respond .ok 0) := by
  simp [cmdZlpAck, hc, ht]

theorem cmdDrain_performed {s : State} {e : EpNum} (h : s.hasEp e = true) (hc : (s.ep e).cfgValid = true)
    (hd : (s.ep e).mayReceive = true) :
    cmdDrain e s = ((s.setEp e (drained s.params.fifoCap (s.ep e))).setPcb
      (s.pcb.noteDrain e (drainCount s.params.fifoCap (s.ep e)))).respond .ok
      (countData (drainCount s.params.fifoCap (s.ep e))) := by
  rw [cmdDrain, onConfigured_of_cfgValid _ h hc]; simp [hd]

/-! ### The endpoints a drain and a flush leave -/

@[simp] theorem drained_cfgValid (cap : Nat) (x : Endpoint) : (drained cap x).cfgValid = x.cfgValid := rfl
@[simp] theorem drained_hwStall (cap : Nat) (x : Endpoint) : (drained cap x).hwStall = x.hwStall := rfl
@[simp] theorem drained_txReady (cap : Nat) (x : Endpoint) : (drained cap x).txReady = x.txReady := rfl
@[simp] theorem drained_txPkt (cap : Nat) (x : Endpoint) : (drained cap x).txPkt = x.txPkt := rfl
@[simp] theorem drained_mps (cap : Nat) (x : Endpoint) : (drained cap x).mps = x.mps := rfl
@[simp] theorem drained_hwEn (cap : Nat) (x : Endpoint) : (drained cap x).hwEn = x.hwEn := rfl
@[simp] theorem drained_xtype (cap : Nat) (x : Endpoint) : (drained cap x).xtype = x.xtype := rfl
@[simp] theorem drained_dir (cap : Nat) (x : Endpoint) : (drained cap x).dir = x.dir := rfl

/-- No byte is lost and none reordered: what was queued, then what had been received (spec/20_memory.md R62). -/
theorem drained_bytes (cap : Nat) (x : Endpoint) : (drained cap x).q ++ (drained cap x).rxBuf = x.q ++ x.rxBuf := by
  simp [drained, List.append_assoc]

theorem drained_length (cap : Nat) (x : Endpoint) : (drained cap x).q.length = x.q.length + drainCount cap x := by
  simp [drained, drainCount, Endpoint.rxCnt]

theorem drained_capacity {cap : Nat} {x : Endpoint} (h : x.q.length ≤ cap) : (drained cap x).q.length ≤ cap := by
  rw [drained_length]; simp only [drainCount, Endpoint.len, Endpoint.rxCnt]; omega

/-! ### The invariant of an endpoint -/

theorem EndpointInv.reset (p : Params) (e : EpNum) : EndpointInv p e Endpoint.reset :=
  ⟨Nat.zero_le _, by simp [Endpoint.reset], by simp [Endpoint.reset], by simp [Endpoint.reset], rfl, by simp [Endpoint.reset],
    by simp [Endpoint.reset]⟩

theorem Endpoint.tearDown_eq (x : Endpoint) : x.tearDown = Endpoint.reset := rfl

variable {p : Params} {e : EpNum} {x : Endpoint}

theorem EndpointInv.configured {ty : XferType} (dir : Dir) {mps : BitVec 11} (hm : 1 ≤ mps.toNat)
    (hm' : mps.toNat ≤ p.fifoCap) (ht : e = 0 → ty = .ctrl) :
    EndpointInv p e
      ({ x with q := [], xtype := ty, dir := dir, mps := mps, cfgValid := true } : Endpoint).configureHw.enableHw :=
  ⟨Nat.zero_le _, fun _ => ⟨hm, hm'⟩, fun _ => rfl, fun h => by simp [Endpoint.configureHw, Endpoint.enableHw] at h, rfl,
    fun _ => rfl, fun he _ => ht he⟩

theorem EndpointInv.write (h : EndpointInv p e x) (b : Byte) (hc : x.cfgValid = true) (hl : x.len < p.fifoCap) :
    EndpointInv p e { x with q := x.q ++ [b] } :=
  ⟨by simpa [Endpoint.len] using hl, h.packetSize, h.receive, h.transmit, h.enabled, fun h' => by simp [hc] at h', h.control⟩

theorem EndpointInv.read (h : EndpointInv p e x) {b : Byte} {rest : List Byte} (hq : x.q = b :: rest) :
    EndpointInv p e { x with q := rest } :=
  ⟨by have := h.capacity; simp [hq] at this; simp only; omega, h.packetSize, h.receive, h.transmit, h.enabled,
    fun h' => by have := h.unconfigured h'; simp [hq] at this, h.control⟩

theorem EndpointInv.flush (h : EndpointInv p e x) (hc : x.cfgValid = true) (n : Nat) (hn : n ≤ x.mps.toNat) :
    EndpointInv p e { x with txPkt := x.q.take n, q := x.q.drop n, underrun := false, txReady := true } :=
  ⟨by have := h.capacity; simp; omega, h.packetSize, h.receive, fun _ => by simp; omega, h.enabled,
    fun h' => by simp [hc] at h', h.control⟩

theorem EndpointInv.ack (h : EndpointInv p e x) :
    EndpointInv p e { x with txPkt := [], underrun := false, txReady := true } :=
  ⟨h.capacity, h.packetSize, h.receive, fun _ => Nat.zero_le _, h.enabled, h.unconfigured, h.control⟩

theorem EndpointInv.drain (h : EndpointInv p e x) (hc : x.cfgValid = true) : EndpointInv p e (drained p.fifoCap x) := by
  refine ⟨drained_capacity h.capacity, h.packetSize, fun hr => ?_, h.transmit, h.enabled, fun h' => ?_, h.control⟩
  · simp only [drained, Bool.and_eq_false_iff, Bool.not_eq_false', List.isEmpty_iff] at hr ⊢
    rcases hr with hr | hr
    · simp [h.receive hr]
    · exact hr
  · rw [drained_cfgValid, hc] at h'; cases h'

theorem EndpointInv.hwStall (h : EndpointInv p e x) (b : Bool) : EndpointInv p e { x with hwStall := b } :=
  ⟨h.capacity, h.packetSize, h.receive, h.transmit, h.enabled, h.unconfigured, h.control⟩

theorem EndpointInv.toggle (h : EndpointInv p e x) (b : Bool) : EndpointInv p e { x with toggle := b } :=
  ⟨h.capacity, h.packetSize, h.receive, h.transmit, h.enabled, h.unconfigured, h.control⟩

theorem EndpointInv.underrun (h : EndpointInv p e x) (b : Bool) : EndpointInv p e { x with underrun := b } :=
  ⟨h.capacity, h.packetSize, h.receive, h.transmit, h.enabled, h.unconfigured, h.control⟩

theorem EndpointInv.taken (h : EndpointInv p e x) (b : Bool) : EndpointInv p e { x with txReady := false, toggle := b } :=
  ⟨h.capacity, h.packetSize, h.receive, fun h' => by simp at h', h.enabled, h.unconfigured, h.control⟩

theorem EndpointInv.packet (h : EndpointInv p e x) (bytes : List Byte) : EndpointInv p e (receivePacket bytes x) :=
  ⟨h.capacity, h.packetSize, fun h' => by simp [receivePacket] at h', h.transmit, h.enabled, h.unconfigured, h.control⟩

theorem EndpointInv.emptied (h : EndpointInv p e x) : EndpointInv p e { x with q := [] } :=
  ⟨Nat.zero_le _, h.packetSize, h.receive, h.transmit, h.enabled, fun _ => rfl, h.control⟩

/-! ### What every command leaves alone -/

/-- The fields no FIFO command but `PCB_INIT` touches. -/
structure SameBut (s t : State) : Prop where
  params : t.params = s.params
  rxHandler : t.rxHandler = s.rxHandler
  ep0Masked : t.ep0Masked = s.ep0Masked
  dfu : t.dfu = s.dfu
  lineCoding : t.lineCoding = s.lineCoding
  flash : t.flash = s.flash
  events : t.events = s.events
  main : t.main = s.main
  rdata : t.rdata = s.rdata
  handling : t.handling = s.handling
  program : t.program = s.program
  sched : t.sched = s.sched
  flashAnswers : t.flashAnswers = s.flashAnswers
  halted : t.halted = s.halted

theorem SameBut.refl (s : State) : SameBut s s := ⟨rfl, rfl, rfl, rfl, rfl, rfl, rfl, rfl, rfl, rfl, rfl, rfl, rfl, rfl⟩

theorem SameBut.commandFrame {s t : State} (h : SameBut s t) : CommandFrame s t :=
  ⟨h.params, h.rxHandler, h.dfu, h.lineCoding, fun a => by rw [h.flash], h.ep0Masked, h.events, h.rdata, h.handling,
    h.program, h.sched, h.flashAnswers, h.halted⟩

/-- The exceptions a command can raise leave those fields alone too. -/
theorem raise_sameBut (s : State) (e : EpNum) :
    SameBut s (raise .reservedCommand s) ∧ SameBut s (raise (.badEndpoint e) s) ∧ SameBut s (raise .badArgument s) ∧
    SameBut s (raise (.notConfigured e) s) ∧ SameBut s (raise (.badDirection e) s) ∧
    SameBut s (raise (.fifoFull e) s) ∧ SameBut s (raise (.fifoEmpty e) s) := by
  refine ⟨?_, ?_, ?_, ?_, ?_, ?_, ?_⟩ <;> exact ⟨rfl, rfl, rfl, rfl, rfl, rfl, rfl, rfl, rfl, rfl, rfl, rfl, rfl, rfl⟩

theorem onEndpoint_sameBut {e : EpNum} {k : State → State} {s : State} (h : SameBut s (k s)) :
    SameBut s (onEndpoint e k s) := by
  unfold onEndpoint; split
  · exact h
  · exact (raise_sameBut s e).2.1

theorem onConfigured_sameBut {e : EpNum} {k : State → State} {s : State} (h : SameBut s (k s)) :
    SameBut s (onConfigured e k s) := by
  refine onEndpoint_sameBut ?_
  split
  · exact h
  · exact (raise_sameBut s e).2.2.2.1

theorem cmdConfigure_sameBut (e : EpNum) (ty : XferType) (dir : Dir) (mps : BitVec 11) (s : State) :
    SameBut s (cmdConfigure e ty dir mps s) := by
  refine onEndpoint_sameBut ?_
  split
  · exact (raise_sameBut s e).2.2.1
  · exact ⟨rfl, rfl, rfl, rfl, rfl, rfl, rfl, rfl, rfl, rfl, rfl, rfl, rfl, rfl⟩

theorem cmdWrite_sameBut (e : EpNum) (b : Byte) (s : State) : SameBut s (cmdWrite e b s) := by
  refine onConfigured_sameBut ?_
  split
  · exact (raise_sameBut s e).2.2.2.2.2.1
  · exact ⟨rfl, rfl, rfl, rfl, rfl, rfl, rfl, rfl, rfl, rfl, rfl, rfl, rfl, rfl⟩

theorem cmdRead_sameBut (e : EpNum) (s : State) : SameBut s (cmdRead e s) := by
  refine onConfigured_sameBut ?_
  split
  · exact (raise_sameBut s e).2.2.2.2.2.2
  · exact ⟨rfl, rfl, rfl, rfl, rfl, rfl, rfl, rfl, rfl, rfl, rfl, rfl, rfl, rfl⟩

theorem cmdFlush_sameBut {e : EpNum} {s t : State} (h : cmdFlush e s = some t) : SameBut s t := by
  unfold cmdFlush at h
  repeat' split at h
  · injection h with h; subst h; exact (raise_sameBut s e).2.1
  · injection h with h; subst h; exact (raise_sameBut s e).2.2.2.1
  · injection h with h; subst h; exact (raise_sameBut s e).2.2.2.2.1
  · cases h
  · injection h with h; subst h; exact ⟨rfl, rfl, rfl, rfl, rfl, rfl, rfl, rfl, rfl, rfl, rfl, rfl, rfl, rfl⟩

theorem cmdDrain_sameBut (e : EpNum) (s : State) : SameBut s (cmdDrain e s) := by
  refine onConfigured_sameBut ?_
  split
  · exact (raise_sameBut s e).2.2.2.2.1
  · exact ⟨rfl, rfl, rfl, rfl, rfl, rfl, rfl, rfl, rfl, rfl, rfl, rfl, rfl, rfl⟩

theorem cmdSetStall_sameBut (e : EpNum) (s : State) : SameBut s (cmdSetStall e s) :=
  onEndpoint_sameBut ⟨rfl, rfl, rfl, rfl, rfl, rfl, rfl, rfl, rfl, rfl, rfl, rfl, rfl, rfl⟩

theorem cmdClearStall_sameBut (e : EpNum) (s : State) : SameBut s (cmdClearStall e s) :=
  onEndpoint_sameBut ⟨rfl, rfl, rfl, rfl, rfl, rfl, rfl, rfl, rfl, rfl, rfl, rfl, rfl, rfl⟩

theorem cmdZlpAck_sameBut {s t : State} (h : cmdZlpAck s = some t) : SameBut s t := by
  unfold cmdZlpAck at h
  repeat' split at h
  · injection h with h; subst h; exact (raise_sameBut s 0).2.2.2.1
  · cases h
  · injection h with h; subst h; exact ⟨rfl, rfl, rfl, rfl, rfl, rfl, rfl, rfl, rfl, rfl, rfl, rfl, rfl, rfl⟩

theorem cmdFlagSet_sameBut (mask : BitVec 3) (s : State) : SameBut s (cmdFlagSet mask s) :=
  ⟨rfl, rfl, rfl, rfl, rfl, rfl, rfl, rfl, rfl, rfl, rfl, rfl, rfl, rfl⟩

theorem cmdFlagClr_sameBut (mask : BitVec 3) (s : State) : SameBut s (cmdFlagClr mask s) :=
  ⟨rfl, rfl, rfl, rfl, rfl, rfl, rfl, rfl, rfl, rfl, rfl, rfl, rfl, rfl⟩

theorem cmdPendClr_sameBut (e : EpNum) (s : State) : SameBut s (cmdPendClr e s) :=
  onEndpoint_sameBut ⟨rfl, rfl, rfl, rfl, rfl, rfl, rfl, rfl, rfl, rfl, rfl, rfl, rfl, rfl⟩

/-! ### Every command keeps the invariant of the block -/

/-- What a state needs beside an unchanged DFU controller and flash to keep the invariant. -/
theorem BlockInv.of_sameBut {s t : State} (h : BlockInv s) (hs : SameBut s t)
    (he : ∀ e, EndpointInv s.params e (t.ep e)) (ha : ∀ e, s.params.numEps ≤ e.val → t.ep e = Endpoint.reset)
    (hst : ∀ e, t.pcb.stallBit e = (t.ep e).hwStall) (hf : t.faults.Nodup) : BlockInv t :=
  ⟨hs.params ▸ h.legal, fun e => hs.params ▸ he e, fun e => hs.params ▸ ha e, hst, by rw [hs.params, hs.dfu]; exact h.dfu,
    by rw [hs.flash]; exact h.flash, hf⟩

/-- A number with an endpoint is none of the absent ones. -/
theorem State.ne_of_hasEp {s : State} {e e' : EpNum} (h : s.hasEp e = true) (ha : s.params.numEps ≤ e'.val) :
    e' ≠ e := by
  rw [State.hasEp_iff] at h; rintro rfl; omega

/-- Endpoint 0 exists (R7). -/
theorem BlockInv.hasEp_zero {s : State} (h : BlockInv s) : s.hasEp 0 = true := by
  rw [State.hasEp_iff]; exact Nat.lt_of_lt_of_le Nat.zero_lt_one h.legal.1

theorem BlockInv.respond {s : State} (h : BlockInv s) (c : RespCode) (v : BitVec 16) : BlockInv (s.respond c v) :=
  ⟨h.legal, h.endpoints, h.absent, h.stalls, h.dfu, h.flash, h.faults⟩

theorem State.recordFault_nodup {s : State} (h : s.faults.Nodup) (k : FaultKind) (e : EpNum) :
    (s.recordFault k e).faults.Nodup := by
  rw [State.recordFault_faults]
  split
  · exact h
  · next hn => exact List.nodup_append.mpr ⟨h, by simp, fun a ha b hb => by
      rw [List.mem_singleton] at hb; subst hb; exact fun heq => hn (heq ▸ ha)⟩

theorem BlockInv.raise {s : State} (h : BlockInv s) (e : EpNum) :
    BlockInv (raise .reservedCommand s) ∧ BlockInv (raise (.badEndpoint e) s) ∧ BlockInv (raise .badArgument s) ∧
    BlockInv (raise (.notConfigured e) s) ∧ BlockInv (raise (.badDirection e) s) ∧
    BlockInv (raise (.fifoFull e) s) ∧ BlockInv (raise (.fifoEmpty e) s) := by
  obtain ⟨h1, h2, h3, h4, h5, h6, h7⟩ := raise_sameBut s e
  exact ⟨h.respond _ _, h.respond _ _, h.respond _ _, h.respond _ _, h.respond _ _,
    h.of_sameBut h6 h.endpoints h.absent h.stalls (State.recordFault_nodup h.faults .fifoFull e),
    h.of_sameBut h7 h.endpoints h.absent h.stalls (State.recordFault_nodup h.faults .fifoEmpty e)⟩

theorem BlockInv.onEndpoint {s : State} (h : BlockInv s) {e : EpNum} {k : State → State}
    (hk : s.hasEp e = true → BlockInv (k s)) : BlockInv (onEndpoint e k s) := by
  unfold Machine.onEndpoint; split
  · next he => exact hk he
  · exact (h.raise e).2.1

theorem BlockInv.onConfigured {s : State} (h : BlockInv s) {e : EpNum} {k : State → State}
    (hk : s.hasEp e = true → (s.ep e).cfgValid = true → BlockInv (k s)) : BlockInv (onConfigured e k s) := by
  refine h.onEndpoint fun he => ?_
  split
  · next hc => exact hk he hc
  · exact (h.raise e).2.2.2.1

/-- Changing one endpoint, keeping its stall condition. -/
theorem BlockInv.setEp {s : State} (h : BlockInv s) {e : EpNum} {x : Endpoint} (hh : s.hasEp e = true)
    (hx : EndpointInv s.params e x) (hst : x.hwStall = (s.ep e).hwStall) : BlockInv (s.setEp e x) := by
  refine h.of_sameBut ⟨rfl, rfl, rfl, rfl, rfl, rfl, rfl, rfl, rfl, rfl, rfl, rfl, rfl, rfl⟩ (fun e' => ?_)
    (fun e' ha => ?_) (fun e' => ?_) h.faults
  · rw [State.ep_setEp]; split
    · next he => rw [he]; exact hx
    · exact h.endpoints e'
  · rw [State.ep_setEp, if_neg (State.ne_of_hasEp hh ha)]; exact h.absent e' ha
  · rw [State.ep_setEp, State.setEp_pcb, h.stalls]; split
    · next he => rw [he, hst]
    · rfl

/-- Changing the PCB, keeping the stall mask. -/
theorem BlockInv.setPcb {s : State} (h : BlockInv s) {p : Pcb} (hp : ∀ e, p.stallBit e = s.pcb.stallBit e) :
    BlockInv (s.setPcb p) :=
  h.of_sameBut ⟨rfl, rfl, rfl, rfl, rfl, rfl, rfl, rfl, rfl, rfl, rfl, rfl, rfl, rfl⟩ h.endpoints h.absent
    (fun e => by rw [State.setPcb_pcb, hp, h.stalls]; rfl) h.faults

theorem BlockInv.stall {s : State} (h : BlockInv s) {e : EpNum} (hh : s.hasEp e = true) : BlockInv (s.stall e) := by
  refine h.of_sameBut ⟨rfl, rfl, rfl, rfl, rfl, rfl, rfl, rfl, rfl, rfl, rfl, rfl, rfl, rfl⟩ (fun e' => ?_)
    (fun e' ha => ?_) (fun e' => ?_) h.faults
  · simp only [State.stall, State.ep_setPcb, State.ep_setEp]; split
    · next he => rw [he]; exact (h.endpoints e).hwStall true
    · exact h.endpoints e'
  · simp only [State.stall, State.ep_setPcb, State.ep_setEp, if_neg (State.ne_of_hasEp hh ha)]; exact h.absent e' ha
  · simp only [State.stall, State.ep_setPcb, State.ep_setEp, State.setPcb_pcb, Pcb.setStall_stallBit]
    rw [h.stalls]; split <;> simp_all

theorem BlockInv.unstall {s : State} (h : BlockInv s) {e : EpNum} (hh : s.hasEp e = true) : BlockInv (s.unstall e) := by
  refine h.of_sameBut ⟨rfl, rfl, rfl, rfl, rfl, rfl, rfl, rfl, rfl, rfl, rfl, rfl, rfl, rfl⟩ (fun e' => ?_)
    (fun e' ha => ?_) (fun e' => ?_) h.faults
  · simp only [State.unstall, State.ep_setPcb, State.ep_setEp]; split
    · next he => rw [he]; exact ((h.endpoints e).hwStall false).toggle false
    · exact h.endpoints e'
  · simp only [State.unstall, State.ep_setPcb, State.ep_setEp, if_neg (State.ne_of_hasEp hh ha)]; exact h.absent e' ha
  · simp only [State.unstall, State.ep_setPcb, State.ep_setEp, State.setPcb_pcb, Pcb.clrStall_stallBit]
    rw [h.stalls]; split <;> simp_all

theorem badConfigure_eq_false {cap : Nat} {e : EpNum} {ty : XferType} {mps : BitVec 11}
    (h : badConfigure cap e ty mps = false) :
    1 ≤ mps.toNat ∧ mps.toNat ≤ cap ∧ (e = 0 → ty = .ctrl) := by
  simp only [badConfigure, Bool.or_eq_false_iff, beq_eq_false_iff_ne, decide_eq_false_iff_not, Bool.and_eq_false_iff,
    bne_eq_false_iff_eq] at h
  obtain ⟨⟨h1, h2⟩, h3⟩ := h
  refine ⟨by omega, by omega, fun he => ?_⟩
  rcases h3 with h3 | h3
  · exact absurd he h3
  · exact h3

theorem cmdConfigure_keeps {s : State} (h : BlockInv s) (e : EpNum) (ty : XferType) (dir : Dir) (mps : BitVec 11) :
    BlockInv (cmdConfigure e ty dir mps s) := by
  refine h.onEndpoint fun hh => ?_
  split
  · exact (h.raise e).2.2.1
  · next hb =>
    obtain ⟨h1, h2, h3⟩ := badConfigure_eq_false (by simpa using hb)
    exact ((h.setEp hh (.configured dir h1 h2 h3) rfl).setPcb (fun _ => by simp)).respond _ _

theorem cmdWrite_keeps {s : State} (h : BlockInv s) (e : EpNum) (b : Byte) : BlockInv (cmdWrite e b s) := by
  refine h.onConfigured fun hh hc => ?_
  split
  · exact (h.raise e).2.2.2.2.2.1
  · next hl => exact (h.setEp hh ((h.endpoints e).write b hc (by omega)) rfl).respond _ _

theorem cmdRead_keeps {s : State} (h : BlockInv s) (e : EpNum) : BlockInv (cmdRead e s) := by
  refine h.onConfigured fun hh hc => ?_
  split
  · exact (h.raise e).2.2.2.2.2.2
  · next hq => exact (h.setEp hh ((h.endpoints e).read hq) rfl).respond _ _

theorem cmdFlush_keeps {s t : State} (h : BlockInv s) {e : EpNum} (ht : cmdFlush e s = some t) : BlockInv t := by
  unfold cmdFlush at ht
  repeat' split at ht
  · injection ht with ht; subst ht; exact (h.raise e).2.1
  · injection ht with ht; subst ht; exact (h.raise e).2.2.2.1
  · injection ht with ht; subst ht; exact (h.raise e).2.2.2.2.1
  · cases ht
  · next hh hc _ _ =>
    injection ht with ht; subst ht
    exact (h.setEp (by simpa using hh) ((h.endpoints e).flush (by simpa using hc) _ (Nat.min_le_right _ _)) rfl).respond _ _

theorem cmdDrain_keeps {s : State} (h : BlockInv s) (e : EpNum) : BlockInv (cmdDrain e s) := by
  refine h.onConfigured fun hh hc => ?_
  split
  · exact (h.raise e).2.2.2.2.1
  · exact ((h.setEp hh ((h.endpoints e).drain hc) rfl).setPcb (fun _ => by simp)).respond _ _

theorem cmdSetStall_keeps {s : State} (h : BlockInv s) (e : EpNum) : BlockInv (cmdSetStall e s) :=
  h.onEndpoint fun hh => (h.stall hh).respond _ _

theorem cmdClearStall_keeps {s : State} (h : BlockInv s) (e : EpNum) : BlockInv (cmdClearStall e s) :=
  h.onEndpoint fun hh => (h.unstall hh).respond _ _

theorem cmdZlpAck_keeps {s t : State} (h : BlockInv s) (ht : cmdZlpAck s = some t) : BlockInv t := by
  unfold cmdZlpAck at ht
  repeat' split at ht
  · injection ht with ht; subst ht; exact (h.raise 0).2.2.2.1
  · cases ht
  · injection ht with ht; subst ht; exact (h.setEp h.hasEp_zero (h.endpoints 0).ack rfl).respond _ _

theorem cmdFlagSet_keeps {s : State} (h : BlockInv s) (mask : BitVec 3) : BlockInv (cmdFlagSet mask s) :=
  (h.setPcb (fun _ => by simp)).respond _ _

theorem cmdFlagClr_keeps {s : State} (h : BlockInv s) (mask : BitVec 3) : BlockInv (cmdFlagClr mask s) :=
  (h.setPcb (fun _ => by simp)).respond _ _

theorem cmdPendClr_keeps {s : State} (h : BlockInv s) (e : EpNum) : BlockInv (cmdPendClr e s) :=
  h.onEndpoint fun _ => (h.setPcb (fun _ => by simp)).respond _ _

/-! ### Faults: a command records them, and removes none (spec/10_state.md R54) -/

theorem State.mem_recordFault {s : State} {k : FaultKind} {e : EpNum} {f : FaultKind × EpNum} (h : f ∈ s.faults) :
    f ∈ (s.recordFault k e).faults := by
  rw [State.recordFault_faults]; split
  · exact h
  · exact List.mem_append_left _ h

theorem onEndpoint_faults {e : EpNum} {k : State → State} {s : State} (h : ∀ f ∈ s.faults, f ∈ (k s).faults) :
    ∀ f ∈ s.faults, f ∈ (onEndpoint e k s).faults := by
  unfold onEndpoint; split
  · exact h
  · exact fun _ hf => hf

theorem onConfigured_faults {e : EpNum} {k : State → State} {s : State} (h : ∀ f ∈ s.faults, f ∈ (k s).faults) :
    ∀ f ∈ s.faults, f ∈ (onConfigured e k s).faults := by
  refine onEndpoint_faults ?_
  split
  · exact h
  · exact fun _ hf => hf

theorem cmdWrite_faults (e : EpNum) (b : Byte) (s : State) : ∀ f ∈ s.faults, f ∈ (cmdWrite e b s).faults := by
  refine onConfigured_faults ?_
  split
  · exact fun _ hf => State.mem_recordFault hf
  · exact fun _ hf => hf

theorem cmdRead_faults (e : EpNum) (s : State) : ∀ f ∈ s.faults, f ∈ (cmdRead e s).faults := by
  refine onConfigured_faults ?_
  split
  · exact fun _ hf => State.mem_recordFault hf
  · exact fun _ hf => hf

theorem cmdFlush_faults {e : EpNum} {s t : State} (h : cmdFlush e s = some t) : t.faults = s.faults := by
  unfold cmdFlush at h
  repeat' split at h
  all_goals first | (injection h with h; subst h; rfl) | cases h

theorem cmdSetStall_faults (e : EpNum) (s : State) : (cmdSetStall e s).faults = s.faults := by
  unfold cmdSetStall onEndpoint; split <;> rfl

theorem cmdClearStall_faults (e : EpNum) (s : State) : (cmdClearStall e s).faults = s.faults := by
  unfold cmdClearStall onEndpoint; split <;> rfl

theorem cmdZlpAck_faults {s t : State} (h : cmdZlpAck s = some t) : t.faults = s.faults := by
  unfold cmdZlpAck at h
  repeat' split at h
  all_goals first | (injection h with h; subst h; rfl) | cases h

theorem cmdPendClr_faults (e : EpNum) (s : State) : (cmdPendClr e s).faults = s.faults := by
  unfold cmdPendClr onEndpoint; split <;> rfl

theorem onEndpoint_faults_eq {e : EpNum} {k : State → State} {s : State} (h : (k s).faults = s.faults) :
    (onEndpoint e k s).faults = s.faults := by
  unfold onEndpoint; split
  · exact h
  · rfl

theorem cmdConfigure_faults (e : EpNum) (ty : XferType) (dir : Dir) (mps : BitVec 11) (s : State) :
    (cmdConfigure e ty dir mps s).faults = s.faults := by
  refine onEndpoint_faults_eq ?_; split <;> rfl

theorem cmdDrain_faults (e : EpNum) (s : State) : (cmdDrain e s).faults = s.faults := by
  refine onEndpoint_faults_eq ?_
  split
  · show (if _ then _ else _ : State).faults = _; split <;> rfl
  · rfl

/-! ### `PCB_INIT` and the bus reset -/

theorem tearDownPcb_ep (s : State) (e : EpNum) :
    (tearDownPcb s).ep e = if s.hasEp e = true then Endpoint.reset else s.ep e := by
  show (Vector.ofFn _)[e.val] = _
  rw [Vector.getElem_ofFn]
  simp only [State.hasEp_iff]
  rfl

/-- Tearing the endpoints down twice is tearing them down once ("idempotent", R132). -/
theorem tearDownEps_idem (n : Nat) (eps : Vector Endpoint 16) : tearDownEps n (tearDownEps n eps) = tearDownEps n eps := by
  apply Vector.ext
  intro i hi
  simp only [tearDownEps, Vector.getElem_ofFn, Fin.getElem_fin]
  split <;> rfl

/-- After it every endpoint has its reset value (spec/40_fifo_core.md R132). -/
theorem BlockInv.tearDownPcb_ep_reset {s : State} (h : BlockInv s) (e : EpNum) :
    (tearDownPcb s).ep e = Endpoint.reset := by
  rw [tearDownPcb_ep]; split
  · rfl
  · next hh => exact h.absent e (by rw [State.hasEp_iff] at hh; omega)

@[simp] theorem tearDownPcb_params (s : State) : (tearDownPcb s).params = s.params := by simp only [tearDownPcb]
@[simp] theorem tearDownPcb_dfu (s : State) : (tearDownPcb s).dfu = s.dfu := by simp only [tearDownPcb]
@[simp] theorem tearDownPcb_flash (s : State) : (tearDownPcb s).flash = s.flash := by simp only [tearDownPcb]
@[simp] theorem tearDownPcb_faults (s : State) : (tearDownPcb s).faults = s.faults := by simp only [tearDownPcb]
@[simp] theorem tearDownPcb_main (s : State) : (tearDownPcb s).main = s.main := by simp only [tearDownPcb]
@[simp] theorem tearDownPcb_handling (s : State) : (tearDownPcb s).handling = s.handling := by simp only [tearDownPcb]
@[simp] theorem tearDownPcb_halted (s : State) : (tearDownPcb s).halted = s.halted := by simp only [tearDownPcb]

theorem tearDownPcb_idem (s : State) (w : Word) :
    tearDownPcb { tearDownPcb s with resp := w } = { tearDownPcb s with resp := w } := by
  simp only [tearDownPcb, tearDownEps_idem]

theorem tearDownPcb_stallBit (s : State) (e : EpNum) : (tearDownPcb s).pcb.stallBit e = false := by
  show (0 : BitVec 16).getLsbD e.val = false
  simp

theorem tearDownPcb_keeps {s : State} (h : BlockInv s) : BlockInv (tearDownPcb s) where
  legal := by rw [tearDownPcb_params]; exact h.legal
  endpoints e := by rw [h.tearDownPcb_ep_reset e]; exact EndpointInv.reset _ _
  absent e _ := h.tearDownPcb_ep_reset e
  stalls e := by rw [h.tearDownPcb_ep_reset e, tearDownPcb_stallBit]; rfl
  dfu := by rw [tearDownPcb_params, tearDownPcb_dfu]; exact h.dfu
  flash := by rw [tearDownPcb_flash]; exact h.flash
  faults := by rw [tearDownPcb_faults]; exact h.faults

theorem cmdPcbInit_keeps {s : State} (h : BlockInv s) : BlockInv (cmdPcbInit s) := (tearDownPcb_keeps h).respond _ _

end Sys2Proof.Machine
end

