-- ==== Sys2Proof/Laws/Agents.lean ====
section
/-! SUPPORT. What a step of another agent can do (spec/41_wire_side.md): nothing when it is not enabled, and in every case
it keeps the invariant and leaves MAIN's handler, the DFU controller and the flash alone. -/

namespace Sys2Proof.Machine

theorem agentStep_not_enabled {a : AgentStep} {s : State} (h : agentEnabled a s = false) : agentStep a s = s := by
  simp [agentStep, h]

theorem agentStep_enabled {a : AgentStep} {s : State} (h : agentEnabled a s = true) : agentStep a s = agentEffect a s := by
  simp [agentStep, h]

/-- What no agent but MAIN touches (spec/44_dfu_controller.md R210, spec/60_exceptions.md R282). -/
structure MainOwned (s t : State) : Prop where
  params : t.params = s.params
  rxHandler : t.rxHandler = s.rxHandler
  dfu : t.dfu = s.dfu
  lineCoding : t.lineCoding = s.lineCoding
  flash : t.flash = s.flash
  resp : t.resp = s.resp
  main : t.main = s.main
  rdata : t.rdata = s.rdata
  handling : t.handling = s.handling
  program : t.program = s.program
  sched : t.sched = s.sched
  flashAnswers : t.flashAnswers = s.flashAnswers
  faults : t.faults = s.faults

theorem agentEffect_mainOwned (a : AgentStep) (s : State) : MainOwned s (agentEffect a s) := by
  cases a with
  | irqDrain e =>
    have h := cmdDrain_sameBut e s
    exact ⟨h.params, h.rxHandler, h.dfu, h.lineCoding, h.flash, rfl, h.main, h.rdata, h.handling, h.program, h.sched,
      h.flashAnswers, cmdDrain_faults e s⟩
  | resetBus => constructor <;> simp only [agentEffect, tearDownPcb]
  | wireRx e bytes => exact ⟨rfl, rfl, rfl, rfl, rfl, rfl, rfl, rfl, rfl, rfl, rfl, rfl, rfl⟩
  | wireTake e => exact ⟨rfl, rfl, rfl, rfl, rfl, rfl, rfl, rfl, rfl, rfl, rfl, rfl, rfl⟩
  | wirePollIn e => exact ⟨rfl, rfl, rfl, rfl, rfl, rfl, rfl, rfl, rfl, rfl, rfl, rfl, rfl⟩
  | wireSeeStall e => exact ⟨rfl, rfl, rfl, rfl, rfl, rfl, rfl, rfl, rfl, rfl, rfl, rfl, rfl⟩
  | wireSetup bytes => exact ⟨rfl, rfl, rfl, rfl, rfl, rfl, rfl, rfl, rfl, rfl, rfl, rfl, rfl⟩
  | halt => exact ⟨rfl, rfl, rfl, rfl, rfl, rfl, rfl, rfl, rfl, rfl, rfl, rfl, rfl⟩

theorem agentStep_mainOwned (a : AgentStep) (s : State) : MainOwned s (agentStep a s) := by
  unfold agentStep; split
  · exact agentEffect_mainOwned a s
  · exact ⟨rfl, rfl, rfl, rfl, rfl, rfl, rfl, rfl, rfl, rfl, rfl, rfl, rfl⟩

/-- The invariant of the block does not look at the response, the events or the environment's inputs. -/
theorem BlockInv.congr {s t : State} (h : BlockInv s) (hp : t.params = s.params) (he : t.eps = s.eps)
    (hb : t.pcb = s.pcb) (hd : t.dfu = s.dfu) (hf : t.flash = s.flash) (hx : t.faults = s.faults) : BlockInv t where
  legal := hp ▸ h.legal
  endpoints e := by rw [hp, State.ep_congr he]; exact h.endpoints e
  absent e ha := by rw [State.ep_congr he]; exact h.absent e (hp ▸ ha)
  stalls e := by rw [hb, State.ep_congr he]; exact h.stalls e
  dfu := by rw [hp, hd]; exact h.dfu
  flash := hf ▸ h.flash
  faults := hx ▸ h.faults

theorem BlockInv.emit {s : State} (h : BlockInv s) (ev : Event) : BlockInv (s.emit ev) :=
  h.congr rfl rfl rfl rfl rfl rfl

/-- A setup packet releases endpoint 0 (spec/41_wire_side.md R165). -/
theorem BlockInv.setup {s : State} (h : BlockInv s) (bytes : List Byte) : BlockInv (agentEffect (.wireSetup bytes) s) := by
  have hh := h.hasEp_zero
  refine h.of_sameBut ⟨rfl, rfl, rfl, rfl, rfl, rfl, rfl, rfl, rfl, rfl, rfl, rfl, rfl, rfl⟩ (fun e => ?_) (fun e ha => ?_)
    (fun e => ?_) h.faults
  · simp only [agentEffect, State.ep_setPcb, State.ep_setEp]; split
    · next he =>
      rw [he]
      exact EndpointInv.packet (x := { s.ep 0 with hwStall := false, txReady := false })
        ⟨(h.endpoints 0).capacity, (h.endpoints 0).packetSize, (h.endpoints 0).receive, fun h' => by simp at h',
          (h.endpoints 0).enabled, (h.endpoints 0).unconfigured, (h.endpoints 0).control⟩ bytes
    · exact h.endpoints e
  · simp only [agentEffect, State.ep_setPcb, State.ep_setEp, if_neg (State.ne_of_hasEp hh ha)]; exact h.absent e ha
  · simp only [agentEffect, State.ep_setPcb, State.ep_setEp, State.setPcb_pcb, Pcb.clrStall_stallBit]
    rw [h.stalls]; split <;> simp_all [receivePacket]

theorem agentStep_keeps_block {s : State} (h : BlockInv s) (a : AgentStep) : BlockInv (agentStep a s) := by
  unfold agentStep
  split
  · next hen =>
    cases a with
    | irqDrain e => exact (cmdDrain_keeps h e).congr rfl rfl rfl rfl rfl rfl
    | wireRx e bytes =>
      simp only [agentEnabled, Bool.and_eq_true] at hen
      exact h.setEp (by simp_all) ((h.endpoints e).packet bytes) rfl
    | wireTake e =>
      simp only [agentEnabled, Bool.and_eq_true] at hen
      exact (h.emit _).setEp (by exact hen.2.1.1.1.1) ((h.endpoints e).taken _) rfl
    | wirePollIn e =>
      simp only [agentEnabled, Bool.and_eq_true] at hen
      exact h.setEp (by simp_all) ((h.endpoints e).underrun true) rfl
    | wireSeeStall e => exact h.emit _
    | wireSetup bytes => exact h.setup bytes
    | resetBus => exact tearDownPcb_keeps h
    | halt => exact h.congr rfl rfl rfl rfl rfl rfl
  · exact h

/-- A step of another agent keeps the whole invariant. -/
theorem agentStep_keeps {s : State} (h : Inv s) (a : AgentStep) : Inv (agentStep a s) := by
  have o := agentStep_mainOwned a s
  refine ⟨agentStep_keeps_block h.block a, ?_, ?_, ?_⟩
  · rw [o.main]; exact h.main.oneEnd
  · rw [o.main, o.dfu]; exact h.main.suits
  · rw [o.main, o.handling]; exact h.main.handling

end Sys2Proof.Machine
end

