-- ==== Sys2Proof/Laws/Decode.lean ====
section
/-! SUPPORT. The fields of a command word and of a setup packet, read back from what the encoder builds and put together again
from what the decoder reads, and that the operation code alone tells two rows apart (spec/30_encoding.md R91 to R98). -/

namespace Sys2Proof

/-! ### Field codes -/

@[simp] theorem XferType.ofBits_toBits (t : XferType) : XferType.ofBits t.toBits = t := by cases t <;> rfl
@[simp] theorem XferType.toBits_ofBits (b : BitVec 2) : (XferType.ofBits b).toBits = b := by revert b; decide
@[simp] theorem Dir.ofBits_toBits (d : Dir) : Dir.ofBits d.toBits = d := by cases d <;> rfl
@[simp] theorem Dir.toBits_ofBits (b : BitVec 1) : (Dir.ofBits b).toBits = b := by revert b; decide
@[simp] theorem EpNum.ofBits_toBits (e : EpNum) : EpNum.ofBits e.toBits = e := by revert e; decide
@[simp] theorem EpNum.toBits_ofBits (b : BitVec 4) : EpNum.toBits (EpNum.ofBits b) = b := by revert b; decide

/-! ### The command word -/

@[simp] theorem cmdWord_op (op : BitVec 4) (e : EpNum) (arg : BitVec 24) :
    (cmdWord op e arg).extractLsb' 28 4 = op := by
  apply BitVec.eq_of_getLsbD_eq
  intro i hi
  simp only [cmdWord, BitVec.getLsbD_extractLsb', BitVec.getLsbD_append, hi, decide_true, Bool.true_and]
  interval_cases i <;> rfl

@[simp] theorem cmdWord_epField (op : BitVec 4) (e : EpNum) (arg : BitVec 24) : epField (cmdWord op e arg) = e := by
  rw [epField, show (cmdWord op e arg).extractLsb' 24 4 = EpNum.toBits e from ?_, EpNum.ofBits_toBits]
  apply BitVec.eq_of_getLsbD_eq
  intro i hi
  simp only [cmdWord, BitVec.getLsbD_extractLsb', BitVec.getLsbD_append, hi, decide_true, Bool.true_and]
  interval_cases i <;> rfl

@[simp] theorem cmdWord_arg (op : BitVec 4) (e : EpNum) (arg : BitVec 24) :
    (cmdWord op e arg).extractLsb' 0 24 = arg := by
  apply BitVec.eq_of_getLsbD_eq
  intro i hi
  simp only [cmdWord, BitVec.getLsbD_extractLsb', BitVec.getLsbD_append, hi, decide_true, Bool.true_and]
  interval_cases i <;> rfl

/-- A field inside the argument. -/
theorem cmdWord_argField (op : BitVec 4) (e : EpNum) (arg : BitVec 24) (start len : Nat) (h : start + len ≤ 24) :
    (cmdWord op e arg).extractLsb' start len = arg.extractLsb' start len := by
  apply BitVec.eq_of_getLsbD_eq
  intro i hi
  simp only [cmdWord, BitVec.getLsbD_extractLsb', BitVec.getLsbD_append, hi, decide_true, Bool.true_and]
  rw [if_pos (by omega)]

/-- Every command word is put together from its three fields. -/
theorem cmdWord_fields (w : Word) : cmdWord (w.extractLsb' 28 4) (epField w) (w.extractLsb' 0 24) = w := by
  rw [cmdWord, epField, EpNum.toBits_ofBits]
  apply BitVec.eq_of_getLsbD_eq
  intro i hi
  simp only [BitVec.getLsbD_append, BitVec.getLsbD_extractLsb']
  interval_cases i <;> simp

/-! ### Rows -/

theorem CmdRow.selects_iff (r : CmdRow) (w : Word) : r.selects w = true ↔ w &&& r.mask = r.mtch := by
  simp [CmdRow.selects]

/-- A row that selects a word fixes its operation code. -/
theorem op_of_and {w m v : Word} (hm : m.extractLsb' 28 4 = 0xF) (h : w &&& m = v) :
    w.extractLsb' 28 4 = v.extractLsb' 28 4 := by
  subst h
  rw [BitVec.extractLsb'_and, hm]
  exact (BitVec.and_allOnes).symm

/-- A row with another operation code does not select the word. -/
theorem CmdRow.not_selects_of_op {r : CmdRow} {w : Word} (hm : r.mask.extractLsb' 28 4 = 0xF)
    (h : w.extractLsb' 28 4 ≠ r.mtch.extractLsb' 28 4) : r.selects w = false := by
  rw [Bool.eq_false_iff]
  intro hs
  exact h (op_of_and hm ((r.selects_iff w).mp hs))

/-- Bit by bit: where the mask has a bit, the word agrees with the match. -/
theorem CmdRow.selects_iff_getLsbD (r : CmdRow) (w : Word) :
    r.selects w = true ↔ ∀ i < 32, (w.getLsbD i && r.mask.getLsbD i) = r.mtch.getLsbD i := by
  rw [r.selects_iff]
  constructor
  · intro h i _; rw [← h, BitVec.getLsbD_and]
  · intro h; apply BitVec.eq_of_getLsbD_eq; intro i hi; rw [BitVec.getLsbD_and]; exact h i hi

/-- A command word selects a row when it has the row's operation code, and its endpoint number and argument pass the mask. -/
theorem CmdRow.selects_cmdWord (r : CmdRow) (op : BitVec 4) (e : EpNum) (arg : BitVec 24)
    (hm : r.mask.extractLsb' 28 4 = 0xF) (ho : r.mtch.extractLsb' 28 4 = op)
    (he : e.toBits &&& r.mask.extractLsb' 24 4 = r.mtch.extractLsb' 24 4)
    (ha : arg &&& r.mask.extractLsb' 0 24 = r.mtch.extractLsb' 0 24) : r.selects (cmdWord op e arg) = true := by
  have hf : epField (cmdWord op e arg &&& r.mask) = epField r.mtch := by
    simp only [epField]
    rw [BitVec.extractLsb'_and, ← he]
    congr 2
    have := congrArg EpNum.toBits (cmdWord_epField op e arg)
    rwa [epField, EpNum.toBits_ofBits] at this
  rw [CmdRow.selects_iff, ← cmdWord_fields (_ &&& _), ← cmdWord_fields r.mtch, hf]
  congr 1
  · rw [BitVec.extractLsb'_and, cmdWord_op, hm, ho]; exact BitVec.and_allOnes
  · rw [BitVec.extractLsb'_and, cmdWord_arg, ha]

/-- A selected word is the command word of the row's operation code, its endpoint number and its argument. -/
theorem CmdRow.eq_cmdWord_of_selects {r : CmdRow} {w : Word} (h : r.selects w = true)
    (hm : r.mask.extractLsb' 28 4 = 0xF) :
    w = cmdWord (r.mtch.extractLsb' 28 4) (epField w) (w.extractLsb' 0 24) := by
  rw [← op_of_and hm ((r.selects_iff w).mp h), cmdWord_fields]

/-! ### The setup packet -/

@[simp] theorem setupWord_bmField (bm br : Byte) (r : ReqArgs) : bmField (setupWord bm br r) = bm := by
  apply BitVec.eq_of_getLsbD_eq
  intro i hi
  simp only [bmField, setupWord, BitVec.getLsbD_extractLsb', BitVec.getLsbD_append, hi, decide_true, Bool.true_and]
  interval_cases i <;> rfl

@[simp] theorem setupWord_brField (bm br : Byte) (r : ReqArgs) : brField (setupWord bm br r) = br := by
  apply BitVec.eq_of_getLsbD_eq
  intro i hi
  simp only [brField, setupWord, BitVec.getLsbD_extractLsb', BitVec.getLsbD_append, hi, decide_true, Bool.true_and]
  interval_cases i <;> rfl

@[simp] theorem setupWord_argFields (bm br : Byte) (r : ReqArgs) : argFields (setupWord bm br r) = r := by
  obtain ⟨v, x, l⟩ := r
  simp only [argFields, ReqArgs.mk.injEq]
  refine ⟨?_, ?_, ?_⟩ <;>
  · apply BitVec.eq_of_getLsbD_eq
    intro i hi
    simp only [setupWord, BitVec.getLsbD_extractLsb', BitVec.getLsbD_append, hi, decide_true, Bool.true_and]
    interval_cases i <;> rfl

/-- Every setup packet is put together from its fields. -/
theorem setupWord_fields (s : BitVec 64) : setupWord (bmField s) (brField s) (argFields s) = s := by
  apply BitVec.eq_of_getLsbD_eq
  intro i hi
  simp only [setupWord, bmField, brField, argFields, BitVec.getLsbD_append, BitVec.getLsbD_extractLsb']
  interval_cases i <;> simp

/-- The low half of a setup packet is `bRequest` above `bmRequestType`, as spec/opcode_table.json matches it. -/
theorem setup_low_eq_iff (s : BitVec 64) (bm br : Byte) :
    s.extractLsb' 0 16 = br ++ bm ↔ brField s = br ∧ bmField s = bm := by
  have h : s.extractLsb' 0 16 = brField s ++ bmField s := by
    apply BitVec.eq_of_getLsbD_eq
    intro i hi
    simp only [bmField, brField, BitVec.getLsbD_append, BitVec.getLsbD_extractLsb', hi, decide_true, Bool.true_and]
    interval_cases i <;> simp
  rw [h]
  constructor
  · intro he
    have h1 := congrArg (fun v : BitVec 16 => v.extractLsb' 8 8) he
    have h2 := congrArg (fun v : BitVec 16 => v.extractLsb' 0 8) he
    have a (x y : Byte) : (x ++ y : BitVec 16).extractLsb' 8 8 = x := by
      apply BitVec.eq_of_getLsbD_eq
      intro i hi
      simp only [BitVec.getLsbD_extractLsb', BitVec.getLsbD_append, hi, decide_true, Bool.true_and]
      interval_cases i <;> rfl
    have b (x y : Byte) : (x ++ y : BitVec 16).extractLsb' 0 8 = y := by
      apply BitVec.eq_of_getLsbD_eq
      intro i hi
      simp only [BitVec.getLsbD_extractLsb', BitVec.getLsbD_append, hi, decide_true, Bool.true_and]
      interval_cases i <;> rfl
    exact ⟨by simpa only [a] using h1, by simpa only [b] using h2⟩
  · rintro ⟨rfl, rfl⟩; rfl

/-! ### Selection by the drivers -/

/-- A pair the DFU driver does not list falls to its last row. -/
theorem decodeDfu_of_not_listed {c : RequestCodes} {bm br : Byte} (h : (br, bm) ∉ dfuListed c) (r : ReqArgs) :
    decodeDfu c bm br r = .dfuReject bm br r := by
  simp only [dfuListed, List.mem_cons, List.not_mem_nil, Prod.mk.injEq, not_or, or_false] at h
  obtain ⟨h1, h2, h3, h4, h5, h6, h7⟩ := h
  rw [decodeDfu, if_neg h2, if_neg h4, if_neg h6, if_neg h5, if_neg h7, if_neg h3, if_neg h1]

/-- A pair the CDC driver does not list falls to its last row. -/
theorem decodeCdc_of_not_listed {c : RequestCodes} {bm br : Byte} (h : (br, bm) ∉ cdcListed c) (r : ReqArgs) :
    decodeCdc c bm br r = .cdcReject bm br r := by
  simp only [cdcListed, List.mem_cons, List.not_mem_nil, Prod.mk.injEq, not_or, or_false] at h
  obtain ⟨h1, h2, h3⟩ := h
  rw [decodeCdc, if_neg h2, if_neg h1, if_neg h3]

end Sys2Proof
end

