-- ==== Sys2Proof/Laws/Memory.lean ====
section
/-! SUPPORT. The flash: reads after writes, and every write keeps the canonical form. -/

namespace Sys2Proof.Machine.Memory

@[simp] theorem bytesOfWord_length (w : Word) : (bytesOfWord w).length = 4 := rfl

theorem readByte_writeByte (a a' : Nat) (b : Byte) (m : List Host.Cell) :
    readByte a' (writeByte a b m) = if a' = a then some b else readByte a' m := by
  induction m with
  | nil => rfl
  | cons c rest ih =>
    obtain ⟨x, v⟩ := c
    simp only [writeByte]
    split
    · simp [readByte]
    · split
      · next h => subst h; simp [readByte]; split <;> rfl
      · simp only [readByte, ih]
        split <;> split <;> simp_all

theorem readByte_writeByte_same (a : Nat) (b : Byte) (m : List Host.Cell) :
    readByte a (writeByte a b m) = some b := by simp [readByte_writeByte]

theorem readByte_writeByte_of_ne {a a' : Nat} (b : Byte) (m : List Host.Cell) (h : a' ≠ a) :
    readByte a' (writeByte a b m) = readByte a' m := by simp [readByte_writeByte, h]

/-- Bytes outside the written range read as before. -/
theorem readByte_writeBytes_of_outside (bs : List Byte) (a a' : Nat) (m : List Host.Cell)
    (h : a' < a ∨ a + bs.length ≤ a') : readByte a' (writeBytes a bs m) = readByte a' m := by
  induction bs generalizing a m with
  | nil => rfl
  | cons b bs ih =>
    simp only [writeBytes, List.length_cons] at *
    rw [ih _ _ (by omega), readByte_writeByte_of_ne _ _ (by omega)]

/-- Byte `i` of the written range reads as the `i`th byte written. -/
theorem readByte_writeBytes (bs : List Byte) (a i : Nat) (m : List Host.Cell) (h : i < bs.length) :
    readByte (a + i) (writeBytes a bs m) = bs[i]? := by
  induction bs generalizing a i m with
  | nil => simp at h
  | cons b bs ih =>
    cases i with
    | zero =>
      simp only [writeBytes, Nat.add_zero]
      rw [readByte_writeBytes_of_outside _ _ _ _ (by omega), readByte_writeByte_same]
      rfl
    | succ i =>
      simp only [writeBytes, List.length_cons] at *
      rw [show a + (i + 1) = a + 1 + i by omega, ih _ _ _ (by omega)]
      simp

theorem readByte_writeWord_of_outside (w : Word) (a a' : Nat) (m : List Host.Cell) (h : a' < a ∨ a + 4 ≤ a') :
    readByte a' (writeWord a w m) = readByte a' m :=
  readByte_writeBytes_of_outside _ _ _ _ (by simpa using h)

/-- Bytes outside the words written read as before. -/
theorem readByte_writeWords_of_outside (ws : List Word) (a a' : Nat) (m : List Host.Cell)
    (h : a' < a ∨ a + 4 * ws.length ≤ a') : readByte a' (writeWords a ws m) = readByte a' m := by
  induction ws generalizing a m with
  | nil => rfl
  | cons w ws ih =>
    simp only [writeWords, List.length_cons] at *
    rw [ih _ _ (by omega), readByte_writeWord_of_outside _ _ _ _ (by omega)]

/-- Byte `j` of word `k` of the words written reads as that byte of that word. -/
theorem readByte_writeWords (ws : List Word) (a k j : Nat) (m : List Host.Cell) (hk : k < ws.length) (hj : j < 4) :
    readByte (a + 4 * k + j) (writeWords a ws m) = (bytesOfWord ws[k])[j]? := by
  induction ws generalizing a k m with
  | nil => simp at hk
  | cons w ws ih =>
    cases k with
    | zero =>
      simp only [writeWords, Nat.mul_zero, Nat.add_zero]
      rw [readByte_writeWords_of_outside _ _ _ _ (by omega)]
      exact readByte_writeBytes _ _ _ _ (by simpa using hj)
    | succ k =>
      have hk' : k < ws.length := by simpa using hk
      simp only [writeWords]
      rw [show a + 4 * (k + 1) + j = a + 4 + 4 * k + j by omega, ih _ _ _ hk']
      simp

/-! ### The canonical form -/

theorem mem_writeByte {a : Nat} {b : Byte} {m : List Host.Cell} {c : Host.Cell} (h : c ∈ writeByte a b m) :
    c = (a, b) ∨ c ∈ m := by
  induction m with
  | nil => simpa [writeByte] using h
  | cons d rest ih =>
    obtain ⟨x, v⟩ := d
    simp only [writeByte] at h
    split at h
    · simpa using h
    · split at h
      · rcases List.mem_cons.mp h with h | h
        · exact .inl h
        · exact .inr (List.mem_cons_of_mem _ h)
      · rcases List.mem_cons.mp h with h | h
        · exact .inr (h ▸ List.mem_cons_self)
        · rcases ih h with h | h
          · exact .inl h
          · exact .inr (List.mem_cons_of_mem _ h)

theorem writeByte_sorted {a : Nat} {b : Byte} {m : List Host.Cell} (h : (m.map Prod.fst).Pairwise (· < ·)) :
    ((writeByte a b m).map Prod.fst).Pairwise (· < ·) := by
  induction m with
  | nil => simp [writeByte]
  | cons d rest ih =>
    obtain ⟨x, v⟩ := d
    simp only [List.map_cons, List.pairwise_cons] at h
    simp only [writeByte]
    split
    · next hlt =>
      simp only [List.map_cons, List.pairwise_cons]
      refine ⟨?_, h⟩
      intro y hy
      rcases List.mem_cons.mp hy with rfl | hy
      · exact hlt
      · exact Nat.lt_trans hlt (h.1 y hy)
    · split
      · next heq => subst heq; simpa [List.pairwise_cons] using h
      · next hle hne =>
        simp only [List.map_cons, List.pairwise_cons]
        refine ⟨?_, ih h.2⟩
        intro y hy
        obtain ⟨c, hc, rfl⟩ := List.mem_map.mp hy
        rcases mem_writeByte hc with rfl | hc
        · exact Nat.lt_of_le_of_ne (Nat.le_of_not_lt hle) (Ne.symm hne)
        · exact h.1 _ (List.mem_map_of_mem hc)

theorem wf_nil : wf [] := ⟨List.Pairwise.nil, fun _ h => by cases h⟩

/-- Writing a byte inside the address space keeps the canonical form. -/
theorem wf_writeByte {a : Nat} (b : Byte) {m : List Host.Cell} (h : wf m) (ha : a < 2 ^ 32) : wf (writeByte a b m) := by
  refine ⟨writeByte_sorted h.1, fun c hc => ?_⟩
  rcases mem_writeByte hc with rfl | hc
  · exact ha
  · exact h.2 c hc

theorem wf_writeBytes (bs : List Byte) {a : Nat} {m : List Host.Cell} (h : wf m) (ha : a + bs.length ≤ 2 ^ 32) :
    wf (writeBytes a bs m) := by
  induction bs generalizing a m with
  | nil => exact h
  | cons b bs ih =>
    simp only [List.length_cons] at ha
    exact ih (wf_writeByte b h (by omega)) (by omega)

theorem wf_writeWord (w : Word) {a : Nat} {m : List Host.Cell} (h : wf m) (ha : a + 4 ≤ 2 ^ 32) :
    wf (writeWord a w m) := wf_writeBytes _ h (by simpa using ha)

/-- Writing words inside the address space keeps the canonical form. -/
theorem wf_writeWords (ws : List Word) {a : Nat} {m : List Host.Cell} (h : wf m) (ha : a + 4 * ws.length ≤ 2 ^ 32) :
    wf (writeWords a ws m) := by
  induction ws generalizing a m with
  | nil => exact h
  | cons w ws ih =>
    simp only [List.length_cons] at ha
    exact ih (wf_writeWord w h (by omega)) (by omega)

end Sys2Proof.Machine.Memory
end

