-- ==== Sys2Proof/Laws/Handlers.lean ====
section
/-! SUPPORT. What one part of a handler can do, that every part keeps the invariant, and that a handler's run does
(spec/42_control_sequencer.md, spec/44_dfu_controller.md). -/

namespace Sys2Proof.Machine

/-! ### The DFU controller's record -/

@[simp] theorem storeWords_length (ws : List Word) (blk : List Word) (c : Nat) :
    (storeWords blk c ws).length = blk.length := by
  induction ws generalizing blk c with
  | nil => rfl
  | cons w ws ih => simp [storeWords, ih]

/-- Words outside the copied range keep their value (spec/10_state.md R43). -/
theorem getElem?_storeWords_of_outside (ws : List Word) (blk : List Word) (c i : Nat) (h : i < c ∨ c + ws.length ≤ i) :
    (storeWords blk c ws)[i]? = blk[i]? := by
  induction ws generalizing blk c with
  | nil => rfl
  | cons w ws ih =>
    simp only [storeWords, List.length_cons] at *
    rw [ih _ _ (by omega), List.getElem?_set_ne (by omega)]

/-- Word `i` of the payload lies at the cursor plus `i` (spec/44_dfu_controller.md R216). -/
theorem getElem?_storeWords (ws : List Word) (blk : List Word) (c i : Nat) (h : i < ws.length)
    (hb : c + ws.length ≤ blk.length) : (storeWords blk c ws)[c + i]? = ws[i]? := by
  induction ws generalizing blk c i with
  | nil => simp at h
  | cons w ws ih =>
    simp only [storeWords, List.length_cons] at *
    cases i with
    | zero =>
      rw [getElem?_storeWords_of_outside _ _ _ _ (by omega)]
      simp only [Nat.add_zero, List.getElem?_cons_zero]
      rw [List.getElem?_set_self (by omega)]
    | succ i =>
      rw [show c + (i + 1) = c + 1 + i by omega, ih _ _ _ (by omega) (by simp; omega)]
      simp

theorem wordsOfBytes_length (n : Nat) (data : List Byte) (h : data.length = 4 * n) :
    (wordsOfBytes data).length = n := by
  induction n generalizing data with
  | zero => have : data = [] := List.eq_nil_of_length_eq_zero (by omega); subst this; rfl
  | succ n ih =>
    match data, h with
    | b0 :: b1 :: b2 :: b3 :: rest, h =>
      simp only [List.length_cons] at h
      simp only [wordsOfBytes, List.length_cons]
      rw [ih rest (by omega)]

theorem DfuInv.fail {p : Params} {d : Dfu} (h : DfuInv p d) (st : DfuStatus) (hp : d.flushPending = false)
    (hb : d.booted = false) : DfuInv p { d with bState := .dfuERROR, bStatus := st } :=
  ⟨h.cursor, fun h' => by simp [hp] at h', h.target, h.iString, h.pollTimeout, fun _ => rfl,
    ⟨(fun h' => by cases h'), fun h' => by simp [hb] at h'⟩, h.block⟩

theorem DfuInv.idle {p : Params} {d : Dfu} (h : DfuInv p d) (hb : d.booted = false) :
    DfuInv p { d with bState := .dfuIDLE, bStatus := .ok, cursor := 0, flushPending := false, targetAddr := p.flashBase } :=
  ⟨Nat.zero_lt_of_lt h.cursor, (fun h' => by cases h'), ⟨0, by simp⟩, h.iString, h.pollTimeout,
    fun h' => absurd rfl h', ⟨(fun h' => by cases h'), fun h' => by simp [hb] at h'⟩, h.block⟩

theorem acceptsDnload_iff {b : DfuState} : acceptsDnload b = true ↔ b = .dfuIDLE ∨ b = .dfuDNLOAD_IDLE := by
  simp [acceptsDnload]

/-- No flush is pending and no error is recorded where a DNLOAD is accepted (spec/44_dfu_controller.md R240). -/
theorem DfuInv.accepting {p : Params} {d : Dfu} (h : DfuInv p d) (ha : acceptsDnload d.bState = true) :
    d.flushPending = false ∧ d.bStatus = .ok := by
  rw [acceptsDnload_iff] at ha
  constructor
  · by_contra hf
    have := (h.pending (by simpa using hf)).2
    rcases ha with ha | ha <;> simp [this] at ha
  · by_contra hs
    have := h.status hs
    rcases ha with ha | ha <;> simp [this] at ha

theorem DfuInv.buffered {p : Params} {d : Dfu} (h : DfuInv p d) (ha : acceptsDnload d.bState = true)
    (hb : d.booted = false) (n : Nat) (data : List Byte) (hn : d.cursor + n ≤ p.blockWords) (hl : 1 ≤ p.blockWords) :
    DfuInv p { bufferWords p n data d with bState := .dfuDNLOAD_SYNC } := by
  obtain ⟨hf, hs⟩ := h.accepting ha
  unfold bufferWords
  simp only
  split
  · exact ⟨hl, fun _ => ⟨rfl, rfl⟩, h.target, h.iString, h.pollTimeout, fun h' => absurd hs h',
      ⟨(fun h' => by cases h'), fun h' => by simp [hb] at h'⟩, by simpa using h.block⟩
  · next hne =>
    exact ⟨by simp only; omega, fun h' => by simp [hf] at h', h.target, h.iString, h.pollTimeout,
      fun h' => absurd hs h', ⟨(fun h' => by cases h'), fun h' => by simp [hb] at h'⟩, by simpa using h.block⟩

/-- Replacing the DFU controller's record. -/
theorem BlockInv.setDfu {s : State} (h : BlockInv s) {d : Dfu} (hd : DfuInv s.params d) : BlockInv (s.setDfu d) :=
  ⟨h.legal, h.endpoints, h.absent, h.stalls, hd, h.flash, h.faults⟩

theorem dnloadStore_keeps {s : State} (h : BlockInv s) (hb : s.dfu.booted = false) (n : Nat)
    (ha : acceptsDnload s.dfu.bState = true) : BlockInv (dnloadStore n s) := by
  unfold dnloadStore; split
  · exact h.setDfu (h.dfu.fail _ (h.dfu.accepting ha).1 hb)
  · exact h.setDfu (h.dfu.buffered ha hb n _ (by omega) h.legal.2.2.2.1)

theorem dnloadEnd_keeps {s : State} (h : BlockInv s) (hb : s.dfu.booted = false)
    (ha : acceptsDnload s.dfu.bState = true) : BlockInv (dnloadEnd s) := by
  obtain ⟨hf, hs⟩ := h.dfu.accepting ha
  unfold dnloadEnd; split
  · exact h.setDfu (h.dfu.fail _ hf hb)
  · exact h.setDfu ⟨h.dfu.cursor, fun h' => by simp [hf] at h', h.dfu.target, h.dfu.iString, h.dfu.pollTimeout,
      fun h' => absurd hs h', ⟨(fun h' => by cases h'), fun h' => by simp [hb] at h'⟩, h.dfu.block⟩

theorem enterDfuIdle_keeps {s : State} (h : BlockInv s) (hb : s.dfu.booted = false) : BlockInv s.enterDfuIdle :=
  h.setDfu (h.dfu.idle hb)

theorem timeout_keeps {s : State} (h : BlockInv s) : BlockInv (raise .dataStageTimeout s) := by
  have h1 := h.stall h.hasEp_zero
  have h2 := h1.setEp (e := 0) (x := { (s.stall 0).ep 0 with q := [] }) h1.hasEp_zero (h1.endpoints 0).emptied rfl
  have h3 := h2.setPcb (p := (((s.stall 0).pcb.clrFlags flagSetupDataAvail).clrPending 0)) (fun e => by simp)
  exact h3.congr rfl rfl rfl rfl rfl rfl

/-! ### What MAIN still has to do -/

theorem MainOp.suits_of_not_endsDfu {op : MainOp} (h : op.endsDfu = false) (b : DfuState) : op.suits b = true := by
  cases op <;> first | rfl | cases h

theorem filter_endsDfu_eq_nil {ops : List MainOp} (h : ∀ op ∈ ops, op.endsDfu = false) :
    ops.filter MainOp.endsDfu = [] := List.filter_eq_nil_iff.mpr fun op ho => by simp [h op ho]

/-- Going on with new parts, none of which ends a DFU request, before what is left. -/
theorem MainInv.goOn {s t : State} {op : MainOp} {rest : List MainOp} (h : MainInv s) (hm : s.main = op :: rest)
    (hd : t.dfu = s.dfu) (new : List MainOp) (hn : ∀ o ∈ new, o.endsDfu = false) : MainInv (t.setMain (new ++ rest)) where
  oneEnd := by
    have := h.oneEnd
    rw [hm, List.filter_cons] at this
    rw [State.setMain_main, List.filter_append, filter_endsDfu_eq_nil hn, List.nil_append]
    split at this
    · simp only [List.length_cons] at this; omega
    · exact this
  suits o ho := by
    rw [State.setMain_main] at ho
    rw [State.setMain_dfu, hd]
    rcases List.mem_append.mp ho with ho | ho
    · exact MainOp.suits_of_not_endsDfu (hn o ho) _
    · exact h.suits o (hm ▸ List.mem_cons_of_mem _ ho)
  handling h' := by
    rw [State.setMain_handling, Bool.and_eq_true] at h'
    intro he; rw [State.setMain_main] at he; simp [he] at h'

/-- After the part that ends a DFU request nothing that depends on the DFU state is left. -/
theorem MainInv.ended {s t : State} {op : MainOp} {rest : List MainOp} (h : MainInv s) (hm : s.main = op :: rest)
    (he : op.endsDfu = true) : MainInv (t.setMain rest) := by
  have h1 := h.oneEnd
  rw [hm, List.filter_cons_of_pos he, List.length_cons] at h1
  have hr : rest.filter MainOp.endsDfu = [] := List.eq_nil_of_length_eq_zero (by omega)
  refine ⟨by rw [State.setMain_main, hr]; exact Nat.zero_le _, fun o ho => ?_, fun h' => ?_⟩
  · have := List.filter_eq_nil_iff.mp hr o ho
    exact MainOp.suits_of_not_endsDfu (by simpa using this) _
  · rw [State.setMain_handling, Bool.and_eq_true] at h'
    rw [State.setMain_main]
    intro hn; simp [hn] at h'

theorem MainInv.nothing (t : State) (hh : t.handling = false) (hm : t.main = []) : MainInv t :=
  ⟨by simp [hm], fun o ho => by simp [hm] at ho, fun h' => by simp [hh] at h'⟩

/-- The invariant while the block runs. -/
structure LiveInv (s : State) : Prop where
  inv : Inv s
  live : s.dfu.booted = false

theorem BlockInv.setMain {s : State} (h : BlockInv s) (ops : List MainOp) : BlockInv (s.setMain ops) :=
  h.congr rfl rfl rfl rfl rfl rfl

/-- A part that is a FIFO command, or touches neither the DFU controller nor the flash. -/
theorem LiveInv.goOn {s t : State} {op : MainOp} {rest : List MainOp} (h : LiveInv s) (hm : s.main = op :: rest)
    (hb : BlockInv t) (hd : t.dfu = s.dfu) (new : List MainOp) (hn : ∀ o ∈ new, o.endsDfu = false) :
    LiveInv (t.setMain (new ++ rest)) :=
  ⟨⟨hb.setMain _, h.inv.main.goOn hm hd new hn⟩, by rw [State.setMain_dfu, hd]; exact h.live⟩

theorem LiveInv.next {s t : State} {op : MainOp} {rest : List MainOp} (h : LiveInv s) (hm : s.main = op :: rest)
    (hb : BlockInv t) (hd : t.dfu = s.dfu) : LiveInv (t.setMain rest) :=
  h.goOn hm hb hd [] (fun _ ho => by cases ho)

theorem LiveInv.ended {s t : State} {op : MainOp} {rest : List MainOp} (h : LiveInv s) (hm : s.main = op :: rest)
    (he : op.endsDfu = true) (hb : BlockInv t) (hl : t.dfu.booted = false) : LiveInv (t.setMain rest) :=
  ⟨⟨hb.setMain _, h.inv.main.ended hm he⟩, hl⟩

theorem dnloadStore_booted (n : Nat) (s : State) : (dnloadStore n s).dfu.booted = s.dfu.booted := by
  unfold dnloadStore bufferWords; split
  · rfl
  · simp only [State.setDfu_dfu]; split <;> rfl

theorem dnloadEnd_booted (s : State) : (dnloadEnd s).dfu.booted = s.dfu.booted := by
  unfold dnloadEnd; split <;> rfl

theorem waitIteration_keeps {s : State} {rest : List MainOp} {len i : Nat} (h : LiveInv s)
    (hm : s.main = .waitLoop len i :: rest) : LiveInv (waitIteration len i rest s) := by
  unfold waitIteration
  split
  · split
    · exact ⟨⟨timeout_keeps h.inv.block, MainInv.nothing _ (by simp [raise, State.setMain]) rfl⟩, h.live⟩
    · exact h.goOn hm (cmdDrain_keeps h.inv.block 0) (cmdDrain_sameBut 0 s).dfu [.waitLoop len (i + 1)]
        (fun o ho => by rw [List.mem_singleton] at ho; subst ho; rfl)
  · exact h.next hm (h.inv.block.congr rfl rfl rfl rfl rfl rfl) rfl

/-- Keeping a byte touches nothing but the handler's bytes and the count of free values. -/
theorem keepByte_same (t : State) :
    (keepByte t).params = t.params ∧ (keepByte t).eps = t.eps ∧ (keepByte t).pcb = t.pcb ∧ (keepByte t).dfu = t.dfu ∧
      (keepByte t).flash = t.flash ∧ (keepByte t).faults = t.faults ∧ (keepByte t).flashAnswers = t.flashAnswers ∧
      (keepByte t).rxHandler = t.rxHandler := by
  unfold keepByte; split <;> exact ⟨rfl, rfl, rfl, rfl, rfl, rfl, rfl, rfl⟩

/-- Every part of a handler keeps the invariant, and none makes the boot jump. -/
theorem mainOp_keeps {s t : State} {op : MainOp} {rest : List MainOp} (h : LiveInv s) (hm : s.main = op :: rest)
    (ht : mainOp op rest s = some t) : LiveInv t := by
  have hB := h.inv.block
  have hsuit := h.inv.main.suits op (hm ▸ List.mem_cons_self)
  cases op with
  | write e b => cases ht; exact h.next hm (cmdWrite_keeps hB e b) (cmdWrite_sameBut e b s).dfu
  | read0 =>
    cases ht
    have hk := keepByte_same (cmdRead 0 s)
    exact h.next hm ((cmdRead_keeps hB 0).congr hk.1 hk.2.1 hk.2.2.1 hk.2.2.2.1 hk.2.2.2.2.1 hk.2.2.2.2.2.1)
      (hk.2.2.2.1.trans (cmdRead_sameBut 0 s).dfu)
  | flush e =>
    obtain ⟨u, hu, rfl⟩ := Option.map_eq_some_iff.mp ht
    exact h.next hm (cmdFlush_keeps hB hu) (cmdFlush_sameBut hu).dfu
  | zlpAck =>
    obtain ⟨u, hu, rfl⟩ := Option.map_eq_some_iff.mp ht
    exact h.next hm (cmdZlpAck_keeps hB hu) (cmdZlpAck_sameBut hu).dfu
  | flagClr mask => cases ht; exact h.next hm (cmdFlagClr_keeps hB mask) rfl
  | pendClr e => cases ht; exact h.next hm (cmdPendClr_keeps hB e) (cmdPendClr_sameBut e s).dfu
  | configure e ty dir mps =>
    cases ht; exact h.next hm (cmdConfigure_keeps hB e ty dir mps) (cmdConfigure_sameBut e ty dir mps s).dfu
  | waitEnter len =>
    cases ht
    exact h.goOn (t := { s with ep0Masked := true }) hm (hB.congr rfl rfl rfl rfl rfl rfl) rfl [.waitLoop len 0]
      (fun o ho => by rw [List.mem_singleton] at ho; subst ho; rfl)
  | waitLoop len i => cases ht; exact waitIteration_keeps h hm
  | clearIfDrained =>
    simp only [mainOp] at ht
    cases ht
    split
    · exact h.goOn hm hB rfl [.flagClr flagSetupDataAvail, .pendClr 0]
        (fun o ho => by simp only [List.mem_cons, List.not_mem_nil, or_false] at ho; rcases ho with rfl | rfl <;> rfl)
    · exact h.next hm hB rfl
  | sendLoop =>
    simp only [mainOp] at ht
    cases ht
    split
    · exact h.goOn hm hB rfl [.flush 0, .sendLoop]
        (fun o ho => by simp only [List.mem_cons, List.not_mem_nil, or_false] at ho; rcases ho with rfl | rfl <;> rfl)
    · exact h.next hm hB rfl
  | dnloadStore n =>
    cases ht
    exact h.ended hm rfl (dnloadStore_keeps hB h.live n hsuit) (by rw [dnloadStore_booted]; exact h.live)
  | dnloadEnd =>
    cases ht
    exact h.ended hm rfl (dnloadEnd_keeps hB h.live hsuit) (by rw [dnloadEnd_booted]; exact h.live)
  | clrstatusEnd => cases ht; exact h.ended hm rfl (enterDfuIdle_keeps hB h.live) h.live
  | abortEnd => cases ht; exact h.ended hm rfl (enterDfuIdle_keeps hB h.live) h.live
  | lineCodingStore => cases ht; exact h.next hm (hB.congr rfl rfl rfl rfl rfl rfl) rfl

/-- The schedule is no part of the invariant. -/
theorem LiveInv.withSched {s : State} (h : LiveInv s) (sched : List Slot) : LiveInv { s with sched := sched } :=
  ⟨⟨h.inv.block.congr rfl rfl rfl rfl rfl rfl, h.inv.main.oneEnd, h.inv.main.suits, h.inv.main.handling⟩, h.live⟩

theorem mainStep_keeps {s t : State} (h : LiveInv s) (ht : mainStep s = some t) : LiveInv t := by
  unfold mainStep at ht
  split at ht
  · cases ht
  · next hm => exact mainOp_keeps h hm ht

theorem agentStep_keeps_live {s : State} (h : LiveInv s) (a : AgentStep) : LiveInv (agentStep a s) :=
  ⟨agentStep_keeps h.inv a, by rw [(agentStep_mainOwned a s).dfu]; exact h.live⟩

/-- However long a handler runs and whoever steps in its gaps, the invariant stays. -/
theorem drive_keeps (fuel : Nat) {s : State} (h : LiveInv s) : LiveInv (drive fuel s) := by
  induction fuel generalizing s with
  | zero => exact h
  | succ fuel ih =>
    unfold drive
    split
    · exact h
    · split
      · exact ih (agentStep_keeps_live (h.withSched _) _)
      · next rest _ =>
        refine ih ?_
        cases hs : mainStep { s with sched := rest } with
        | none => exact h.withSched rest
        | some t => exact mainStep_keeps (h.withSched rest) hs
      · split
        · next hs => exact ih (mainStep_keeps h hs)
        · exact h

end Sys2Proof.Machine
end

