-- ==== Sys2Proof/Laws/Flash.lean ====
section
/-! SUPPORT. What a block flush can do, once (spec/44_dfu_controller.md R232, R233, R235 to R237): which answers lead where,
which bytes of the flash change, and that it keeps the invariant of the block. -/

namespace Sys2Proof.Machine

@[simp] theorem drawnWords_length (n start : Nat) : (drawnWords n start).length = n := by simp [drawnWords]

/-- A primitive writes as many words as it is to leave, whatever it answers, and touches nothing but the flash and the count
of free values. -/
theorem programFlash_eq (ok : Bool) (ws : List Word) (s : State) :
    ∃ vs d, vs.length = ws.length ∧ (ok = true → vs = ws) ∧
      programFlash ok ws s = { s with flash := Memory.writeWords s.dfu.targetAddr.toNat vs s.flash, draws := d } := by
  cases ok with
  | true => exact ⟨ws, s.draws, rfl, fun _ => rfl, rfl⟩
  | false => exact ⟨drawnWords ws.length s.draws, s.draws + ws.length, by simp, nofun, rfl⟩

theorem takeAnswer_eq (s : State) :
    ∃ an d, takeAnswer s = { s with flashAnswers := an, draws := d } ∧ an = s.flashAnswers.tail := by
  unfold takeAnswer
  split
  · next h => exact ⟨s.flashAnswers, _, rfl, by rw [List.isEmpty_iff] at h; rw [h]; rfl⟩
  · exact ⟨_, s.draws, rfl, rfl⟩

/-- The erase, and what it answered. -/
theorem flashErase_eq (s : State) :
    ∃ vs d, vs.length = s.params.blockWords ∧
      flashErase s = { s with
        flash := Memory.writeWords s.dfu.targetAddr.toNat vs s.flash
        flashAnswers := s.flashAnswers.tail, draws := d } := by
  obtain ⟨an, d, h, rfl⟩ := takeAnswer_eq s
  obtain ⟨vs, d', hl, -, hp⟩ :=
    programFlash_eq (flashAnswer s) (List.replicate s.params.blockWords s.params.erasedWord) (takeAnswer s)
  refine ⟨vs, d', by simpa using hl, ?_⟩
  rw [flashErase, hp, h]

/-- The write, and what it answered: on success the words of the block buffer. -/
theorem flashWrite_eq (s : State) :
    ∃ vs d, vs.length = s.dfu.blk.length ∧ (flashAnswer s = true → vs = s.dfu.blk) ∧
      flashWrite s = { s with
        flash := Memory.writeWords s.dfu.targetAddr.toNat vs s.flash
        flashAnswers := s.flashAnswers.tail, draws := d } := by
  obtain ⟨an, d, h, rfl⟩ := takeAnswer_eq s
  obtain ⟨vs, d', hl, hv, hp⟩ := programFlash_eq (flashAnswer s) s.dfu.blk (takeAnswer s)
  refine ⟨vs, d', hl, hv, ?_⟩
  rw [flashWrite, hp, h]

/-- The three ways through a block flush. -/
inductive FlushCase (s t : State) : Prop
  /-- R232: the erase failed, and the write was not called. -/
  | eraseFailed (vs : List Word) (d : Nat) (hl : vs.length = s.params.blockWords) (ha : flashAnswer s = false)
      (ht : t = { s with
        flash := Memory.writeWords s.dfu.targetAddr.toNat vs s.flash
        flashAnswers := s.flashAnswers.tail, draws := d
        dfu := { s.dfu with bState := .dfuERROR, bStatus := .errERASE, flushPending := false
                            targetAddr := BitVec.ofNat 32 (nextTarget s) } })
  /-- R233: the erase went well, the write failed. -/
  | writeFailed (us vs : List Word) (d d' : Nat) (hu : us.length = s.params.blockWords)
      (hl : vs.length = s.dfu.blk.length) (ha : flashAnswer s = true)
      (hb : s.flashAnswers.tail.head?.getD (Config.drawOk d') = false)
      (ht : t = { s with
        flash := Memory.writeWords s.dfu.targetAddr.toNat vs (Memory.writeWords s.dfu.targetAddr.toNat us s.flash)
        flashAnswers := s.flashAnswers.tail.tail, draws := d
        dfu := { s.dfu with bState := .dfuERROR, bStatus := .errVERIFY, flushPending := false
                            targetAddr := BitVec.ofNat 32 (nextTarget s) } })
  /-- R232: both went well. -/
  | done (us : List Word) (d d' : Nat) (hu : us.length = s.params.blockWords) (ha : flashAnswer s = true)
      (hb : s.flashAnswers.tail.head?.getD (Config.drawOk d') = true)
      (ht : t = { s with
        flash := Memory.writeWords s.dfu.targetAddr.toNat s.dfu.blk
          (Memory.writeWords s.dfu.targetAddr.toNat us s.flash)
        flashAnswers := s.flashAnswers.tail.tail, draws := d
        dfu := { s.dfu with flushPending := false, targetAddr := BitVec.ofNat 32 (nextTarget s) } })

theorem blockFlush_cases (s : State) : FlushCase s (blockFlush s) := by
  obtain ⟨us, d, hu, he⟩ := flashErase_eq s
  unfold blockFlush eraseAndWrite
  cases ha : flashAnswer s with
  | false => exact .eraseFailed us d hu ha (by simp [he, raise, State.dfuFail, State.setDfu])
  | true =>
    obtain ⟨vs, d', hl, hv, hw⟩ := flashWrite_eq (flashErase s)
    have hb : flashAnswer (flashErase s) = s.flashAnswers.tail.head?.getD (Config.drawOk d) := by rw [he]; rfl
    rw [he] at hl hw
    cases hb' : flashAnswer (flashErase s) with
    | false =>
      refine .writeFailed us vs d' d hu hl ha (hb ▸ hb') ?_
      simp only [he] at hb' ⊢
      simp [hb', hw, raise, State.dfuFail, State.setDfu]
    | true =>
      have hv' := hv hb'
      rw [he] at hv'
      refine .done us d' d hu ha (hb ▸ hb') ?_
      simp only [he] at hb' ⊢
      simp [hb', hw, hv', State.setDfu]

/-- What every block flush leaves alone, and what it always does (R232, R233, R235): only the flash, the answers, the count of
free values and four fields of the DFU controller can change. -/
structure FlushFrame (s t : State) : Prop where
  same : t = { s with flash := t.flash, flashAnswers := t.flashAnswers, draws := t.draws, dfu := t.dfu }
  dfu : t.dfu = { s.dfu with
    bState := t.dfu.bState, bStatus := t.dfu.bStatus, flushPending := false
    targetAddr := BitVec.ofNat 32 (nextTarget s) }
  outcome : (t.dfu.bState = s.dfu.bState ∧ t.dfu.bStatus = s.dfu.bStatus) ∨
    (t.dfu.bState = .dfuERROR ∧ (t.dfu.bStatus = .errERASE ∨ t.dfu.bStatus = .errVERIFY))

theorem blockFlush_frame (s : State) : FlushFrame s (blockFlush s) := by
  cases blockFlush_cases s with
  | eraseFailed vs d hl ha ht => rw [ht]; exact ⟨rfl, rfl, .inr ⟨rfl, .inl rfl⟩⟩
  | writeFailed us vs d d' hu hl ha hb ht => rw [ht]; exact ⟨rfl, rfl, .inr ⟨rfl, .inr rfl⟩⟩
  | done us d d' hu ha hb ht => rw [ht]; exact ⟨rfl, rfl, .inl ⟨rfl, rfl⟩⟩

/-- A block flush changes no byte outside its target block. -/
theorem blockFlush_readByte {s : State} (hb : s.dfu.blk.length = s.params.blockWords) {a : Nat}
    (h : a < s.dfu.targetAddr.toNat ∨ s.dfu.targetAddr.toNat + s.params.blockBytes ≤ a) :
    Memory.readByte a (blockFlush s).flash = Memory.readByte a s.flash := by
  unfold Params.blockBytes at h
  cases blockFlush_cases s with
  | eraseFailed vs d hl ha ht =>
    rw [ht]; exact Memory.readByte_writeWords_of_outside _ _ _ _ (by rw [hl]; exact h)
  | writeFailed us vs d d' hu hl ha _ ht =>
    rw [ht]
    exact (Memory.readByte_writeWords_of_outside _ _ _ _ (by rw [hl, hb]; exact h)).trans
      (Memory.readByte_writeWords_of_outside _ _ _ _ (by rw [hu]; exact h))
  | done us d d' hu ha _ ht =>
    rw [ht]
    exact (Memory.readByte_writeWords_of_outside _ _ _ _ (by rw [hb]; exact h)).trans
      (Memory.readByte_writeWords_of_outside _ _ _ _ (by rw [hu]; exact h))

/-- A block flush inside the address space keeps the flash in canonical form. -/
theorem blockFlush_wf {s : State} (hf : Memory.wf s.flash) (hb : s.dfu.blk.length = s.params.blockWords)
    (hn : nextTarget s < 2 ^ 32) : Memory.wf (blockFlush s).flash := by
  unfold nextTarget Params.blockBytes at hn
  cases blockFlush_cases s with
  | eraseFailed vs d hl ha ht => rw [ht]; exact Memory.wf_writeWords _ hf (by rw [hl]; omega)
  | writeFailed us vs d d' hu hl ha _ ht =>
    rw [ht]; exact Memory.wf_writeWords _ (Memory.wf_writeWords _ hf (by rw [hu]; omega)) (by rw [hl, hb]; omega)
  | done us d d' hu ha _ ht =>
    rw [ht]; exact Memory.wf_writeWords _ (Memory.wf_writeWords _ hf (by rw [hu]; omega)) (by rw [hb]; omega)

/-! ### The transition of a GETSTATUS -/

/-- The two states of a `DFU_GETSTATUS` between which it decides: with a flush pending the flush has been run, and with none
only `dfu.bState` has changed. -/
theorem getstatusTransition_quiet {s : State} (h : s.dfu.flushPending = false) :
    getstatusTransition s = s.setDfu { s.dfu with bState := getstatusNext false s.dfu.bState } := by
  simp [getstatusTransition, h]

theorem getstatusTransition_flush {s : State} (h : s.dfu.flushPending = true) :
    getstatusTransition s = blockFlush (s.setDfu { s.dfu with bState := getstatusNext true s.dfu.bState }) := by
  simp [getstatusTransition, h]

/-- The invariant after the transition and the flush, but for the boot jump that may be due. -/
theorem getstatusTransition_keeps {s : State} (h : BlockInv s) (hb : s.dfu.booted = false)
    (hn : s.dfu.flushPending = true → nextTarget s < 2 ^ 32) :
    let t := getstatusTransition s
    t.dfu.booted = false ∧ (t.dfu.bState = .dfuMANIFEST_WAIT_RESET →
      s.dfu.bState = .dfuMANIFEST ∧ s.dfu.flushPending = false ∧ BlockInv (bootJump t)) ∧
    (t.dfu.bState ≠ .dfuMANIFEST_WAIT_RESET → BlockInv t) := by
  have hd := h.dfu
  cases hp : s.dfu.flushPending with
  | false =>
    simp only [getstatusTransition_quiet hp]
    have hw : s.dfu.bState ≠ .dfuMANIFEST_WAIT_RESET := fun hw => by simp [hd.boot.mp hw] at hb
    have hst (hs : s.dfu.bStatus ≠ .ok) : getstatusNext false s.dfu.bState = .dfuERROR := by
      rw [hd.status hs]; rfl
    refine ⟨hb, fun hx => ?_, fun hx => ?_⟩
    · simp only [State.setDfu_dfu] at hx
      have hm : s.dfu.bState = .dfuMANIFEST := by
        cases hs : s.dfu.bState <;> simp_all [getstatusNext]
      refine ⟨hm, trivial, ?_⟩
      have := h.setDfu (d := { s.dfu with bState := .dfuMANIFEST_WAIT_RESET, booted := true })
        ⟨hd.cursor, fun h' => by simp [hp] at h', hd.target, hd.iString, hd.pollTimeout,
          fun hs => by have := hd.status hs; simp [hm] at this, by simp, hd.block⟩
      refine this.congr rfl rfl rfl ?_ rfl rfl
      simp [bootJump, hm, getstatusNext, State.setDfu, State.emit]
    · exact h.setDfu ⟨hd.cursor, fun h' => by simp [hp] at h', hd.target, hd.iString, hd.pollTimeout, hst,
        ⟨fun h' => absurd h' hx, fun h' => by simp [hb] at h'⟩, hd.block⟩
  | true =>
    simp only [getstatusTransition_flush hp]
    obtain ⟨hc, hs⟩ := hd.pending hp
    set u := s.setDfu { s.dfu with bState := getstatusNext true s.dfu.bState } with hu
    have hub : u.dfu.bState = .dfuDNBUSY := by simp [hu, hs, getstatusNext]
    have hf := blockFlush_frame u
    have hok : s.dfu.bStatus = .ok := by
      by_contra hne; have := hd.status hne; simp [hs] at this
    have hnext : nextTarget u = nextTarget s := rfl
    have hne : (blockFlush u).dfu.bState ≠ .dfuMANIFEST_WAIT_RESET := by
      rcases hf.outcome with ⟨h1, -⟩ | ⟨h1, -⟩ <;> rw [h1] <;> simp [hub]
    refine ⟨by rw [hf.dfu]; exact hb, fun hx => absurd hx hne, fun _ => ?_⟩
    have hbk : u.dfu.blk.length = u.params.blockWords := hd.block
    refine ⟨by rw [hf.same]; exact h.legal, fun e => by rw [hf.same]; exact h.endpoints e,
      fun e he => by rw [hf.same] at he ⊢; exact h.absent e he, fun e => by rw [hf.same]; exact h.stalls e, ?_,
      blockFlush_wf h.flash hbk (hnext ▸ hn hp), by rw [hf.same]; exact h.faults⟩
    rw [hf.dfu, hf.same]
    refine ⟨hd.cursor, nofun, ?_, hd.iString, hd.pollTimeout, fun hst => ?_,
      ⟨fun h' => absurd h' hne, fun h' => by simp [hu, hb] at h'⟩, hd.block⟩
    · obtain ⟨f, hf'⟩ := hd.target
      refine ⟨f + 1, ?_⟩
      have := hn hp
      simp only [hnext, BitVec.toNat_ofNat, Nat.mod_eq_of_lt this]
      simp only [nextTarget, hf', Nat.mul_add, Nat.mul_one, Nat.add_assoc]
      rfl
    · rcases hf.outcome with ⟨-, h2⟩ | ⟨h1, -⟩
      · exact absurd (h2.trans hok) hst
      · exact h1

end Sys2Proof.Machine
end

