-- ==== Sys2Proof/Laws/Runs.lean ====
section
/-! SUPPORT. Running a handler while no other agent is scheduled: it is one part of MAIN after another
(spec/20_memory.md R69), so a run is a chain of parts, and the loops of the sequencer's procedures run in closed form
(spec/42_control_sequencer.md R184, R185). -/

namespace Sys2Proof.Machine

/-! ### Instructions that run -/

/-- Before the end of a run an instruction is processed. -/
theorem unlessEnded_running {s : State} (h : s.running) (k : State → Host.Outcome State Fault Refusal) :
    unlessEnded k s = k s := by simp [unlessEnded, State.booted, h.1, h.2]

theorem unlessEnded_halted {s : State} (h : s.halted = true) (k : State → Host.Outcome State Fault Refusal) :
    unlessEnded k s = .fault .hardStop := by simp [unlessEnded, h]

theorem unlessEnded_booted {s : State} (h : s.halted = false) (hb : s.dfu.booted = true)
    (k : State → Host.Outcome State Fault Refusal) : unlessEnded k s = .next s := by
  simp [unlessEnded, State.booted, h, hb]

/-- What a next state of an instruction that may be refused to run says: the run has not been halted, and either nothing
changed after the boot jump, or the instruction was processed. -/
theorem unlessEnded_next {s t : State} {k : State → Host.Outcome State Fault Refusal} (h : unlessEnded k s = .next t) :
    s.halted = false ∧ ((s.dfu.booted = true ∧ t = s) ∨ (s.dfu.booted = false ∧ k s = .next t)) := by
  unfold unlessEnded State.booted at h
  split at h
  · cases h
  · next hh =>
    refine ⟨by simpa using hh, ?_⟩
    split at h
    · next hb => cases h; exact .inl ⟨hb, rfl⟩
    · next hb => exact .inr ⟨by simpa using hb, h⟩

/-! ### A chain of parts -/

/-- `n` parts of MAIN's handler, one after another, with nobody else scheduled. -/
inductive Runs : Nat → State → State → Prop
  | refl (s : State) : Runs 0 s s
  | step {n : Nat} {s t u : State} (hm : s.main ≠ []) (hs : s.sched = []) (hh : s.halted = false)
      (h : mainStep s = some t) (hr : Runs n t u) : Runs (n + 1) s u

theorem Runs.trans {m n : Nat} {s t u : State} (h : Runs m s t) (h' : Runs n t u) : Runs (m + n) s u := by
  induction h with
  | refl s => simpa using h'
  | step hm hs hh hst _ ih => rw [Nat.add_right_comm]; exact .step hm hs hh hst (ih h')

/-- One part. -/
theorem Runs.one {s t : State} {op : MainOp} {rest : List MainOp} (hm : s.main = op :: rest) (hs : s.sched = [])
    (hh : s.halted = false) (h : mainOp op rest s = some t) : Runs 1 s t :=
  .step (by simp [hm]) hs hh (by rw [mainStep, hm]; exact h) (.refl t)

theorem drive_of_runs {n : Nat} {s t : State} (h : Runs n s t) (k : Nat) : drive (n + k) s = drive k t := by
  induction h with
  | refl s => rw [Nat.zero_add]
  | step hm hs hh hst _ ih =>
    rw [Nat.add_right_comm, drive, if_neg (by simp [hm, hh]), hs]
    simp only [hst]
    exact ih

/-- A handler that has returned. -/
theorem drive_done {s : State} (h : s.main = []) (k : Nat) : drive k s = s := by
  cases k with
  | zero => rfl
  | succ k => rw [drive, if_pos (by simp [h])]

/-- A handler that is held, with nobody scheduled who could lift the hold. -/
theorem drive_held {s : State} (hs : s.sched = []) (h : mainStep s = none) (k : Nat) : drive k s = s := by
  cases k with
  | zero => rfl
  | succ k =>
    rw [drive]
    split
    · rfl
    · rw [hs]; simp only [h]

/-- A chain that ends with the handler's return, within the fuel. -/
theorem drive_runs_done {n k : Nat} {s t : State} (h : Runs n s t) (ht : t.main = []) (hk : n ≤ k) : drive k s = t := by
  obtain ⟨j, rfl⟩ := Nat.exists_eq_add_of_le hk
  rw [drive_of_runs h, drive_done ht]

/-- A chain that ends in a hold, within the fuel. -/
theorem drive_runs_held {n k : Nat} {s t : State} (h : Runs n s t) (hs : t.sched = []) (ht : mainStep t = none)
    (hk : n ≤ k) : drive k s = t := by
  obtain ⟨j, rfl⟩ := Nat.exists_eq_add_of_le hk
  rw [drive_of_runs h, drive_held hs ht]

/-- The last part of a handler. -/
theorem drive_last {k : Nat} {s t : State} {op : MainOp} (hm : s.main = [op]) (hs : s.sched = [])
    (hh : s.halted = false) (h : mainOp op [] s = some t) (ht : t.main = []) (hk : 1 ≤ k) : drive k s = t :=
  drive_runs_done (Runs.one hm hs hh h) ht hk

/-! ### The loops -/

/-- The endpoint vector with one endpoint put back is the same. -/
theorem State.eps_set_self (s : State) (e : EpNum) : s.eps.set e.val (s.ep e) = s.eps := by
  simp [State.ep]

theorem State.eps_set_set (s : State) (e : EpNum) (x y : Endpoint) :
    (s.eps.set e.val x).set e.val y = s.eps.set e.val y := by
  simp

theorem take_min_length (l : List Byte) (m : Nat) : l.take (min l.length m) = l.take m := by
  rcases Nat.le_total l.length m with h | h
  · rw [Nat.min_eq_left h, List.take_length, List.take_of_length_le h]
  · rw [Nat.min_eq_right h]

theorem drop_min_length (l : List Byte) (m : Nat) : l.drop (min l.length m) = l.drop m := by
  rcases Nat.le_total l.length m with h | h
  · rw [Nat.min_eq_left h, List.drop_length, List.drop_of_length_le h]
  · rw [Nat.min_eq_right h]

/-- `READN 0, n` of bytes that are there (spec/30_encoding.md R111). -/
theorem runs_reads (n : Nat) {s : State} {ops : List MainOp} (hops : ops ≠ [])
    (hm : s.main = List.replicate n .read0 ++ ops) (hs : s.sched = []) (hh : s.halted = false)
    (he : s.hasEp 0 = true) (hc : (s.ep 0).cfgValid = true) (hq : n ≤ (s.ep 0).q.length) :
    ∃ r, Runs n s { s with eps := s.eps.set 0 { s.ep 0 with q := (s.ep 0).q.drop n }, resp := r, main := ops
                           rdata := s.rdata ++ (s.ep 0).q.take n } := by
  induction n generalizing s with
  | zero =>
    refine ⟨s.resp, ?_⟩
    have h1 : s.eps.set 0 { s.ep 0 with q := (s.ep 0).q.drop 0 } = s.eps := s.eps_set_self 0
    have h2 : ops = s.main := by simpa using hm.symm
    rw [h1, h2]
    simpa using Runs.refl s
  | succ n ih =>
    cases hqs : (s.ep 0).q with
    | nil => rw [hqs] at hq; simp at hq
    | cons b rest =>
      rw [hqs] at hq
      have hm' : s.main = .read0 :: (List.replicate n .read0 ++ ops) := by rw [hm]; rfl
      have hst : mainOp .read0 (List.replicate n .read0 ++ ops) s = some
          { s with eps := s.eps.set 0 { s.ep 0 with q := rest }, resp := respWord .ok (byteData b)
                   main := List.replicate n .read0 ++ ops, rdata := s.rdata ++ [b] } := by
        simp only [mainOp, cmdRead_performed he hc hqs]
        have hb : respByte (respWord .ok (byteData b)) = b := by
          apply BitVec.eq_of_getLsbD_eq
          intro i hi
          simp only [respByte, respWord, byteData, RespCode.bits, BitVec.getLsbD_extractLsb', BitVec.getLsbD_append, hi,
            decide_true, Bool.true_and, BitVec.getLsbD_setWidth]
          interval_cases i <;> rfl
        have hk : respCode (respWord .ok (byteData b)) = RespCode.ok.bits := by
          apply BitVec.eq_of_getLsbD_eq
          intro i hi
          simp only [respCode, respWord, RespCode.bits, BitVec.getLsbD_extractLsb', BitVec.getLsbD_append, hi,
            decide_true, Bool.true_and]
          interval_cases i <;> rfl
        rw [keepByte, if_pos (.inl (by simpa [State.respond] using hk))]
        simp [State.setMain, State.setEp, State.respond, hops, hb]
      set u : State :=
          { s with eps := s.eps.set 0 { s.ep 0 with q := rest }, resp := respWord .ok (byteData b)
                   main := List.replicate n .read0 ++ ops, rdata := s.rdata ++ [b] } with hu
      have hue : u.ep 0 = { s.ep 0 with q := rest } := State.ep_setEp_same s 0 _
      obtain ⟨r, hr⟩ := ih (s := u) rfl hs hh he (by rw [hue]; exact hc)
        (by rw [hue]; simpa using hq)
      refine ⟨r, ?_⟩
      have h1 := (Runs.one hm' hs hh hst).trans hr
      rw [Nat.add_comm] at h1
      rw [hue] at h1
      simpa [hu, hqs, List.append_assoc] using h1

/-- `WRITEN 0, bytes` where there is room (R111). -/
theorem runs_writes (bytes : List Byte) {s : State} {ops : List MainOp} (hops : ops ≠ [])
    (hm : s.main = bytes.map (MainOp.write 0) ++ ops) (hs : s.sched = []) (hh : s.halted = false)
    (he : s.hasEp 0 = true) (hc : (s.ep 0).cfgValid = true) (hq : (s.ep 0).len + bytes.length ≤ s.params.fifoCap) :
    ∃ r, Runs bytes.length s
      { s with eps := s.eps.set 0 { s.ep 0 with q := (s.ep 0).q ++ bytes }, resp := r, main := ops } := by
  induction bytes generalizing s with
  | nil =>
    refine ⟨s.resp, ?_⟩
    have h1 : s.eps.set 0 { s.ep 0 with q := (s.ep 0).q ++ [] } = s.eps := by
      rw [List.append_nil]; exact s.eps_set_self 0
    have h2 : ops = s.main := by simpa using hm.symm
    rw [h1, h2]
    exact Runs.refl s
  | cons b bytes ih =>
    rw [List.length_cons] at hq
    have hst : mainOp (.write 0 b) (bytes.map (MainOp.write 0) ++ ops) s = some
        { s with eps := s.eps.set 0 { s.ep 0 with q := (s.ep 0).q ++ [b] }, resp := respWord .ok 0
                 main := bytes.map (MainOp.write 0) ++ ops } := by
      simp only [mainOp, cmdWrite_performed b he hc (by omega)]
      simp [State.setMain, State.setEp, State.respond, hops]
    set u : State :=
        { s with eps := s.eps.set 0 { s.ep 0 with q := (s.ep 0).q ++ [b] }, resp := respWord .ok 0
                 main := bytes.map (MainOp.write 0) ++ ops } with hu
    have hue : u.ep 0 = { s.ep 0 with q := (s.ep 0).q ++ [b] } := State.ep_setEp_same s 0 _
    obtain ⟨r, hr⟩ := ih (s := u) rfl hs hh he (by rw [hue]; exact hc)
      (by rw [hue]; show _ ≤ s.params.fifoCap
          simp only [Endpoint.len, List.length_append, List.length_cons, List.length_nil] at *; omega)
    refine ⟨r, ?_⟩
    have h1 := (Runs.one (op := .write 0 b) (rest := bytes.map (MainOp.write 0) ++ ops) (by rw [hm]; rfl) hs hh hst).trans hr
    rw [Nat.add_comm] at h1
    rw [hue] at h1
    simpa [hu, List.append_assoc] using h1

/-! ### The sequencer's procedures in a state that is ready for a request -/

theorem State.readyForRequest.hasEp {s : State} (h : s.readyForRequest) : s.hasEp 0 = true := by
  rw [State.hasEp_iff]; exact h.2.1

/-- `SEQ_ACK` (spec/42_control_sequencer.md R183): the empty packet is marked ready, and what follows goes on. -/
theorem seqAck_ready {s : State} (h : s.readyForRequest) (after : List MainOp) :
    ∃ k, 1 ≤ k ∧ seqAck after s = drive k
      { s with
        eps := s.eps.set 0 { s.ep 0 with txPkt := [], underrun := false, txReady := true }
        resp := respWord .ok 0, main := after, rdata := [], handling := !after.isEmpty } := by
  obtain ⟨⟨⟨hh, -⟩, hm, hs⟩, hn, hc, hx, ht⟩ := h
  refine ⟨s.sched.length + s.params.fifoCap + s.params.waitBound.getD 0 + 31, by omega, ?_⟩
  simp only [seqAck, runHandler, resume, driveFuel, hm, List.append_nil]
  set u : State := { s with main := .zlpAck :: after, rdata := [], handling := true } with hu
  have hst : mainOp .zlpAck after u = some
      { s with
        eps := s.eps.set 0 { s.ep 0 with txPkt := [], underrun := false, txReady := true }
        resp := respWord .ok 0, main := after, rdata := [], handling := !after.isEmpty } := by
    have hz := cmdZlpAck_performed (s := u) hc ht
    simp only [mainOp, hz, Option.map_some, Option.some.injEq]
    simp [hu, State.setMain, State.setEp, State.respond, State.ep]
  have := drive_of_runs (Runs.one (s := u) rfl hs hh hst) (s.sched.length + s.params.fifoCap + s.params.waitBound.getD 0 + 31)
  rw [← this]
  congr 1
  omega

/-- `SEQ_SEND bytes` (R185): the bytes are queued behind what is there, and one packet is marked ready. -/
theorem seqSend_ready {s : State} (h : s.readyForRequest) (bytes : List Byte) (hb : bytes ≠ [])
    (hl : (s.ep 0).len + bytes.length ≤ s.params.fifoCap) :
    QuietFrame s (seqSend bytes s) ∧ Sent bytes s (seqSend bytes s) ∧ (seqSend bytes s).dfu = s.dfu ∧
      (seqSend bytes s).lineCoding = s.lineCoding := by
  have he := h.hasEp
  obtain ⟨⟨⟨hh, -⟩, hm, hs⟩, hn, hc, hx, ht⟩ := h
  simp only [seqSend, runHandler, resume, sendOps, hm, List.append_nil]
  set u : State := { s with main := bytes.map (MainOp.write 0) ++ [.sendLoop], rdata := [], handling := true } with hu
  obtain ⟨r, hr⟩ := runs_writes bytes (s := u) (ops := [.sendLoop]) (by simp) rfl hs hh he hc hl
  set v : State := { u with
    eps := u.eps.set 0 { u.ep 0 with q := (u.ep 0).q ++ bytes }, resp := r, main := [.sendLoop] } with hv
  have hve : v.ep 0 = { s.ep 0 with q := (s.ep 0).q ++ bytes } := State.ep_setEp_same u 0 _
  have hvo (e : EpNum) (hne : e ≠ 0) : v.ep e = s.ep e := State.ep_setEp_of_ne u _ hne
  have hlen : 0 < (v.ep 0).len := by
    rw [hve]; simp only [Endpoint.len, List.length_append]
    have := List.length_pos_iff.mpr hb; omega
  -- the loop's test, then one `FLUSH 0`
  have h1 : mainOp .sendLoop [] v = some (v.setMain [.flush 0, .sendLoop]) := by simp [mainOp, hlen]
  set w := v.setMain [.flush 0, .sendLoop] with hw
  have hwe : w.ep 0 = { s.ep 0 with q := (s.ep 0).q ++ bytes } := hve
  have h2 : mainOp (.flush 0) [.sendLoop] w = some (((w.setEp 0 { w.ep 0 with
        txPkt := (w.ep 0).q.take (min (w.ep 0).len (w.ep 0).mps.toNat)
        q := (w.ep 0).q.drop (min (w.ep 0).len (w.ep 0).mps.toNat), underrun := false, txReady := true }).respond .ok
      (countData (min (w.ep 0).len (w.ep 0).mps.toNat))).setMain [.sendLoop]) := by
    rw [mainOp, cmdFlush_performed (by exact he) (by rw [hwe]; exact hc) (by rw [hwe]; simp [Endpoint.maySend, hx])
      (by rw [hwe]; exact ht)]
    rfl
  set x := ((w.setEp 0 { w.ep 0 with
        txPkt := (w.ep 0).q.take (min (w.ep 0).len (w.ep 0).mps.toNat)
        q := (w.ep 0).q.drop (min (w.ep 0).len (w.ep 0).mps.toNat), underrun := false, txReady := true }).respond .ok
      (countData (min (w.ep 0).len (w.ep 0).mps.toNat))).setMain [.sendLoop] with hxdef
  have hxe : x.ep 0 = { s.ep 0 with
      q := ((s.ep 0).q ++ bytes).drop (s.ep 0).mps.toNat, underrun := false, txReady := true,
      txPkt := ((s.ep 0).q ++ bytes).take (s.ep 0).mps.toNat } := by
    show State.ep (w.setEp 0 _) 0 = _
    rw [State.ep_setEp_same, hwe]
    simp only [Endpoint.len, Endpoint.mk.injEq, true_and, and_true]
    exact ⟨drop_min_length _ _, take_min_length _ _⟩
  have hxo (e : EpNum) (hne : e ≠ 0) : x.ep e = s.ep e := by
    show State.ep (w.setEp 0 _) e = _
    rw [State.ep_setEp_of_ne _ _ hne]; exact hvo e hne
  have hruns : Runs (bytes.length + (1 + 1)) u x :=
    hr.trans ((Runs.one (s := v) rfl hs hh h1).trans (Runs.one (s := w) rfl hs hh h2))
  have hcap : bytes.length ≤ s.params.fifoCap := by omega
  have hframe (z : State) (hz : z = x ∨ ∃ ops hd, z = { x with main := ops, handling := hd }) :
      QuietFrame s z ∧ z.dfu = s.dfu ∧ z.lineCoding = s.lineCoding ∧ z.pcb = s.pcb ∧ z.ep0Masked = s.ep0Masked ∧
        z.ep 0 = x.ep 0 := by
    rcases hz with rfl | ⟨ops, hd, rfl⟩
    · exact ⟨⟨⟨rfl, rfl, hxo, rfl, rfl, rfl⟩, fun _ => rfl, rfl, rfl, rfl, rfl⟩, rfl, rfl, rfl, rfl, rfl⟩
    · exact ⟨⟨⟨rfl, rfl, hxo, rfl, rfl, rfl⟩, fun _ => rfl, rfl, rfl, rfl, rfl⟩, rfl, rfl, rfl, rfl, rfl⟩
  by_cases hfit : ((s.ep 0).q ++ bytes).length ≤ (s.ep 0).mps.toNat
  · -- everything fits one packet: the loop ends, the handler returns
    have hz : (x.ep 0).len = 0 := by
      rw [hxe]; simp only [Endpoint.len, List.length_drop]; omega
    have h3 : mainOp .sendLoop [] x = some (x.setMain []) := by simp [mainOp, hz]
    have hrun := hruns.trans (Runs.one (s := x) rfl hs hh h3)
    rw [drive_runs_done hrun rfl (by simp only [driveFuel, hu]; omega)]
    obtain ⟨f1, f2, f3, f4, f5, f6⟩ := hframe (x.setMain []) (.inr ⟨_, _, rfl⟩)
    exact ⟨f1, ⟨f6.trans hxe, f4, f5, by rw [if_pos hfit]; rfl⟩, f2, f3⟩
  · -- the next packet is held
    have hz : 0 < (x.ep 0).len := by
      rw [hxe]; simp only [Endpoint.len, List.length_drop]; omega
    have h3 : mainOp .sendLoop [] x = some (x.setMain [.flush 0, .sendLoop]) := by simp [mainOp, hz]
    have hrun := hruns.trans (Runs.one (s := x) rfl hs hh h3)
    have hheld : mainStep (x.setMain [.flush 0, .sendLoop]) = none := by
      have he' : (x.setMain [.flush 0, .sendLoop]).ep 0 = _ := hxe
      simp only [mainStep, State.setMain_main, mainOp, cmdFlush, he', hc, Endpoint.maySend, hx]
      rw [show (x.setMain [.flush 0, .sendLoop]).hasEp 0 = true from he]
      rfl
    rw [drive_runs_held hrun hs hheld (by simp only [driveFuel, hu]; omega)]
    obtain ⟨f1, f2, f3, f4, f5, f6⟩ := hframe (x.setMain [.flush 0, .sendLoop]) (.inr ⟨_, _, rfl⟩)
    exact ⟨f1, ⟨f6.trans hxe, f4, f5, by rw [if_neg hfit]; rfl⟩, f2, f3⟩

/-- The wait begins (R182): endpoint 0 is masked and no poll has been made. -/
theorem mainOp_waitEnter (s : State) (len : Nat) (rest : List MainOp) :
    mainOp (.waitEnter len) rest s = some { s with ep0Masked := true, main := .waitLoop len 0 :: rest } := by
  simp [mainOp, State.setMain]

/-- The wait has found the data stage: the mask goes off, and the acknowledgement is marked ready (R182, R183). -/
theorem runs_wait_ack {s : State} (len polls : Nat) (ops : List MainOp) (hops : ops ≠ [])
    (hm : s.main = .waitLoop len polls :: .zlpAck :: ops) (hs : s.sched = []) (hh : s.halted = false)
    (hc : (s.ep 0).cfgValid = true) (ht : (s.ep 0).txReady = false) (hl : len ≤ (s.ep 0).len) :
    Runs 2 s { s with eps := s.eps.set 0 { s.ep 0 with txPkt := [], underrun := false, txReady := true }
                      ep0Masked := false, resp := respWord .ok 0, main := ops } := by
  have h2 : mainOp (.waitLoop len polls) (.zlpAck :: ops) s = some { s with ep0Masked := false, main := .zlpAck :: ops } := by
    simp only [mainOp, waitIteration, if_neg (Nat.not_lt.mpr hl)]
    simp [State.setMain]
  set v : State := { s with ep0Masked := false, main := .zlpAck :: ops } with hv
  have hve : v.ep 0 = s.ep 0 := rfl
  have h3 : mainOp .zlpAck ops v = some
      { s with eps := s.eps.set 0 { s.ep 0 with txPkt := [], underrun := false, txReady := true }
               ep0Masked := false, resp := respWord .ok 0, main := ops } := by
    simp only [mainOp, cmdZlpAck_performed (s := v) hc ht, Option.map_some, Option.some.injEq, hve]
    simp [hv, State.setMain, State.setEp, State.respond, hops]
  exact (Runs.one hm hs hh h2).trans (Runs.one (s := v) rfl hs hh h3)

/-- The end of `SEQ_RECV` (R184): the two flags are cleared if the FIFO is empty. -/
theorem runs_clearIfDrained {s : State} (ops : List MainOp) (hops : ops ≠ []) (hm : s.main = .clearIfDrained :: ops)
    (hs : s.sched = []) (hh : s.halted = false) (he : s.hasEp 0 = true) :
    ∃ k r, k ≤ 3 ∧ Runs k s { s with
      pcb := if (s.ep 0).len = 0 then
          { s.pcb with flags := s.pcb.flags &&& ~~~flagSetupDataAvail, pending := s.pcb.pending &&& ~~~epBit 0 }
        else s.pcb
      resp := r, main := ops } := by
  by_cases hz : (s.ep 0).len = 0
  · have h1 : mainOp .clearIfDrained ops s =
        some { s with main := .flagClr flagSetupDataAvail :: .pendClr 0 :: ops } := by
      simp [mainOp, hz, State.setMain]
    set u : State := { s with main := .flagClr flagSetupDataAvail :: .pendClr 0 :: ops } with hu
    have h2 : mainOp (.flagClr flagSetupDataAvail) (.pendClr 0 :: ops) u = some
        { s with pcb := s.pcb.clrFlags flagSetupDataAvail, resp := respWord .ok 0, main := .pendClr 0 :: ops } := by
      simp [mainOp, cmdFlagClr, hu, State.setMain, State.setPcb, State.respond]
    set v : State :=
      { s with pcb := s.pcb.clrFlags flagSetupDataAvail, resp := respWord .ok 0, main := .pendClr 0 :: ops } with hv
    have h3 : mainOp (.pendClr 0) ops v = some
        { s with pcb := (s.pcb.clrFlags flagSetupDataAvail).clrPending 0, resp := respWord .ok 0, main := ops } := by
      simp only [mainOp, cmdPendClr, onEndpoint_of_hasEp (s := v) _ he, Option.some.injEq]
      simp [hv, State.setMain, State.setPcb, State.respond, hops]
    refine ⟨3, respWord .ok 0, le_refl _, ?_⟩
    rw [if_pos hz]
    exact (Runs.one hm hs hh h1).trans ((Runs.one (s := u) rfl hs hh h2).trans (Runs.one (s := v) rfl hs hh h3))
  · refine ⟨1, s.resp, by omega, ?_⟩
    rw [if_neg hz]
    refine Runs.one hm hs hh ?_
    simp [mainOp, hz, State.setMain, hops]

/-- From a wait that finds its `n` bytes to the driver's own part: acknowledge, read, clear (R184). -/
theorem runs_recv {s : State} (n polls : Nat) (after : List MainOp) (ha : after ≠ [])
    (hm : s.main = .waitLoop n polls :: .zlpAck :: (List.replicate n .read0 ++ .clearIfDrained :: after))
    (hs : s.sched = []) (hh : s.halted = false) (he : s.hasEp 0 = true) (hc : (s.ep 0).cfgValid = true)
    (ht : (s.ep 0).txReady = false) (hl : n ≤ (s.ep 0).len) (hr : s.rdata = []) :
    ∃ k r, k ≤ n + 5 ∧ Runs k s
      { s with
        eps := s.eps.set 0 { s.ep 0 with q := (s.ep 0).q.drop n, txPkt := [], underrun := false, txReady := true }
        pcb := if (s.ep 0).len = n then
            { s.pcb with flags := s.pcb.flags &&& ~~~flagSetupDataAvail, pending := s.pcb.pending &&& ~~~epBit 0 }
          else s.pcb
        ep0Masked := false, resp := r, main := after, rdata := (s.ep 0).q.take n } := by
  have hw := runs_wait_ack n polls (List.replicate n .read0 ++ .clearIfDrained :: after) (by simp) hm hs hh hc ht hl
  set v : State := { s with
    eps := s.eps.set 0 { s.ep 0 with txPkt := [], underrun := false, txReady := true }
    ep0Masked := false, resp := respWord .ok 0, main := List.replicate n .read0 ++ .clearIfDrained :: after } with hv
  have hve : v.ep 0 = { s.ep 0 with txPkt := [], underrun := false, txReady := true } := State.ep_setEp_same s 0 _
  obtain ⟨r1, hr1⟩ := runs_reads n (s := v) (ops := .clearIfDrained :: after) (by simp) rfl hs hh he
    (by rw [hve]; exact hc) (by rw [hve]; exact hl)
  set w : State := { v with
    eps := v.eps.set 0 { v.ep 0 with q := (v.ep 0).q.drop n }, resp := r1, main := .clearIfDrained :: after
    rdata := v.rdata ++ (v.ep 0).q.take n } with hw'
  have hwe : w.ep 0 =
      { s.ep 0 with q := (s.ep 0).q.drop n, txPkt := [], underrun := false, txReady := true } := by
    rw [show w.ep 0 = { v.ep 0 with q := (v.ep 0).q.drop n } from State.ep_setEp_same v 0 _, hve]
  obtain ⟨k3, r2, hk3, hc3⟩ := runs_clearIfDrained (s := w) after ha rfl hs hh he
  refine ⟨2 + (n + k3), r2, by omega, ?_⟩
  have hall := hw.trans (hr1.trans hc3)
  have hlen : (w.ep 0).len = 0 ↔ (s.ep 0).len = n := by
    rw [hwe]; simp only [Endpoint.len, List.length_drop] at *; omega
  have heps : w.eps = s.eps.set 0
      { s.ep 0 with q := (s.ep 0).q.drop n, txPkt := [], underrun := false, txReady := true } := by
    show (s.eps.set (0 : EpNum).val _).set (0 : EpNum).val _ = _
    rw [State.eps_set_set, hve]
    rfl
  have hrd : w.rdata = (s.ep 0).q.take n := by
    show s.rdata ++ (v.ep 0).q.take n = _
    rw [hve, hr]; rfl
  simp only [hlen, heps, hrd] at hall
  exact hall

/-- `SEQ_RECV n` where the `n` bytes have arrived (R184): the state in which the driver's own part begins. -/
theorem seqRecv_ready {s : State} (h : s.readyForRequest) (n : Nat) (after : List MainOp) (ha : after ≠ [])
    (hcap : n ≤ s.params.fifoCap) (hl : n ≤ (s.ep 0).len) :
    ∃ k r, 20 ≤ k ∧ seqRecv n after s = drive k
      { s with
        eps := s.eps.set 0 { s.ep 0 with q := (s.ep 0).q.drop n, txPkt := [], underrun := false, txReady := true }
        pcb := if (s.ep 0).len = n then
            { s.pcb with flags := s.pcb.flags &&& ~~~flagSetupDataAvail, pending := s.pcb.pending &&& ~~~epBit 0 }
          else s.pcb
        ep0Masked := false, resp := r, main := after, rdata := (s.ep 0).q.take n, handling := true } := by
  have he := h.hasEp
  obtain ⟨⟨⟨hh, -⟩, hm, hs⟩, hn, hc, hx, ht⟩ := h
  rw [seqRecv, if_neg (by omega)]
  simp only [runHandler, resume, hm, List.append_nil]
  set u : State := { s with main := recvOps n after, rdata := [], handling := true } with hu
  set v : State := { u with
    ep0Masked := true, main := .waitLoop n 0 :: .zlpAck :: (List.replicate n .read0 ++ .clearIfDrained :: after) } with hv
  obtain ⟨k, r, hk, hr⟩ := runs_recv (s := v) n 0 after ha rfl hs hh he hc ht hl rfl
  have hall := (Runs.one (s := u) rfl hs hh (mainOp_waitEnter u n _)).trans hr
  obtain ⟨j, hj⟩ := Nat.exists_eq_add_of_le (show 1 + k + 20 ≤ driveFuel u by simp only [driveFuel, hu]; omega)
  refine ⟨20 + j, r, by omega, ?_⟩
  rw [hj, Nat.add_assoc, drive_of_runs hall]
  rfl

end Sys2Proof.Machine
end

