-- ==== Sys2Proof/Laws/Steps.lean ====
section
/-! SUPPORT. What the start of a handler, an instruction and a step can do: how each meaning is built, and that each keeps the
invariant (spec/10_state.md R55, spec/44_dfu_controller.md R239). -/

namespace Sys2Proof.Machine

/-! ### Starting a handler -/

/-- MAIN between handlers starts a class request whose parts suit the DFU state. -/
theorem runHandler_keeps {s : State} (hB : BlockInv s) (hm : s.main = []) (hb : s.dfu.booted = false)
    (ops : List MainOp) (hops : ops ≠ []) (h1 : (ops.filter MainOp.endsDfu).length ≤ 1)
    (hs : ∀ op ∈ ops, op.suits s.dfu.bState = true) : LiveInv (runHandler ops s) := by
  refine drive_keeps _ ⟨⟨hB.congr rfl rfl rfl rfl rfl rfl, ?_, ?_, ?_⟩, hb⟩
  · simpa [hm] using h1
  · simpa [hm] using hs
  · simp [hm, hops]

/-- The same for a procedure of MAIN that is no class request. -/
theorem runProcedure_keeps {s : State} (h : LiveInv s) (hm : s.main = []) (ops : List MainOp)
    (hops : ∀ op ∈ ops, op.endsDfu = false) : LiveInv (runProcedure ops s) := by
  have hh : s.handling = false := by
    by_contra hc; exact h.inv.main.handling (by simpa using hc) hm
  refine drive_keeps _ ⟨⟨h.inv.block.congr rfl rfl rfl rfl rfl rfl, ?_, ?_, ?_⟩, h.live⟩
  · simp [hm, filter_endsDfu_eq_nil hops]
  · intro op ho
    simp only [hm, List.append_nil] at ho
    exact MainOp.suits_of_not_endsDfu (hops op ho) _
  · simp [hh]

theorem seqReject_keeps {s : State} (h : LiveInv s) : LiveInv (seqReject s) :=
  ⟨⟨(h.inv.block.stall h.inv.block.hasEp_zero).respond _ _, h.inv.main.oneEnd, h.inv.main.suits, h.inv.main.handling⟩,
    h.live⟩

theorem seqAck_keeps {s : State} (h : LiveInv s) (hm : s.main = []) (after : List MainOp)
    (h1 : (after.filter MainOp.endsDfu).length ≤ 1) (hs : ∀ op ∈ after, op.suits s.dfu.bState = true) :
    LiveInv (seqAck after s) :=
  runHandler_keeps h.inv.block hm h.live _ (by simp) (by simpa [MainOp.endsDfu] using h1) (by simpa [MainOp.suits] using hs)

theorem seqRecv_keeps {s : State} (h : LiveInv s) (hm : s.main = []) (len : Nat) (after : List MainOp)
    (h1 : (after.filter MainOp.endsDfu).length ≤ 1) (hs : ∀ op ∈ after, op.suits s.dfu.bState = true) :
    LiveInv (seqRecv len after s) := by
  unfold seqRecv; split
  · exact seqReject_keeps h
  · refine runHandler_keeps h.inv.block hm h.live _ (by simp [recvOps]) ?_ ?_
    · have : (List.replicate len MainOp.read0).filter MainOp.endsDfu = [] :=
        filter_endsDfu_eq_nil fun op ho => by rw [List.eq_of_mem_replicate ho]; rfl
      simpa [recvOps, MainOp.endsDfu, List.filter_cons, this] using h1
    · intro op ho
      simp only [recvOps, List.mem_cons, List.mem_append] at ho
      rcases ho with rfl | rfl | ho | rfl | ho
      · rfl
      · rfl
      · rw [List.eq_of_mem_replicate ho]; rfl
      · rfl
      · exact hs op ho

theorem seqSend_keeps {s : State} (hB : BlockInv s) (hb : s.dfu.booted = false) (hm : s.main = []) (bytes : List Byte) :
    LiveInv (seqSend bytes s) := by
  have hops : ∀ op ∈ sendOps bytes, op.endsDfu = false := by
    intro op ho
    simp only [sendOps, List.mem_append, List.mem_map, List.mem_singleton] at ho
    rcases ho with ⟨b, -, rfl⟩ | rfl <;> rfl
  exact runHandler_keeps hB hm hb _ (by simp [sendOps]) (by simp [filter_endsDfu_eq_nil hops])
    fun op ho => MainOp.suits_of_not_endsDfu (hops op ho) _

/-! ### Commands -/

theorem MainInv.of_same {s t : State} (h : MainInv s) (hm : t.main = s.main) (hd : t.dfu = s.dfu)
    (hh : t.handling = s.handling) : MainInv t :=
  ⟨hm ▸ h.oneEnd, by rw [hm, hd]; exact h.suits, by rw [hm, hh]; exact h.handling⟩

theorem LiveInv.of_sameBut {s t : State} (h : LiveInv s) (hB : BlockInv t) (hs : SameBut s t) : LiveInv t :=
  ⟨⟨hB, h.inv.main.of_same hs.main hs.dfu hs.handling⟩, by rw [hs.dfu]; exact h.live⟩

/-- A held command waits in `main`. -/
theorem LiveInv.hold {s : State} (h : LiveInv s) {op : MainOp} (ho : op.endsDfu = false) :
    LiveInv { s with main := op :: s.main } :=
  ⟨⟨h.inv.block.congr rfl rfl rfl rfl rfl rfl, by rw [List.filter_cons_of_neg (by simp [ho])]; exact h.inv.main.oneEnd,
    fun o h' => by
      rcases List.mem_cons.mp h' with rfl | h'
      · exact MainOp.suits_of_not_endsDfu ho _
      · exact h.inv.main.suits o h', fun _ => by simp⟩, h.live⟩

/-! ### Instructions -/

/-- Every instruction keeps the invariant, run while MAIN is between handlers. -/
theorem exec_keeps {s t : State} {i : Instr} (h : LiveInv s) (hm : s.main = []) (hi : exec i s = .next t) : Inv t := by
  have hB := h.inv.block
  have live {k : State → Host.Outcome State Fault Refusal} (hk : unlessEnded k s = .next t) : k s = .next t :=
    ((unlessEnded_next hk).2.resolve_left (fun hb => by rw [h.live] at hb; exact nomatch hb.1)).2
  cases i <;>
    (simp only [exec, execPcbInit, execConfigure, execWrite, execRead, execFlush, execDrain, execSetStall, execClearStall,
      execZlpAck, execFlagSet, execFlagClr, execPendClr, execDfuDetach, execDfuDnload, execDfuUpload, execDfuGetstatus,
      execDfuClrstatus, execDfuGetstate, execDfuAbort, execDfuReject, execCdcSetLineCoding, execCdcGetLineCoding,
      execCdcSetControlLineState, execCdcReject, runCommand, runHeldCommand] at hi
     have ht := live hi
     clear hi live)
  case pcbInit =>
    cases ht
    exact ⟨cmdPcbInit_keeps hB, h.inv.main.of_same (by rw [cmdPcbInit, State.respond_main, tearDownPcb_main])
      (by rw [cmdPcbInit, State.respond_dfu, tearDownPcb_dfu])
      (by rw [cmdPcbInit, State.respond_handling, tearDownPcb_handling])⟩
  case configure e ty dir mps =>
    cases ht; exact (h.of_sameBut (cmdConfigure_keeps hB ..) (cmdConfigure_sameBut ..)).inv
  case write e b => cases ht; exact (h.of_sameBut (cmdWrite_keeps hB ..) (cmdWrite_sameBut ..)).inv
  case read e => cases ht; exact (h.of_sameBut (cmdRead_keeps hB ..) (cmdRead_sameBut ..)).inv
  case flush e =>
    cases ht
    cases hc : cmdFlush e s with
    | none => exact (h.hold rfl).inv
    | some u => exact (h.of_sameBut (cmdFlush_keeps hB hc) (cmdFlush_sameBut hc)).inv
  case drain e => cases ht; exact (h.of_sameBut (cmdDrain_keeps hB ..) (cmdDrain_sameBut ..)).inv
  case setStall e => cases ht; exact (h.of_sameBut (cmdSetStall_keeps hB ..) (cmdSetStall_sameBut ..)).inv
  case clearStall e => cases ht; exact (h.of_sameBut (cmdClearStall_keeps hB ..) (cmdClearStall_sameBut ..)).inv
  case zlpAck =>
    cases ht
    cases hc : cmdZlpAck s with
    | none => exact (h.hold rfl).inv
    | some u => exact (h.of_sameBut (cmdZlpAck_keeps hB hc) (cmdZlpAck_sameBut hc)).inv
  case flagSet m => cases ht; exact (h.of_sameBut (cmdFlagSet_keeps hB ..) (cmdFlagSet_sameBut ..)).inv
  case flagClr m => cases ht; exact (h.of_sameBut (cmdFlagClr_keeps hB ..) (cmdFlagClr_sameBut ..)).inv
  case pendClr e => cases ht; exact (h.of_sameBut (cmdPendClr_keeps hB ..) (cmdPendClr_sameBut ..)).inv
  case dfuDetach r => cases ht; exact (seqReject_keeps h).inv
  case dfuUpload r => cases ht; exact (seqReject_keeps h).inv
  case dfuReject bm br r => cases ht; exact (seqReject_keeps h).inv
  case cdcReject bm br r => cases ht; exact (seqReject_keeps h).inv
  case dfuDnload r =>
    split at ht
    · cases ht; exact (seqReject_keeps h).inv
    · next ha =>
      have ha : acceptsDnload s.dfu.bState = true := by simpa using ha
      split at ht
      · cases ht; exact (seqAck_keeps h hm [.dnloadEnd] (le_refl 1) (by simpa [MainOp.suits] using ha)).inv
      · split at ht
        · cases ht; exact (seqReject_keeps h).inv
        · cases ht; exact (seqRecv_keeps h hm _ [.dnloadStore _] (le_refl 1) (by simpa [MainOp.suits] using ha)).inv
  case dfuGetstatus r =>
    split at ht
    · cases ht
    · next hn =>
      obtain ⟨hb, h1, h2⟩ := getstatusTransition_keeps hB h.live (fun hp => by
        by_contra hlt; exact hn ⟨hp, by omega⟩)
      have hmt : (getstatusTransition s).main = s.main ∧ (getstatusTransition s).handling = s.handling := by
        cases hp : s.dfu.flushPending with
        | false => rw [getstatusTransition_quiet hp]; exact ⟨rfl, rfl⟩
        | true => rw [getstatusTransition_flush hp, (blockFlush_frame _).same]; exact ⟨rfl, rfl⟩
      split at ht
      · next hw =>
        cases ht
        refine ⟨(h1 hw).2.2, ?_, ?_, ?_⟩
        · simp [bootJump, hmt.1, hm]
        · simp [bootJump, hmt.1, hm]
        · have := h.inv.main.handling
          simpa [bootJump, hmt.1, hmt.2, hm] using this
      · next hw =>
        cases ht
        exact (seqSend_keeps (h2 hw) hb (hmt.1.trans hm) _).inv
  case dfuClrstatus r =>
    split at ht
    · next he => cases ht; exact (seqAck_keeps h hm [.clrstatusEnd] (le_refl 1) (by simpa [MainOp.suits] using he)).inv
    · cases ht; exact (seqReject_keeps h).inv
  case dfuGetstate r => cases ht; exact (seqSend_keeps hB h.live hm _).inv
  case dfuAbort r => cases ht; exact (seqAck_keeps h hm [.abortEnd] (le_refl 1) (by simp [MainOp.suits])).inv
  case cdcSetLineCoding r =>
    split at ht
    · cases ht; exact (seqReject_keeps h).inv
    · cases ht; exact (seqRecv_keeps h hm _ [.lineCodingStore] (by simp [MainOp.endsDfu]) (by simp [MainOp.suits])).inv
  case cdcGetLineCoding r => cases ht; exact (seqSend_keeps hB h.live hm _).inv
  case cdcSetControlLineState r => cases ht; exact (seqAck_keeps h hm [] (by simp) (by simp)).inv

/-! ### Steps -/

/-- The program is no part of the invariant. -/
theorem LiveInv.withProgram {s : State} (h : LiveInv s) (items : List MainItem) : LiveInv { s with program := items } :=
  ⟨⟨h.inv.block.congr rfl rfl rfl rfl rfl rfl, h.inv.main.oneEnd, h.inv.main.suits, h.inv.main.handling⟩, h.live⟩

/-- Everything MAIN's turn can do. -/
inductive TurnCase (s t : State) : Prop
  /-- There is nothing to do. -/
  | idle (hm : s.main = []) (hp : s.program = []) (ht : t = s)
  /-- The handler in progress goes on. -/
  | resumed (hm : s.main ≠ []) (ht : t = resume s)
  /-- The decoded instruction runs. -/
  | instr (i : Instr) (w : Encoded) (items : List MainItem) (hm : s.main = []) (hp : s.program = .issue w :: items)
      (hw : decode s.params.requestCodes w = some i) (ht : exec i { s with program := items } = .next t)
  /-- A reserved word is refused. -/
  | reserved (w : Encoded) (items : List MainItem) (hm : s.main = []) (hp : s.program = .issue w :: items)
      (hw : decode s.params.requestCodes w = none) (ht : execReserved { s with program := items } = .next t)
  | putchar (c : Byte) (items : List MainItem) (hm : s.main = []) (hp : s.program = .putchar c :: items)
      (ht : t = callPutchar c { s with program := items })
  | init (d : Driver) (items : List MainItem) (hm : s.main = []) (hp : s.program = .initCallback d :: items)
      (ht : t = callInit d { s with program := items })
  | rx (items : List MainItem) (hm : s.main = []) (hp : s.program = .rxCallback :: items)
      (ht : t = { s with program := s.rxHandler ++ items })

theorem mainTurn_cases {s t : State} (h : mainTurn s = .next t) : TurnCase s t := by
  unfold mainTurn at h
  split at h
  · next hm =>
    rw [List.isEmpty_iff] at hm
    split at h
    · next hp => cases h; exact .idle hm hp rfl
    · next it items hp =>
      unfold runItem at h
      split at h
      · next w =>
        split at h
        · next i hw => exact .instr i w items hm hp hw h
        · next hw => exact .reserved w items hm hp hw h
      · next c => cases h; exact .putchar c items hm hp rfl
      · next d => cases h; exact .init d items hm hp rfl
      · cases h; exact .rx items hm hp rfl
  · next hm => cases h; exact .resumed (fun he => hm (by rw [he]; rfl)) rfl

/-- Everything a step can do. -/
inductive StepCase (s t : State) : Prop
  /-- The boot jump has been made: nothing changes. -/
  | ended (hb : s.dfu.booted = true) (ht : t = s)
  /-- Another agent steps. -/
  | agent (a : AgentStep) (slots : List Slot) (hb : s.dfu.booted = false) (hs : s.sched = .agent a :: slots)
      (ht : t = agentStep a { s with sched := slots })
  /-- It is MAIN's turn. -/
  | turn (slots : List Slot) (hb : s.dfu.booted = false) (hs : s.sched = .main :: slots ∨ s.sched = [] ∧ slots = [])
      (ht : TurnCase { s with sched := slots } t)

theorem step_cases {s t : State} (h : step s = .next t) : s.halted = false ∧ StepCase s t := by
  obtain ⟨hh, h⟩ := unlessEnded_next (k := fun s =>
    match s.sched with
    | .agent a :: rest => .next (agentStep a { s with sched := rest })
    | .main :: rest => mainTurn { s with sched := rest }
    | [] => mainTurn s) h
  refine ⟨hh, ?_⟩
  rcases h with ⟨hb, rfl⟩ | ⟨hb, h⟩
  · exact .ended hb rfl
  · split at h
    · next a rest hs => cases h; exact .agent a rest hb hs rfl
    · next rest hs => exact .turn rest hb (.inl hs) (mainTurn_cases h)
    · next hs =>
      have he : { s with sched := [] } = s := by rw [← hs]
      exact .turn [] hb (.inr ⟨hs, rfl⟩) (mainTurn_cases (by rw [he]; exact h))

/-! ### The step relation of the block (spec/10_state.md R51) -/

/-- Every step is a step of the block under its inputs. -/
theorem Block.stepsTo_of_step {s t : State} (h : step s = .next t) : s.toBlock.StepsTo s.toInputs t.toBlock :=
  ⟨t.toInputs, h⟩

end Sys2Proof.Machine
end

