-- ==== Sys2Proof/Laws/Frames.lean ====
section
/-! SUPPORT. What no part of a handler and no step of another agent can change: the parameters, the application handler, the
flash and its answers, the boot jump, a recorded fault (spec/10_state.md R50, R51, R54). -/

namespace Sys2Proof.Machine

/-- What a run of a handler leaves alone, whoever steps in its gaps. A recorded fault stays. -/
structure HandlerFrame (s t : State) : Prop where
  params : t.params = s.params
  rxHandler : t.rxHandler = s.rxHandler
  flash : t.flash = s.flash
  flashAnswers : t.flashAnswers = s.flashAnswers
  booted : t.dfu.booted = s.dfu.booted
  faults : ∀ f ∈ s.faults, f ∈ t.faults

theorem HandlerFrame.refl (s : State) : HandlerFrame s s := ⟨rfl, rfl, rfl, rfl, rfl, fun _ h => h⟩

theorem HandlerFrame.trans {s t u : State} (h : HandlerFrame s t) (h' : HandlerFrame t u) : HandlerFrame s u :=
  ⟨h'.params.trans h.params, h'.rxHandler.trans h.rxHandler, h'.flash.trans h.flash,
    h'.flashAnswers.trans h.flashAnswers, h'.booted.trans h.booted, fun f hf => h'.faults f (h.faults f hf)⟩

/-- A command: it records faults, and removes none. -/
theorem SameBut.handlerFrame {s t : State} (h : SameBut s t) (hf : ∀ f ∈ s.faults, f ∈ t.faults) : HandlerFrame s t :=
  ⟨h.params, h.rxHandler, h.flash, h.flashAnswers, by rw [h.dfu], hf⟩

theorem HandlerFrame.setMain {s t : State} (h : HandlerFrame s t) (ops : List MainOp) : HandlerFrame s (t.setMain ops) :=
  ⟨h.params, h.rxHandler, h.flash, h.flashAnswers, h.booted, h.faults⟩

theorem HandlerFrame.respond {s t : State} (h : HandlerFrame s t) (c : RespCode) (d : BitVec 16) :
    HandlerFrame s (t.respond c d) :=
  ⟨h.params, h.rxHandler, h.flash, h.flashAnswers, h.booted, h.faults⟩

/-- A part of a handler. -/
theorem mainOp_frame {s t : State} {op : MainOp} {rest : List MainOp} (ht : mainOp op rest s = some t) :
    HandlerFrame s t := by
  cases op with
  | write e b => cases ht; exact ((cmdWrite_sameBut e b s).handlerFrame (cmdWrite_faults e b s)).setMain _
  | read0 =>
    cases ht
    have h := (cmdRead_sameBut 0 s).handlerFrame (cmdRead_faults 0 s)
    have hk := keepByte_same (cmdRead 0 s)
    exact (HandlerFrame.mk (hk.1.trans h.params) (hk.2.2.2.2.2.2.2.trans h.rxHandler)
      (hk.2.2.2.2.1.trans h.flash) (hk.2.2.2.2.2.2.1.trans h.flashAnswers)
      (by rw [hk.2.2.2.1]; exact h.booted) (fun f hf => by rw [hk.2.2.2.2.2.1]; exact h.faults f hf)).setMain _
  | flush e =>
    obtain ⟨u, hu, rfl⟩ := Option.map_eq_some_iff.mp ht
    exact ((cmdFlush_sameBut hu).handlerFrame fun f hf => by rw [cmdFlush_faults hu]; exact hf).setMain _
  | zlpAck =>
    obtain ⟨u, hu, rfl⟩ := Option.map_eq_some_iff.mp ht
    exact ((cmdZlpAck_sameBut hu).handlerFrame fun f hf => by rw [cmdZlpAck_faults hu]; exact hf).setMain _
  | flagClr mask => cases ht; exact ⟨rfl, rfl, rfl, rfl, rfl, fun _ h => h⟩
  | pendClr e =>
    cases ht
    exact ((cmdPendClr_sameBut e s).handlerFrame fun f hf => by rw [cmdPendClr_faults]; exact hf).setMain _
  | configure e ty dir mps =>
    cases ht
    exact ((cmdConfigure_sameBut e ty dir mps s).handlerFrame fun f hf => by rw [cmdConfigure_faults]; exact hf).setMain _
  | waitEnter len => cases ht; exact ⟨rfl, rfl, rfl, rfl, rfl, fun _ h => h⟩
  | waitLoop len i =>
    cases ht
    unfold waitIteration
    split
    · split
      · exact ⟨rfl, rfl, rfl, rfl, rfl, fun _ h => h⟩
      · exact ((cmdDrain_sameBut 0 s).handlerFrame fun f hf => by rw [cmdDrain_faults]; exact hf).setMain _
    · exact ⟨rfl, rfl, rfl, rfl, rfl, fun _ h => h⟩
  | clearIfDrained => cases ht; exact (HandlerFrame.refl s).setMain _
  | sendLoop => cases ht; exact (HandlerFrame.refl s).setMain _
  | dnloadStore n =>
    cases ht
    refine HandlerFrame.setMain ⟨?_, ?_, ?_, ?_, dnloadStore_booted n s, ?_⟩ _ <;> unfold dnloadStore <;> split <;>
      first | rfl | exact fun _ h => h
  | dnloadEnd =>
    cases ht
    refine HandlerFrame.setMain ⟨?_, ?_, ?_, ?_, dnloadEnd_booted s, ?_⟩ _ <;> unfold dnloadEnd <;> split <;>
      first | rfl | exact fun _ h => h
  | clrstatusEnd => cases ht; exact ⟨rfl, rfl, rfl, rfl, rfl, fun _ h => h⟩
  | abortEnd => cases ht; exact ⟨rfl, rfl, rfl, rfl, rfl, fun _ h => h⟩
  | lineCodingStore => cases ht; exact ⟨rfl, rfl, rfl, rfl, rfl, fun _ h => h⟩

theorem mainStep_frame {s t : State} (ht : mainStep s = some t) : HandlerFrame s t := by
  unfold mainStep at ht
  split at ht
  · cases ht
  · exact mainOp_frame ht

theorem agentStep_frame (a : AgentStep) (s : State) : HandlerFrame s (agentStep a s) := by
  have h := agentStep_mainOwned a s
  exact ⟨h.params, h.rxHandler, h.flash, h.flashAnswers, by rw [h.dfu], fun f hf => by rw [h.faults]; exact hf⟩

/-- A handler's run. -/
theorem drive_frame (fuel : Nat) (s : State) : HandlerFrame s (drive fuel s) := by
  induction fuel generalizing s with
  | zero => exact .refl s
  | succ fuel ih =>
    unfold drive
    split
    · exact .refl s
    · split
      · next a rest _ =>
        have h0 : HandlerFrame s { s with sched := rest } := ⟨rfl, rfl, rfl, rfl, rfl, fun _ h => h⟩
        exact (h0.trans (agentStep_frame a _)).trans (ih _)
      · next rest _ =>
        have h0 : HandlerFrame s { s with sched := rest } := ⟨rfl, rfl, rfl, rfl, rfl, fun _ h => h⟩
        refine HandlerFrame.trans ?_ (ih _)
        cases hs : mainStep { s with sched := rest } with
        | none => exact h0
        | some t => exact h0.trans (mainStep_frame hs)
      · split
        · next hs => exact (mainStep_frame hs).trans (ih _)
        · exact .refl s

theorem runHandler_frame (ops : List MainOp) (s : State) : HandlerFrame s (runHandler ops s) := by
  have h : HandlerFrame s { s with main := ops ++ s.main, rdata := [], handling := true } :=
    ⟨rfl, rfl, rfl, rfl, rfl, fun _ h => h⟩
  exact h.trans (drive_frame _ _)

theorem runProcedure_frame (ops : List MainOp) (s : State) : HandlerFrame s (runProcedure ops s) := by
  have h : HandlerFrame s { s with main := ops ++ s.main, rdata := [] } := ⟨rfl, rfl, rfl, rfl, rfl, fun _ h => h⟩
  exact h.trans (drive_frame _ _)

theorem seqReject_frame (s : State) : HandlerFrame s (seqReject s) := ⟨rfl, rfl, rfl, rfl, rfl, fun _ h => h⟩

theorem seqRecv_frame (len : Nat) (after : List MainOp) (s : State) : HandlerFrame s (seqRecv len after s) := by
  unfold seqRecv; split
  · exact seqReject_frame s
  · exact runHandler_frame _ s

theorem tearDownPcb_frame (s : State) : HandlerFrame s (tearDownPcb s) := by
  refine ⟨tearDownPcb_params s, ?_, tearDownPcb_flash s, ?_, by rw [tearDownPcb_dfu],
    fun f h => by rw [tearDownPcb_faults]; exact h⟩ <;> simp only [tearDownPcb]

/-- Every instruction but `DFU_GETSTATUS`. -/
theorem exec_frame {s t : State} {i : Instr} (hg : ∀ r, i ≠ .dfuGetstatus r) (hi : exec i s = .next t) :
    HandlerFrame s t := by
  cases i <;>
    simp only [exec, execPcbInit, execConfigure, execWrite, execRead, execFlush, execDrain, execSetStall, execClearStall,
      execZlpAck, execFlagSet, execFlagClr, execPendClr, execDfuDetach, execDfuDnload, execDfuUpload,
      execDfuClrstatus, execDfuGetstate, execDfuAbort, execDfuReject, execCdcSetLineCoding, execCdcGetLineCoding,
      execCdcSetControlLineState, execCdcReject, runCommand, runHeldCommand] at hi
  case dfuGetstatus r => exact absurd rfl (hg r)
  all_goals
    rcases (unlessEnded_next hi).2 with ⟨-, rfl⟩ | ⟨-, ht⟩
    · exact .refl _
    clear hi
  case pcbInit =>
    cases ht
    exact (tearDownPcb_frame s).respond .ok 0
  case configure e ty dir mps =>
    cases ht
    exact (cmdConfigure_sameBut e ty dir mps s).handlerFrame fun f hf => by rw [cmdConfigure_faults]; exact hf
  case write e b => cases ht; exact (cmdWrite_sameBut e b s).handlerFrame (cmdWrite_faults e b s)
  case read e => cases ht; exact (cmdRead_sameBut e s).handlerFrame (cmdRead_faults e s)
  case flush e =>
    cases ht
    cases hc : cmdFlush e s with
    | none => exact ⟨rfl, rfl, rfl, rfl, rfl, fun _ h => h⟩
    | some u => exact (cmdFlush_sameBut hc).handlerFrame fun f hf => by rw [cmdFlush_faults hc]; exact hf
  case drain e => cases ht; exact (cmdDrain_sameBut e s).handlerFrame fun f hf => by rw [cmdDrain_faults]; exact hf
  case setStall e =>
    cases ht; exact (cmdSetStall_sameBut e s).handlerFrame fun f hf => by rw [cmdSetStall_faults]; exact hf
  case clearStall e =>
    cases ht; exact (cmdClearStall_sameBut e s).handlerFrame fun f hf => by rw [cmdClearStall_faults]; exact hf
  case zlpAck =>
    cases ht
    cases hc : cmdZlpAck s with
    | none => exact ⟨rfl, rfl, rfl, rfl, rfl, fun _ h => h⟩
    | some u => exact (cmdZlpAck_sameBut hc).handlerFrame fun f hf => by rw [cmdZlpAck_faults hc]; exact hf
  case flagSet m => cases ht; exact ⟨rfl, rfl, rfl, rfl, rfl, fun _ h => h⟩
  case flagClr m => cases ht; exact ⟨rfl, rfl, rfl, rfl, rfl, fun _ h => h⟩
  case pendClr e => cases ht; exact (cmdPendClr_sameBut e s).handlerFrame fun f hf => by rw [cmdPendClr_faults]; exact hf
  case dfuDetach r => cases ht; exact seqReject_frame s
  case dfuUpload r => cases ht; exact seqReject_frame s
  case dfuReject bm br r => cases ht; exact seqReject_frame s
  case cdcReject bm br r => cases ht; exact seqReject_frame s
  case dfuDnload r =>
    split at ht
    · cases ht; exact seqReject_frame s
    · split at ht
      · cases ht; exact runHandler_frame _ s
      · split at ht
        · cases ht; exact seqReject_frame s
        · cases ht; exact seqRecv_frame _ _ s
  case dfuClrstatus r =>
    split at ht
    · cases ht; exact runHandler_frame _ s
    · cases ht; exact seqReject_frame s
  case dfuGetstate r => cases ht; exact runHandler_frame _ s
  case dfuAbort r => cases ht; exact runHandler_frame _ s
  case cdcSetLineCoding r =>
    split at ht
    · cases ht; exact seqReject_frame s
    · cases ht; exact seqRecv_frame _ _ s
  case cdcGetLineCoding r => cases ht; exact runHandler_frame _ s
  case cdcSetControlLineState r => cases ht; exact runHandler_frame _ s

/-- `DFU_GETSTATUS`: the transition, then the boot jump or a response that leaves the flash alone. -/
inductive GetstatusCase (s t : State) : Prop
  | ended (hb : s.dfu.booted = true) (ht : t = s)
  | jump (hb : s.dfu.booted = false) (hw : (getstatusTransition s).dfu.bState = .dfuMANIFEST_WAIT_RESET)
      (ht : t = bootJump (getstatusTransition s))
  | report (hb : s.dfu.booted = false) (hw : (getstatusTransition s).dfu.bState ≠ .dfuMANIFEST_WAIT_RESET)
      (ht : t = seqSend (statusBytes (getstatusTransition s).params (getstatusTransition s).dfu) (getstatusTransition s))

theorem execDfuGetstatus_cases {s t : State} {r : ReqArgs} (h : exec (.dfuGetstatus r) s = .next t) :
    GetstatusCase s t := by
  simp only [exec, execDfuGetstatus] at h
  rcases (unlessEnded_next h).2 with ⟨hb, rfl⟩ | ⟨hb, ht⟩
  · exact .ended hb rfl
  · split at ht
    · cases ht
    · split at ht
      · next hw => cases ht; exact .jump hb hw rfl
      · next hw => cases ht; exact .report hb hw rfl

theorem getstatusTransition_frame (s : State) :
    (getstatusTransition s).params = s.params ∧ (getstatusTransition s).faults = s.faults ∧
      (getstatusTransition s).dfu.booted = s.dfu.booted ∧ (getstatusTransition s).dfu.blk = s.dfu.blk ∧
      (getstatusTransition s).events = s.events ∧ (getstatusTransition s).rxHandler = s.rxHandler := by
  cases hp : s.dfu.flushPending with
  | false => rw [getstatusTransition_quiet hp]; exact ⟨rfl, rfl, rfl, rfl, rfl, rfl⟩
  | true =>
    rw [getstatusTransition_flush hp]
    have h := blockFlush_frame (s.setDfu { s.dfu with bState := getstatusNext true s.dfu.bState })
    refine ⟨?_, ?_, by rw [h.dfu]; rfl, by rw [h.dfu]; rfl, ?_, ?_⟩ <;> rw [h.same] <;> rfl

/-- MAIN's turn: it runs a `DFU_GETSTATUS`, or leaves alone what a handler does. -/
theorem TurnCase.frame {s t : State} (h : TurnCase s t) :
    (∃ r items, s.main = [] ∧ exec (.dfuGetstatus r) { s with program := items } = .next t) ∨ HandlerFrame s t := by
  have h0 (items) : HandlerFrame s { s with program := items } := ⟨rfl, rfl, rfl, rfl, rfl, fun _ h => h⟩
  cases h with
  | idle hm hp ht => subst ht; exact .inr (.refl _)
  | resumed hm ht => subst ht; exact .inr (drive_frame _ _)
  | instr i w items hm hp hw ht =>
    by_cases hi : ∃ r, i = .dfuGetstatus r
    · obtain ⟨r, rfl⟩ := hi; exact .inl ⟨r, items, hm, ht⟩
    · exact .inr ((h0 items).trans (exec_frame (fun r hr => hi ⟨r, hr⟩) ht))
  | reserved w items hm hp hw ht =>
    rcases (unlessEnded_next (k := fun s => .next (raise .reservedCommand s)) ht).2 with ⟨-, h⟩ | ⟨-, h⟩
    · subst h; exact .inr (h0 items)
    · cases h; exact .inr ((h0 items).trans ((HandlerFrame.refl _).respond _ _))
  | putchar c items hm hp ht =>
    subst ht; unfold callPutchar; split
    · exact .inr ((h0 items).trans (runProcedure_frame _ _))
    · exact .inr (h0 items)
  | init d items hm hp ht =>
    subst ht; cases d
    · exact .inr (h0 items)
    · exact .inr ((h0 items).trans (runProcedure_frame _ _))
  | rx items hm hp ht => subst ht; exact .inr (h0 _)

end Sys2Proof.Machine
end

