-- ==== Sys2Proof/Laws/PerInstr.lean ====
section
/-! SUPPORT. Per-instruction laws. Family `EncodeRow`: the encoded form of every instruction, with the default
request codes, matches its own row of spec/opcode_table.json (spec/30_encoding.md R93, R103, R106). -/

namespace Sys2Proof.Laws.EncodeRow

open Sys2Proof

/-- What an instruction's row of spec/opcode_table.json matches on: a command row's mask and match, or a driver and the first
two bytes of the setup packet. The two rows that take everything else match on no bit; theirs are the bytes they carry. -/
inductive Row
  | command (r : CmdRow)
  | request (d : Driver) (low : BitVec 16)
  deriving DecidableEq, Repr

def row : Instr → Row
  | .pcbInit => .command ⟨0x10000000, 0xFFFFFFFF⟩
  | .configure _ _ _ _ => .command ⟨0x20000000, 0xF01FF800⟩
  | .write _ _ => .command ⟨0x30000000, 0xF0FFFF00⟩
  | .read _ => .command ⟨0x40000000, 0xF0FFFFFF⟩
  | .flush _ => .command ⟨0x50000000, 0xF0FFFFFF⟩
  | .drain _ => .command ⟨0x60000000, 0xF0FFFFFF⟩
  | .setStall _ => .command ⟨0x70000000, 0xF0FFFFFF⟩
  | .clearStall _ => .command ⟨0x80000000, 0xF0FFFFFF⟩
  | .zlpAck => .command ⟨0x90000000, 0xFFFFFFFF⟩
  | .flagSet _ => .command ⟨0xA0000000, 0xFFFFFFF8⟩
  | .flagClr _ => .command ⟨0xB0000000, 0xFFFFFFF8⟩
  | .pendClr _ => .command ⟨0xC0000000, 0xF0FFFFFF⟩
  | .dfuDetach _ => .request .dfu 0x0021
  | .dfuDnload _ => .request .dfu 0x0121
  | .dfuUpload _ => .request .dfu 0x02A1
  | .dfuGetstatus _ => .request .dfu 0x03A1
  | .dfuClrstatus _ => .request .dfu 0x0421
  | .dfuGetstate _ => .request .dfu 0x05A1
  | .dfuAbort _ => .request .dfu 0x0621
  | .dfuReject bm br _ => .request .dfu (br ++ bm)
  | .cdcSetLineCoding _ => .request .cdc 0x2021
  | .cdcGetLineCoding _ => .request .cdc 0x21A1
  | .cdcSetControlLineState _ => .request .cdc 0x2221
  | .cdcReject bm br _ => .request .cdc (br ++ bm)

/-- The encoded form matches the row. -/
def matchesRow (w : Encoded) : Row → Prop
  | .command r => ∃ v, w = .cmd32 v ∧ v &&& r.mask = r.mtch
  | .request d low => ∃ s, w = .setup8 d s ∧ s.extractLsb' 0 16 = low

def Statement (i : Instr) : Prop := matchesRow (encode RequestCodes.default i) (row i)

theorem command_row {op : BitVec 4} {e : EpNum} {arg : BitVec 24} {r : CmdRow} (hm : r.mask.extractLsb' 28 4 = 0xF)
    (ho : r.mtch.extractLsb' 28 4 = op) (he : e.toBits &&& r.mask.extractLsb' 24 4 = r.mtch.extractLsb' 24 4)
    (ha : arg &&& r.mask.extractLsb' 0 24 = r.mtch.extractLsb' 0 24) :
    matchesRow (.cmd32 (cmdWord op e arg)) (.command r) :=
  ⟨_, rfl, (r.selects_iff _).mp (r.selects_cmdWord op e arg hm ho he ha)⟩

theorem request_row (d : Driver) (bm br : Byte) (r : ReqArgs) :
    matchesRow (.setup8 d (setupWord bm br r)) (.request d (br ++ bm)) :=
  ⟨_, rfl, (setup_low_eq_iff _ _ _).mpr ⟨setupWord_brField bm br r, setupWord_bmField bm br r⟩⟩

/-- A row that leaves the endpoint field open takes every endpoint. -/
theorem open_ep (e : EpNum) : e.toBits &&& (0x0 : BitVec 4) = 0 := by simp

theorem pcbInit : Statement .pcbInit := command_row (by decide) (by decide) (by decide) (by decide)

theorem configure (e : EpNum) (ty : XferType) (dir : Dir) (mps : BitVec 11) : Statement (.configure e ty dir mps) := by
  refine command_row (by decide) (by decide) (open_ep e) ?_
  apply BitVec.eq_of_getLsbD_eq
  intro i hi
  simp only [configureArg, BitVec.getLsbD_and, BitVec.getLsbD_append, BitVec.getLsbD_extractLsb']
  interval_cases i <;> simp

theorem write (e : EpNum) (b : Byte) : Statement (.write e b) := by
  refine command_row (by decide) (by decide) (open_ep e) ?_
  apply BitVec.eq_of_getLsbD_eq
  intro i hi
  simp only [BitVec.getLsbD_and, BitVec.getLsbD_append, BitVec.getLsbD_extractLsb']
  interval_cases i <;> simp

theorem read (e : EpNum) : Statement (.read e) := command_row (by decide) (by decide) (open_ep e) (by decide)

theorem flush (e : EpNum) : Statement (.flush e) := command_row (by decide) (by decide) (open_ep e) (by decide)

theorem drain (e : EpNum) : Statement (.drain e) := command_row (by decide) (by decide) (open_ep e) (by decide)

theorem setStall (e : EpNum) : Statement (.setStall e) := command_row (by decide) (by decide) (open_ep e) (by decide)

theorem clearStall (e : EpNum) : Statement (.clearStall e) := command_row (by decide) (by decide) (open_ep e) (by decide)

theorem zlpAck : Statement .zlpAck := command_row (by decide) (by decide) (by decide) (by decide)

theorem flagSet (mask : BitVec 3) : Statement (.flagSet mask) :=
  command_row (by decide) (by decide) (by decide) (by revert mask; decide)

theorem flagClr (mask : BitVec 3) : Statement (.flagClr mask) :=
  command_row (by decide) (by decide) (by decide) (by revert mask; decide)

theorem pendClr (e : EpNum) : Statement (.pendClr e) := command_row (by decide) (by decide) (open_ep e) (by decide)

theorem dfuDetach (r : ReqArgs) : Statement (.dfuDetach r) := request_row .dfu 0x21 0x00 r
theorem dfuDnload (r : ReqArgs) : Statement (.dfuDnload r) := request_row .dfu 0x21 0x01 r
theorem dfuUpload (r : ReqArgs) : Statement (.dfuUpload r) := request_row .dfu 0xA1 0x02 r
theorem dfuGetstatus (r : ReqArgs) : Statement (.dfuGetstatus r) := request_row .dfu 0xA1 0x03 r
theorem dfuClrstatus (r : ReqArgs) : Statement (.dfuClrstatus r) := request_row .dfu 0x21 0x04 r
theorem dfuGetstate (r : ReqArgs) : Statement (.dfuGetstate r) := request_row .dfu 0xA1 0x05 r
theorem dfuAbort (r : ReqArgs) : Statement (.dfuAbort r) := request_row .dfu 0x21 0x06 r
theorem dfuReject (bm br : Byte) (r : ReqArgs) : Statement (.dfuReject bm br r) := request_row .dfu bm br r
theorem cdcSetLineCoding (r : ReqArgs) : Statement (.cdcSetLineCoding r) := request_row .cdc 0x21 0x20 r
theorem cdcGetLineCoding (r : ReqArgs) : Statement (.cdcGetLineCoding r) := request_row .cdc 0xA1 0x21 r
theorem cdcSetControlLineState (r : ReqArgs) : Statement (.cdcSetControlLineState r) := request_row .cdc 0x21 0x22 r
theorem cdcReject (bm br : Byte) (r : ReqArgs) : Statement (.cdcReject bm br r) := request_row .cdc bm br r

end Sys2Proof.Laws.EncodeRow
end

