-- ==== Sys2Proof/Laws/Waits.lean ====
section
/-! SUPPORT. What the data-stage wait can do (spec/42_control_sequencer.md R182): a poll drains endpoint 0 and changes nothing
else, and a wait that is never satisfied times out (R188). -/

namespace Sys2Proof.Machine

/-- What the polls of a wait leave: bytes may have moved from the wire's buffer to the FIFO, and the flag and the pending bit
that a drain sets may have been set. -/
structure Polled (s t : State) : Prop where
  quiet : QuietFrame s t
  dfu : t.dfu = s.dfu
  lineCoding : t.lineCoding = s.lineCoding
  bytes : (t.ep 0).q ++ (t.ep 0).rxBuf = (s.ep 0).q ++ (s.ep 0).rxBuf
  cfgValid : (t.ep 0).cfgValid = (s.ep 0).cfgValid
  xtype : (t.ep 0).xtype = (s.ep 0).xtype
  txReady : (t.ep 0).txReady = (s.ep 0).txReady
  flags : t.pcb.flags &&& ~~~flagSetupDataAvail = s.pcb.flags &&& ~~~flagSetupDataAvail
  pending : t.pcb.pending &&& ~~~epBit 0 = s.pcb.pending &&& ~~~epBit 0
  stall : t.pcb.stall = s.pcb.stall

theorem QuietFrame.refl (s : State) : QuietFrame s s :=
  ⟨⟨rfl, rfl, fun _ _ => rfl, rfl, rfl, rfl⟩, fun _ => rfl, rfl, rfl, rfl, rfl⟩

theorem QuietFrame.trans {s t u : State} (h : QuietFrame s t) (h' : QuietFrame t u) : QuietFrame s u :=
  ⟨⟨h'.params.trans h.params, h'.rxHandler.trans h.rxHandler, fun e he => (h'.others e he).trans (h.others e he),
    h'.program.trans h.program, h'.sched.trans h.sched, h'.halted.trans h.halted⟩, fun a => (h'.flash a).trans (h.flash a),
    h'.flashAnswers.trans h.flashAnswers, h'.events.trans h.events, h'.faults.trans h.faults, h'.draws.trans h.draws⟩

theorem Polled.refl (s : State) : Polled s s := ⟨.refl s, rfl, rfl, rfl, rfl, rfl, rfl, rfl, rfl, rfl⟩

theorem Polled.trans {s t u : State} (h : Polled s t) (h' : Polled t u) : Polled s u :=
  ⟨h.quiet.trans h'.quiet, h'.dfu.trans h.dfu, h'.lineCoding.trans h.lineCoding, h'.bytes.trans h.bytes,
    h'.cfgValid.trans h.cfgValid, h'.xtype.trans h.xtype, h'.txReady.trans h.txReady, h'.flags.trans h.flags,
    h'.pending.trans h.pending, h'.stall.trans h.stall⟩

/-- What MAIN has still to do, and the mask, are no part of it. -/
theorem Polled.setMain {s t : State} (h : Polled s t) (ops : List MainOp) : Polled s (t.setMain ops) :=
  ⟨⟨⟨h.quiet.params, h.quiet.rxHandler, h.quiet.others, h.quiet.program, h.quiet.sched, h.quiet.halted⟩,
    h.quiet.flash, h.quiet.flashAnswers, h.quiet.events, h.quiet.faults, h.quiet.draws⟩, h.dfu, h.lineCoding,
    h.bytes, h.cfgValid, h.xtype, h.txReady, h.flags, h.pending, h.stall⟩

theorem or_and_not {w : Nat} (a m : BitVec w) : (a ||| m) &&& ~~~m = a &&& ~~~m := by
  ext i hi
  simp only [BitVec.getElem_and, BitVec.getElem_or, BitVec.getElem_not]
  cases a[i] <;> cases m[i] <;> rfl

theorem noteDrain_masked (k : Nat) (p : Pcb) :
    (p.noteDrain 0 k).flags &&& ~~~flagSetupDataAvail = p.flags &&& ~~~flagSetupDataAvail ∧
    (p.noteDrain 0 k).pending &&& ~~~epBit 0 = p.pending &&& ~~~epBit 0 ∧ (p.noteDrain 0 k).stall = p.stall := by
  unfold Pcb.noteDrain
  split
  · exact ⟨rfl, rfl, rfl⟩
  · exact ⟨or_and_not p.flags flagSetupDataAvail, or_and_not p.pending (epBit 0), rfl⟩

/-- One poll. -/
theorem cmdDrain_polled {s : State} (he : s.hasEp 0 = true) (hc : (s.ep 0).cfgValid = true) (hx : (s.ep 0).xtype = .ctrl) :
    Polled s (cmdDrain 0 s) := by
  rw [cmdDrain_performed he hc (by simp [Endpoint.mayReceive, hx])]
  set k := drainCount s.params.fifoCap (s.ep 0)
  obtain ⟨h1, h2, h3⟩ := noteDrain_masked k s.pcb
  set t := ((s.setEp 0 (drained s.params.fifoCap (s.ep 0))).setPcb (s.pcb.noteDrain 0 k)).respond .ok (countData k)
  have h0 : t.ep 0 = drained s.params.fifoCap (s.ep 0) := State.ep_setEp_same s 0 _
  exact ⟨⟨⟨rfl, rfl, fun e hne => State.ep_setEp_of_ne s _ hne, rfl, rfl, rfl⟩, fun _ => rfl, rfl, rfl, rfl, rfl⟩, rfl, rfl,
    by rw [h0]; exact drained_bytes _ _, by rw [h0]; rfl, by rw [h0]; rfl, by rw [h0]; rfl, h1, h2, h3⟩

/-- What a time-out leaves (R188): endpoint 0 stalled and its FIFO empty, the two flags clear, the mask off, the handler at
its end, and none of the driver's state changed. -/
structure TimedOut (s t : State) : Prop where
  quiet : QuietFrame s t
  dfu : t.dfu = s.dfu
  lineCoding : t.lineCoding = s.lineCoding
  hwStall : (t.ep 0).hwStall = true
  q : (t.ep 0).q = []
  txReady : (t.ep 0).txReady = (s.ep 0).txReady
  ep0Masked : t.ep0Masked = false
  main : t.main = []
  pcb : t.pcb = ⟨s.pcb.flags &&& ~~~flagSetupDataAvail, s.pcb.pending &&& ~~~epBit 0, s.pcb.stall ||| epBit 0⟩

theorem Polled.timedOut {s t : State} (h : Polled s t) : TimedOut s (raise .dataStageTimeout t) := by
  have hep : (raise .dataStageTimeout t).ep 0 = { t.ep 0 with hwStall := true, q := [] } := by
    show State.ep (State.setEp 0 { (t.stall 0).ep 0 with q := [] } (t.stall 0)) 0 = _
    rw [State.ep_setEp_same]
    show { State.ep (t.setEp 0 _) 0 with q := [] } = _
    rw [State.ep_setEp_same]
  have hother (e : EpNum) (hne : e ≠ 0) : (raise .dataStageTimeout t).ep e = t.ep e := by
    show State.ep (State.setEp 0 { (t.stall 0).ep 0 with q := [] } (t.stall 0)) e = _
    rw [State.ep_setEp_of_ne _ _ hne]
    exact State.ep_setEp_of_ne _ _ hne
  have q := h.quiet
  exact ⟨⟨⟨q.params, q.rxHandler, fun e hne => (hother e hne).trans (q.others e hne), q.program, q.sched, q.halted⟩, q.flash,
    q.flashAnswers, q.events, q.faults, q.draws⟩, h.dfu, h.lineCoding, by rw [hep], by rw [hep],
    by rw [hep]; exact h.txReady, rfl, rfl, by rw [← h.flags, ← h.pending, ← h.stall]; rfl⟩

/-- A wait that is never satisfied polls until the bound, then times out (R182, R188). -/
theorem runs_wait_timeout {len bound : Nat} {rest : List MainOp} (j : Nat) {s : State} (i : Nat)
    (hj : i + j = bound) (hm : s.main = .waitLoop len i :: rest) (hs : s.sched = []) (hh : s.halted = false)
    (he : s.hasEp 0 = true) (hc : (s.ep 0).cfgValid = true) (hx : (s.ep 0).xtype = .ctrl)
    (hb : s.params.waitBound = some bound) (hl : ((s.ep 0).q ++ (s.ep 0).rxBuf).length < len) :
    ∃ t, Runs (j + 1) s t ∧ TimedOut s t := by
  have hlt : (s.ep 0).len < len := by
    rw [List.length_append] at hl; simp only [Endpoint.len]; omega
  induction j generalizing s i with
  | zero =>
    refine ⟨_, Runs.one hm hs hh ?_, (Polled.refl s).timedOut⟩
    have : waitExpired s i = true := by simp [waitExpired, hb]; omega
    simp [mainOp, waitIteration, hlt, this]
  | succ j ih =>
    have hne : waitExpired s i = false := by simp [waitExpired, hb]; omega
    have hp := (cmdDrain_polled he hc hx).setMain (.waitLoop len (i + 1) :: rest)
    have h1 : mainOp (.waitLoop len i) rest s = some ((cmdDrain 0 s).setMain (.waitLoop len (i + 1) :: rest)) := by
      simp [mainOp, waitIteration, hlt, hne]
    set u := (cmdDrain 0 s).setMain (.waitLoop len (i + 1) :: rest)
    have hl' : ((u.ep 0).q ++ (u.ep 0).rxBuf).length < len := by rw [hp.bytes]; exact hl
    obtain ⟨t, hr, ht⟩ := ih (s := u) (i + 1) (by omega) rfl (hp.quiet.sched.trans hs) (hp.quiet.halted.trans hh)
      (by simp only [State.hasEp, hp.quiet.params]; exact he) (hp.cfgValid.trans hc) (hp.xtype.trans hx)
      (by rw [hp.quiet.params]; exact hb) hl' (by rw [List.length_append] at hl'; simp only [Endpoint.len]; omega)
    refine ⟨t, ?_, ?_⟩
    · have := (Runs.one hm hs hh h1).trans hr
      rwa [Nat.add_comm] at this
    · exact ⟨hp.quiet.trans ht.quiet, ht.dfu.trans hp.dfu, ht.lineCoding.trans hp.lineCoding, ht.hwStall, ht.q,
        ht.txReady.trans hp.txReady, ht.ep0Masked, ht.main, by rw [ht.pcb, hp.flags, hp.pending, hp.stall]⟩

/-- `SEQ_RECV` whose data stage never comes (R188): nothing of the driver's own part is done. -/
theorem seqRecv_timeout {s : State} (h : s.readyForRequest) {len bound : Nat} (after : List MainOp)
    (hb : s.params.waitBound = some bound) (hcap : len ≤ s.params.fifoCap)
    (hl : (s.ep 0).len + (s.ep 0).rxBuf.length < len) : TimedOut s (seqRecv len after s) := by
  have he := h.hasEp
  obtain ⟨⟨⟨hh, -⟩, hm, hs⟩, hn, hc, hx, ht⟩ := h
  rw [seqRecv, if_neg (by omega)]
  simp only [runHandler, resume, hm, List.append_nil]
  set u : State := { s with main := recvOps len after, rdata := [], handling := true } with hu
  have h1 := mainOp_waitEnter u len (.zlpAck :: (List.replicate len .read0 ++ .clearIfDrained :: after))
  set v : State := { u with
    ep0Masked := true, main := .waitLoop len 0 :: .zlpAck :: (List.replicate len .read0 ++ .clearIfDrained :: after) } with hv
  obtain ⟨t, hr, hto⟩ := runs_wait_timeout (s := v) bound 0 (Nat.zero_add _) rfl hs hh he hc hx hb
    (by rw [List.length_append]; exact hl)
  have hall := (Runs.one (s := u) rfl hs hh h1).trans hr
  rw [drive_runs_done hall hto.main (by simp only [driveFuel, hu, hb, Option.getD_some]; omega)]
  exact ⟨⟨⟨hto.quiet.params, hto.quiet.rxHandler, hto.quiet.others, hto.quiet.program, hto.quiet.sched, hto.quiet.halted⟩,
    hto.quiet.flash, hto.quiet.flashAnswers, hto.quiet.events, hto.quiet.faults, hto.quiet.draws⟩, hto.dfu, hto.lineCoding,
    hto.hwStall, hto.q, hto.txReady, hto.ep0Masked, hto.main, hto.pcb⟩

end Sys2Proof.Machine
end

