-- ==== Sys2Proof/Laws/Rounds.lean ====
section
/-! SUPPORT. A data stage that arrives during its wait (spec/42_control_sequencer.md R182, spec/41_wire_side.md R169): what one
round of the wait does, what a run of rounds does, and what `SEQ_RECV` then leaves (R184). -/

namespace Sys2Proof.Machine

/-! ### Gaps -/

/-- A scheduled step of another agent falls in the gap (spec/20_memory.md R73). -/
theorem drive_agent {s : State} {a : AgentStep} {slots : List Slot} (hm : s.main ≠ []) (hh : s.halted = false)
    (hs : s.sched = .agent a :: slots) (k : Nat) : drive (k + 1) s = drive k (agentStep a { s with sched := slots }) := by
  rw [drive, if_neg (by simp [hm, hh]), hs]

/-- MAIN's scheduled turn issues its next part. -/
theorem drive_turn {s t : State} {slots : List Slot} (hm : s.main ≠ []) (hh : s.halted = false)
    (hs : s.sched = .main :: slots) (h : mainStep { s with sched := slots } = some t) (k : Nat) :
    drive (k + 1) s = drive k t := by
  rw [drive, if_neg (by simp [hm, hh]), hs]
  simp only [h, Option.getD_some]

/-! ### One round -/

/-- Endpoint 0 can receive a packet and holds none. -/
structure Endpoint.Receptive (x : Endpoint) : Prop where
  cfgValid : x.cfgValid = true
  hwEn : x.hwEn = true
  xtype : x.xtype = .ctrl
  hwStall : x.hwStall = false
  rxReady : x.rxReady = false
  rxBuf : x.rxBuf = []

/-- What an endpoint holds after a round: the packet's bytes behind the others, the toggle turned if there was one. -/
def Endpoint.afterRound (p : Option (List Byte)) (x : Endpoint) : Endpoint :=
  { x with q := x.q ++ p.getD [], toggle := x.toggle ^^ p.isSome }

theorem Endpoint.Receptive.afterRound {x : Endpoint} (h : x.Receptive) (p : Option (List Byte)) :
    (x.afterRound p).Receptive := ⟨h.1, h.2, h.3, h.4, h.5, h.6⟩

/-- The bits of the PCB that no drain of endpoint 0 sets. -/
structure Pcb.SameButDrained (p p' : Pcb) : Prop where
  flags : p'.flags &&& ~~~flagSetupDataAvail = p.flags &&& ~~~flagSetupDataAvail
  pending : p'.pending &&& ~~~epBit 0 = p.pending &&& ~~~epBit 0
  stall : p'.stall = p.stall

/-- The packet of a round, if there is one, lies in the receive buffer. -/
theorem drive_packet {s : State} (p : Option (List Byte)) {more : List Slot} (hm : s.main ≠ [])
    (hs : s.sched = p.toList.map (fun b => Slot.agent (.wireRx 0 b)) ++ more) (hr : s.running) (he : s.hasEp 0 = true)
    (hx : (s.ep 0).Receptive) (hp : (p.getD []).length ≤ (s.ep 0).mps.toNat) (k : Nat) :
    drive (p.toList.length + k) s = drive k
      { s with
        sched := more
        eps := s.eps.set 0
          { s.ep 0 with rxBuf := p.getD [], rxReady := p.isSome, toggle := (s.ep 0).toggle ^^ p.isSome } } := by
  cases p with
  | none =>
    simp only [Option.toList_none, List.length_nil, Nat.zero_add, Option.getD_none, Option.isSome_none, Bool.xor_false]
    have h0 : { s.ep 0 with rxBuf := [], rxReady := false } = s.ep 0 := by rw [← hx.rxBuf, ← hx.rxReady]
    have h1 : s.eps.set 0 (s.ep 0) = s.eps := s.eps_set_self 0
    have h2 : more = s.sched := by simpa using hs.symm
    rw [h0, h1, h2]
  | some b =>
    have hs' : s.sched = .agent (.wireRx 0 b) :: more := by simpa using hs
    rw [Option.toList_some, List.length_singleton, Nat.add_comm, drive_agent hm hr.1 hs']
    have hen : agentEnabled (.wireRx 0 b) { s with sched := more } = true := by
      simp only [agentEnabled, State.booted, hr.1, hr.2, Bool.not_false, Bool.true_and]
      show (s.hasEp 0 && (s.ep 0).hwEn && (s.ep 0).cfgValid && (s.ep 0).mayReceive && !(s.ep 0).hwStall &&
        !(s.ep 0).rxReady && decide (b.length ≤ (s.ep 0).mps.toNat)) = true
      simpa [he, hx.cfgValid, hx.hwEn, hx.hwStall, hx.rxReady, Endpoint.mayReceive, hx.xtype] using hp
    rw [agentStep_enabled hen]
    simp only [agentEffect, State.setEp, receivePacket, Option.getD_some, Option.isSome_some, Bool.xor_true]
    rfl

/-- An interrupt request is masked while the wait is in progress. -/
theorem drive_masked {s : State} (irq : Bool) {more : List Slot} (hm : s.main ≠ []) (hh : s.halted = false)
    (hs : s.sched = (if irq then [Slot.agent (.irqDrain 0)] else []) ++ more) (hk : s.ep0Masked = true) (k : Nat) :
    drive (irq.toNat + k) s = drive k { s with sched := more } := by
  cases irq with
  | false =>
    have h2 : more = s.sched := by simpa using hs.symm
    rw [Bool.toNat_false, Nat.zero_add, h2]
  | true =>
    rw [Bool.toNat_true, Nat.add_comm, drive_agent hm hh (by simpa using hs)]
    rw [agentStep_not_enabled (by simp [agentEnabled, hk])]

/-- One round of the wait: the packet is drained into the FIFO by the wait's own poll. -/
theorem drive_round {s : State} (rd : WaitRound) {more : List Slot} {len polls : Nat} {rest : List MainOp}
    (hm : s.main = .waitLoop len polls :: rest) (hs : s.sched = rd.slots ++ more) (hr : s.running)
    (he : s.hasEp 0 = true) (hk : s.ep0Masked = true) (hx : (s.ep 0).Receptive) (hl : (s.ep 0).len < len)
    (hp : (rd.packet.getD []).length ≤ (s.ep 0).mps.toNat)
    (hroom : (s.ep 0).len + (rd.packet.getD []).length ≤ s.params.fifoCap) (hb : s.params.waitBound ≠ some polls)
    (k : Nat) :
    ∃ p r, s.pcb.SameButDrained p ∧ drive (rd.slots.length + k) s = drive k
      { s with
        sched := more, main := .waitLoop len (polls + 1) :: rest
        eps := s.eps.set 0 ((s.ep 0).afterRound rd.packet), pcb := p, resp := r } := by
  have hlen : rd.slots.length + k = rd.packet.toList.length + (rd.irq.toNat + (k + 1)) := by
    cases h : rd.irq <;> simp [WaitRound.slots, h] <;> omega
  have hs' : s.sched = rd.packet.toList.map (fun b => Slot.agent (.wireRx 0 b)) ++
      ((if rd.irq then [Slot.agent (.irqDrain 0)] else []) ++ (.main :: more)) := by
    rw [hs]; simp [WaitRound.slots, List.append_assoc]
  have hmn : s.main ≠ [] := by simp [hm]
  rw [hlen, drive_packet rd.packet hmn hs' hr he hx hp,
    drive_masked rd.irq (by exact hmn) (by exact hr.1) rfl (by exact hk)]
  set x : Endpoint :=
    { s.ep 0 with rxBuf := rd.packet.getD [], rxReady := rd.packet.isSome, toggle := (s.ep 0).toggle ^^ rd.packet.isSome }
    with hxd
  set u : State := { s with sched := more, eps := s.eps.set 0 x } with hu
  have hue : u.ep 0 = x := State.ep_setEp_same s 0 x
  have hcount : drainCount u.params.fifoCap (u.ep 0) = (rd.packet.getD []).length := by
    rw [hue, drainCount, show u.params = s.params from rfl, show x.rxCnt = (rd.packet.getD []).length from rfl,
      show x.len = (s.ep 0).len from rfl]
    omega
  have hdr : drained u.params.fifoCap (u.ep 0) = (s.ep 0).afterRound rd.packet := by
    simp only [drained, hcount]
    rw [hue]
    simp only [hxd, List.take_length, List.drop_length, List.isEmpty_nil, Bool.not_true, Bool.and_false,
      Endpoint.afterRound]
    rw [← hx.rxBuf, ← hx.rxReady]
  have hstep : mainStep u = some
      { u with
        main := .waitLoop len (polls + 1) :: rest
        eps := u.eps.set 0 ((s.ep 0).afterRound rd.packet), pcb := u.pcb.noteDrain 0 (rd.packet.getD []).length
        resp := respWord .ok (countData (rd.packet.getD []).length) } := by
    have hnb : waitExpired u polls = false := by simpa [waitExpired] using hb
    have hul : (u.ep 0).len < len := by rw [hue]; exact hl
    have hmu : u.main = .waitLoop len polls :: rest := hm
    rw [mainStep, hmu]
    simp only [mainOp, waitIteration, hul, if_true, hnb, Bool.false_eq_true, if_false]
    rw [cmdDrain_performed (s := u) (by exact he) (by rw [hue]; exact hx.cfgValid)
      (by rw [hue]; simp [Endpoint.mayReceive, hxd, hx.xtype]), hcount, hdr]
    simp [State.setMain, State.setEp, State.setPcb, State.respond]
  obtain ⟨h1, h2, h3⟩ := noteDrain_masked (rd.packet.getD []).length s.pcb
  refine ⟨_, respWord .ok (countData (rd.packet.getD []).length), ⟨h1, h2, h3⟩, ?_⟩
  rw [drive_turn (s := { s with sched := .main :: more, eps := s.eps.set 0 x }) (slots := more) (by exact hmn)
    (by exact hr.1) rfl hstep]
  have hset : u.eps.set 0 ((s.ep 0).afterRound rd.packet) = s.eps.set 0 ((s.ep 0).afterRound rd.packet) :=
    s.eps_set_set 0 x _
  rw [hset]

/-! ### A run of rounds -/

theorem Pcb.SameButDrained.trans {p q r : Pcb} (h : p.SameButDrained q) (h' : q.SameButDrained r) : p.SameButDrained r :=
  ⟨h'.flags.trans h.flags, h'.pending.trans h.pending, h'.stall.trans h.stall⟩

/-- What an endpoint holds after rounds. -/
def Endpoint.afterRounds (rounds : List WaitRound) (x : Endpoint) : Endpoint :=
  rounds.foldl (fun x rd => x.afterRound rd.packet) x

theorem Endpoint.afterRounds_eq (rounds : List WaitRound) (x : Endpoint) :
    x.afterRounds rounds =
      { x with q := x.q ++ (arrivals rounds).flatten
               toggle := x.toggle ^^ ((arrivals rounds).length % 2 == 1) } := by
  induction rounds generalizing x with
  | nil => simp [afterRounds, arrivals]
  | cons rd rounds ih =>
    rw [show x.afterRounds (rd :: rounds) = (x.afterRound rd.packet).afterRounds rounds from rfl, ih]
    cases hp : rd.packet with
    | none => simp [afterRound, arrivals, hp]
    | some b =>
      have hodd (n : Nat) : (true ^^ (n % 2 == 1)) = ((n + 1) % 2 == 1) := by
        rcases Nat.mod_two_eq_zero_or_one n with h | h
        · rw [h, show (n + 1) % 2 = 1 by omega]; rfl
        · rw [h, show (n + 1) % 2 = 0 by omega]; rfl
      simp only [afterRound, arrivals, List.filterMap_cons, hp, Option.getD_some, Option.isSome_some,
        List.flatten_cons, List.append_assoc, List.length_cons, Bool.xor_assoc, hodd]

/-- Rounds of a wait whose data stage is not complete before the last of them. -/
theorem drive_rounds (rounds : List WaitRound) {s : State} {more : List Slot} {len polls : Nat} {rest : List MainOp}
    (hm : s.main = .waitLoop len polls :: rest) (hs : s.sched = rounds.flatMap WaitRound.slots ++ more) (hr : s.running)
    (he : s.hasEp 0 = true) (hk : s.ep0Masked = true) (hx : (s.ep 0).Receptive)
    (hl : ∀ init rd tail, rounds = init ++ rd :: tail → (s.ep 0).len + (arrivals init).flatten.length < len)
    (hp : ∀ p ∈ arrivals rounds, p.length ≤ (s.ep 0).mps.toNat)
    (hroom : (s.ep 0).len + (arrivals rounds).flatten.length ≤ s.params.fifoCap)
    (hb : ∀ bound, s.params.waitBound = some bound → polls + rounds.length ≤ bound) (k : Nat) :
    ∃ p r, s.pcb.SameButDrained p ∧ drive ((rounds.flatMap WaitRound.slots).length + k) s = drive k
      { s with
        sched := more, main := .waitLoop len (polls + rounds.length) :: rest
        eps := s.eps.set 0 ((s.ep 0).afterRounds rounds), pcb := p, resp := r } := by
  induction rounds generalizing s polls with
  | nil =>
    refine ⟨s.pcb, s.resp, ⟨rfl, rfl, rfl⟩, ?_⟩
    have h1 : s.eps.set 0 (s.ep 0) = s.eps := s.eps_set_self 0
    have h2 : more = s.sched := by simpa using hs.symm
    have h3 : MainOp.waitLoop len polls :: rest = s.main := hm.symm
    simp only [List.flatMap_nil, List.length_nil, Nat.zero_add, Nat.add_zero, Endpoint.afterRounds, List.foldl_nil, h1, h2, h3]
  | cons rd rounds ih =>
    have harr : (arrivals (rd :: rounds)).flatten.length =
        (rd.packet.getD []).length + (arrivals rounds).flatten.length := by
      cases h : rd.packet <;> simp [arrivals, h]
    have hl0 : (s.ep 0).len < len := by simpa [arrivals] using hl [] rd rounds rfl
    have hp0 : (rd.packet.getD []).length ≤ (s.ep 0).mps.toNat := by
      cases h : rd.packet with
      | none => simp
      | some b => exact hp b (by simp [arrivals, h])
    obtain ⟨p, r, hsame, hdrive⟩ := drive_round rd (k := (rounds.flatMap WaitRound.slots).length + k) hm
      (by rw [hs, List.flatMap_cons, List.append_assoc]) hr he hk hx hl0 hp0 (by omega)
      (fun h => by have := hb _ h; simp only [List.length_cons] at this; omega)
    set u : State := { s with
      sched := rounds.flatMap WaitRound.slots ++ more, main := .waitLoop len (polls + 1) :: rest
      eps := s.eps.set 0 ((s.ep 0).afterRound rd.packet), pcb := p, resp := r } with hu
    have hue : u.ep 0 = (s.ep 0).afterRound rd.packet := State.ep_setEp_same s 0 _
    have hul : (u.ep 0).len = (s.ep 0).len + (rd.packet.getD []).length := by
      rw [hue]; simp [Endpoint.afterRound, Endpoint.len]
    obtain ⟨p', r', hsame', hdrive'⟩ := ih (s := u) (polls := polls + 1) rfl rfl hr he hk
      (by rw [hue]; exact hx.afterRound _)
      (fun init rd' tail h => by
        have := hl (rd :: init) rd' tail (by rw [h]; rfl)
        have ha : (arrivals (rd :: init)).flatten.length =
            (rd.packet.getD []).length + (arrivals init).flatten.length := by
          cases h : rd.packet <;> simp [arrivals, h]
        omega)
      (fun b hb' => by
        rw [hue]
        refine hp b ?_
        cases h : rd.packet <;> simp [arrivals, h] at hb' ⊢ <;> first | exact hb' | exact .inr hb')
      (by rw [hul]; show _ ≤ s.params.fifoCap; omega)
      (fun bound h => by have := hb bound h; simp only [List.length_cons] at this; omega)
    refine ⟨p', r', hsame.trans hsame', ?_⟩
    rw [List.flatMap_cons, List.length_append, Nat.add_assoc, hdrive, hdrive', hue]
    have hset : u.eps.set 0 (((s.ep 0).afterRound rd.packet).afterRounds rounds) =
        s.eps.set 0 ((s.ep 0).afterRounds (rd :: rounds)) := s.eps_set_set 0 _ _
    rw [hset, hu]
    simp only [List.length_cons]
    rw [show polls + 1 + rounds.length = polls + (rounds.length + 1) by omega]

/-- `SEQ_RECV len` whose data stage arrives during the wait, whole and in time: the state in which the driver's own part
begins (R184). -/
theorem seqRecv_rounds {s : State} (h : s.awaitsData) {rounds : List WaitRound} {lastRound : WaitRound} {last : List Byte}
    {ps : List (List Byte)} {len : Nat} (hs : s.sched = .main :: (rounds ++ [lastRound]).flatMap WaitRound.slots)
    (hps : ps = arrivals (rounds ++ [lastRound])) (hlast : lastRound.packet = some last) (hne : last ≠ [])
    (hp : ∀ p ∈ ps, p.length ≤ (s.ep 0).mps.toNat) (hlen : ps.flatten.length = len) (hcap : len ≤ s.params.fifoCap)
    (hb : ∀ bound, s.params.waitBound = some bound → rounds.length + 1 ≤ bound) (after : List MainOp) (ha : after ≠ []) :
    ∃ k r, 20 ≤ k ∧ seqRecv len after s = drive k
      { s with
        eps := s.eps.set 0
          { s.ep 0 with toggle := (s.ep 0).toggle ^^ (ps.length % 2 == 1), txPkt := [], underrun := false,
                        txReady := true }
        pcb := { s.pcb with flags := s.pcb.flags &&& ~~~flagSetupDataAvail, pending := s.pcb.pending &&& ~~~epBit 0 }
        ep0Masked := false, resp := r, main := after, rdata := ps.flatten, handling := true, sched := [] } := by
  obtain ⟨hr, hm, hn, hc, hw, hx, hst, hrr, hrb, ht, hq⟩ := h
  have he : s.hasEp 0 = true := by rw [State.hasEp_iff]; exact hn
  rw [seqRecv, if_neg (by omega)]
  simp only [runHandler, resume, hm, List.append_nil]
  set u : State := { s with main := recvOps len after, rdata := [], handling := true } with hu
  set all := rounds ++ [lastRound] with hall
  set rest := MainOp.zlpAck :: (List.replicate len .read0 ++ .clearIfDrained :: after) with hrest
  -- the wait begins
  set v : State := { u with ep0Masked := true, main := .waitLoop len 0 :: rest, sched := all.flatMap WaitRound.slots } with hv
  obtain ⟨j, hj⟩ := Nat.exists_eq_add_of_le
    (show (all.flatMap WaitRound.slots).length + (len + 5 + 20) + 1 ≤ driveFuel u by
      have : u.sched.length = (all.flatMap WaitRound.slots).length + 1 := by rw [show u.sched = s.sched from rfl, hs]; rfl
      simp only [driveFuel, this, show u.params = s.params from rfl]; omega)
  have hturn := drive_turn (s := u) (t := v) (slots := all.flatMap WaitRound.slots) (by simp [hu, recvOps]) hr.1 hs
    (mainOp_waitEnter { u with sched := all.flatMap WaitRound.slots } len rest)
  have hq0 : (v.ep 0).len = 0 := by show (s.ep 0).q.length = 0; rw [hq]; rfl
  have hsplit : ps.flatten.length = (arrivals rounds).flatten.length + last.length := by
    rw [hps]; simp [hall, arrivals, List.filterMap_append, hlast]
  have hlastpos := List.length_pos_iff.mpr hne
  have hprefix (init rd tail) (h : all = init ++ rd :: tail) : (arrivals init).flatten.length ≤ (arrivals rounds).flatten.length := by
    have : init <+: rounds := by
      have h1 : init <+: all := ⟨rd :: tail, h.symm⟩
      rw [hall] at h1
      rcases List.prefix_concat_iff.mp h1 with h2 | h2
      · rw [hall, h2] at h; simp at h
      · exact h2
    obtain ⟨tl, rfl⟩ := this
    simp [arrivals, List.filterMap_append]
  obtain ⟨p, r, hsame, hdrive⟩ := drive_rounds all (s := v) (more := []) (len := len) (polls := 0) (rest := rest) rfl
    (by rw [List.append_nil]) hr he rfl ⟨hc, hw, hx, hst, hrr, hrb⟩
    (fun init rd tail h => by have := hprefix init rd tail h; rw [hq0]; omega)
    (fun b hb' => hp b (by rw [hps]; exact hb'))
    (by rw [hq0, ← hps]; show _ ≤ s.params.fifoCap; omega)
    (fun bound h => by have := hb bound h; simp only [hall, List.length_append, List.length_singleton]; omega)
    (len + 5 + 20 + j)
  set w : State := { v with
    sched := [], main := .waitLoop len (0 + all.length) :: rest
    eps := v.eps.set 0 ((v.ep 0).afterRounds all), pcb := p, resp := r } with hwd
  have hwe : w.ep 0 = { s.ep 0 with q := ps.flatten, toggle := (s.ep 0).toggle ^^ (ps.length % 2 == 1) } := by
    rw [show w.ep 0 = (v.ep 0).afterRounds all from State.ep_setEp_same v 0 _, Endpoint.afterRounds_eq, ← hps]
    rw [show v.ep 0 = s.ep 0 from rfl, hq, List.nil_append]
  have hwl : (w.ep 0).len = len := by rw [hwe]; exact hlen
  obtain ⟨k2, r2, hk2, hrun⟩ := runs_recv (s := w) len (0 + all.length) after ha rfl rfl hr.1 he (by rw [hwe]; exact hc)
    (by rw [hwe]; exact ht) hwl.ge rfl
  refine ⟨20 + j + (len + 5 - k2), r2, by omega, ?_⟩
  have hfuel : driveFuel u = (all.flatMap WaitRound.slots).length + (len + 5 + 20 + j) + 1 := by rw [hj]; omega
  rw [hfuel, hturn, hdrive, show len + 5 + 20 + j = k2 + (20 + j + (len + 5 - k2)) by omega, drive_of_runs hrun]
  congr 1
  have htake : (w.ep 0).q.take len = ps.flatten := by rw [hwe, ← hlen]; exact List.take_length
  have hdrop : (w.ep 0).q.drop len = [] := by rw [hwe, ← hlen]; exact List.drop_length
  have heps : w.eps.set 0 { w.ep 0 with q := (w.ep 0).q.drop len, txPkt := [], underrun := false, txReady := true } =
      s.eps.set 0 { s.ep 0 with toggle := (s.ep 0).toggle ^^ (ps.length % 2 == 1), txPkt := [], underrun := false,
                                txReady := true } := by
    have hset (y : Endpoint) : w.eps.set 0 y = s.eps.set 0 y := s.eps_set_set 0 _ y
    rw [hset, hdrop, hwe, ← hq]
  have hpcb : ({ w.pcb with flags := w.pcb.flags &&& ~~~flagSetupDataAvail, pending := w.pcb.pending &&& ~~~epBit 0 } : Pcb) =
      { s.pcb with flags := s.pcb.flags &&& ~~~flagSetupDataAvail, pending := s.pcb.pending &&& ~~~epBit 0 } := by
    have h1 := hsame.flags; have h2 := hsame.pending; have h3 := hsame.stall
    show (⟨p.flags &&& ~~~flagSetupDataAvail, p.pending &&& ~~~epBit 0, p.stall⟩ : Pcb) = _
    rw [h1, h2, h3]
  rw [heps, htake, if_pos hwl, hpcb]

end Sys2Proof.Machine
end

