-- ==== Sys2Proof/Tests/Slice0.lean ====
section
/-! SUPPORT. The model's own tests. Expected values come from spec/95_test_vectors.md (ids V..) and from spec/30_encoding.md;
the witnesses at the end show that the hypotheses of every statement can be met. -/

namespace Sys2Proof.Tests

open Sys2Proof Sys2Proof.Machine

/-! ### Small states (spec/00_scope.md R15) -/

/-- Endpoint 0 of `S_EP0`. -/
def ctrl8 : Endpoint := { Endpoint.reset with cfgValid := true, hwEn := true, mps := 8 }

def sEp0 : State := State.sPor.setEp 0 ctrl8

def bulk64 (d : Dir) : Endpoint := { Endpoint.reset with cfgValid := true, hwEn := true, xtype := .bulk, dir := d, mps := 64 }

def sTp : State := { (sEp0.setEp 1 (bulk64 .inn)).setEp 2 (bulk64 .out) with pcb := ⟨0b001, 0, 0⟩ }

/-- One field of the next state. -/
def view {α : Type} (f : State → α) : Host.Outcome State Fault Refusal → Option α
  | .next t => some (f t)
  | .fault _ => none
  | .refused _ => none

/-- The packets the host receives when it takes what is ready on endpoint 0. -/
def hostSees (s : State) : List Event := (agentStep (.wireTake 0) s).events

/-- R15: the start states are what the command words make of the reset table. -/
theorem test_start_states :
    runAll [.pcbInit, .configure 0 .ctrl .out 8] State.sPor = some ([0, 0], sEp0) ∧
    runAll [.configure 1 .bulk .inn 64, .configure 2 .bulk .out 64, .flagSet 0b001] sEp0 = some ([0, 0, 0], sTp) := by
  decide

/-! ### Well-formedness -/

/-- A `DFU_REJECT` with a pair the DFU driver lists is ill-formed (spec/30_encoding.md R99). -/
theorem test_illformed_dfuReject : (Instr.dfuReject 0x21 0x01 ⟨0, 0, 8⟩).WellFormed .default = false := by decide

/-- A `CDC_REJECT` with a pair the CDC driver lists is ill-formed. -/
theorem test_illformed_cdcReject : (Instr.cdcReject 0xA1 0x21 ⟨0, 0, 7⟩).WellFormed .default = false := by decide

/-- A listed request with another `bmRequestType` is a rejected request (VD15, VC4). -/
theorem test_wellformed_rejects :
    (Instr.dfuReject 0x20 0x01 ⟨0, 0, 8⟩).WellFormed .default = true ∧ (Instr.cdcReject 0xA1 0x20 ⟨0, 0, 7⟩).WellFormed .default = true := by
  decide

/-! ### Decoding: words written out from spec/30_encoding.md R93, R103, R106 -/

theorem test_decode_pcbInit : decode .default (.cmd32 0b0001_0000_000000000000000000000000) = some .pcbInit := by decide
theorem test_decode_configure :
    decode .default (.cmd32 0b0010_0001_10_1_0000000000_00001000000) = some (.configure 1 .bulk .inn 64) ∧
    decode .default (.cmd32 0b0010_1111_11_0_0000000000_11111111111) = some (.configure 15 .int .out 2047) := by decide
theorem test_decode_write : decode .default (.cmd32 0b0011_1010_0000000000000000_11101110) = some (.write 10 0xEE) := by decide
theorem test_decode_read : decode .default (.cmd32 0b0100_0010_000000000000000000000000) = some (.read 2) := by decide
theorem test_decode_flush : decode .default (.cmd32 0b0101_0001_000000000000000000000000) = some (.flush 1) := by decide
theorem test_decode_drain : decode .default (.cmd32 0b0110_0010_000000000000000000000000) = some (.drain 2) := by decide
theorem test_decode_setStall : decode .default (.cmd32 0b0111_0100_000000000000000000000000) = some (.setStall 4) := by decide
theorem test_decode_clearStall : decode .default (.cmd32 0b1000_0010_000000000000000000000000) = some (.clearStall 2) := by decide
theorem test_decode_zlpAck : decode .default (.cmd32 0b1001_0000_000000000000000000000000) = some .zlpAck := by decide
theorem test_decode_flagSet : decode .default (.cmd32 0b1010_0000_000000000000000000000_110) = some (.flagSet 0b110) := by decide
theorem test_decode_flagClr : decode .default (.cmd32 0b1011_0000_000000000000000000000_101) = some (.flagClr 0b101) := by decide
theorem test_decode_pendClr : decode .default (.cmd32 0b1100_0010_000000000000000000000000) = some (.pendClr 2) := by decide

/-- VE1 to VE7: reserved words. -/
theorem test_decode_reserved :
    [0x00000000, 0xD0000000, 0xE0000000, 0xF0000000, 0x40000001, 0x91000000, 0x10000001, 0xA0000008, 0xA1000001,
      0x20A00800].map (fun w => decode .default (.cmd32 w)) = List.replicate 10 none := by decide

/-- `bmRequestType bRequest wValue wIndex wLength`, low byte first (R96, R98, R103). -/
def dfuBytes (b : List Byte) : Option (Option Instr) := (setupOfBytes b).map fun s => decode .default (.setup8 .dfu s)
def cdcBytes (b : List Byte) : Option (Option Instr) := (setupOfBytes b).map fun s => decode .default (.setup8 .cdc s)

theorem test_decode_dfuDetach : dfuBytes [0x21, 0, 0xE8, 0x03, 0, 0, 0, 0] = some (some (.dfuDetach ⟨1000, 0, 0⟩)) := by decide
theorem test_decode_dfuDnload : dfuBytes [0x21, 1, 0x34, 0x12, 2, 1, 0x10, 0] = some (some (.dfuDnload ⟨0x1234, 0x0102, 16⟩)) := by
  decide
theorem test_decode_dfuUpload : dfuBytes [0xA1, 2, 0, 0, 0, 0, 16, 0] = some (some (.dfuUpload ⟨0, 0, 16⟩)) := by decide
theorem test_decode_dfuGetstatus : dfuBytes [0xA1, 3, 0, 0, 0, 0, 6, 0] = some (some (.dfuGetstatus ⟨0, 0, 6⟩)) := by decide
theorem test_decode_dfuClrstatus : dfuBytes [0x21, 4, 0, 0, 0, 0, 0, 0] = some (some (.dfuClrstatus ⟨0, 0, 0⟩)) := by decide
theorem test_decode_dfuGetstate : dfuBytes [0xA1, 5, 0, 0, 0, 0, 1, 0] = some (some (.dfuGetstate ⟨0, 0, 1⟩)) := by decide
theorem test_decode_dfuAbort : dfuBytes [0x21, 6, 0, 0, 0, 0, 0, 0] = some (some (.dfuAbort ⟨0, 0, 0⟩)) := by decide
/-- VD14, VD16, VD24. -/
theorem test_decode_dfuReject :
    dfuBytes [0x21, 2, 0, 0, 0, 0, 16, 0] = some (some (.dfuReject 0x21 2 ⟨0, 0, 16⟩)) ∧
    dfuBytes [0xA0, 3, 0, 0, 0, 0, 6, 0] = some (some (.dfuReject 0xA0 3 ⟨0, 0, 6⟩)) ∧
    dfuBytes [0x21, 7, 0, 0, 0, 0, 0, 0] = some (some (.dfuReject 0x21 7 ⟨0, 0, 0⟩)) := by decide
theorem test_decode_cdcSetLineCoding :
    cdcBytes [0x21, 0x20, 0, 0, 0, 0, 7, 0] = some (some (.cdcSetLineCoding ⟨0, 0, 7⟩)) := by decide
theorem test_decode_cdcGetLineCoding :
    cdcBytes [0xA1, 0x21, 0, 0, 0, 0, 7, 0] = some (some (.cdcGetLineCoding ⟨0, 0, 7⟩)) := by decide
theorem test_decode_cdcSetControlLineState :
    cdcBytes [0x21, 0x22, 3, 0, 0, 0, 0, 0] = some (some (.cdcSetControlLineState ⟨3, 0, 0⟩)) := by decide
/-- VC4, VC5, VC6. -/
theorem test_decode_cdcReject :
    cdcBytes [0xA1, 0x20, 0, 0, 0, 0, 7, 0] = some (some (.cdcReject 0xA1 0x20 ⟨0, 0, 7⟩)) ∧
    cdcBytes [0x22, 0x22, 3, 0, 0, 0, 0, 0] = some (some (.cdcReject 0x22 0x22 ⟨3, 0, 0⟩)) ∧
    cdcBytes [0x21, 0x23, 0, 0, 0, 0, 0, 0] = some (some (.cdcReject 0x21 0x23 ⟨0, 0, 0⟩)) := by decide

/-- Other request codes than the defaults (spec/00_scope.md R7): the two first DFU requests exchanged. -/
def swapped : RequestCodes := { RequestCodes.default with detach := 1, dnload := 0 }

theorem test_decode_other_codes :
    decode swapped (.setup8 .dfu 0x0008000000000021) = some (.dfuDnload ⟨0, 0, 8⟩) ∧
    encode swapped (.dfuDnload ⟨0, 0, 8⟩) = .setup8 .dfu 0x0008000000000021 := by decide

/-- A step decodes with the codes of its parameters: this DFU_DETACH has the default code of DFU_DNLOAD. -/
theorem test_step_other_codes :
    view (fun t => (t.pcb.stall, t.dfu.bState))
      (step { sEp0 with
        params := { Params.tp with requestCodes := swapped }, program := [.issue (.setup8 .dfu 0x0000000000000121)] }) =
    some (1, .dfuIDLE) := by decide

/-- A row of spec/opcode_table.json given in its first 16 bits: the rest of the setup packet is 0. -/
theorem test_table_words :
    decodeTableWord 32 0x21A00040 = some (.configure 1 .bulk .inn 64) ∧
    decodeTableWord 16 0x03A1 = some (.dfuGetstatus ⟨0, 0, 0⟩) ∧
    decodeTableWord 16 0x2221 = some (.cdcSetControlLineState ⟨0, 0, 0⟩) := by decide

/-! ### The FIFO core: one step each -/

/-- VF22. -/
theorem test_pcbInit :
    view (fun t => (t.pcb, (t.ep 1).cfgValid, (t.ep 2).q, (t.ep 0).hwEn, t.resp))
      (exec .pcbInit { sTp with pcb := ⟨0b101, 0b0100, 1⟩ }) = some (⟨0, 0, 0⟩, false, [], false, 0) := by decide

/-- VF18: reconfiguring drops the bytes and the pending bit; the flag stays. -/
theorem test_configure :
    view (fun t => ((t.ep 2).q, t.pcb, t.resp))
      (exec (.configure 2 .bulk .out 64)
        { sTp.setEp 2 { bulk64 .out with q := [9] } with pcb := ⟨0b101, 0b0100, 0⟩ }) = some ([], ⟨0b101, 0, 0⟩, 0) := by decide

/-- VE8, VE10 to VE12. -/
theorem test_configure_refused :
    [Instr.configure 1 .bulk .inn 65, .configure 1 .bulk .inn 0, .configure 0 .bulk .out 8, .configure 4 .bulk .out 0].map
      (fun i => view (fun t => (t.resp, t.eps == sTp.eps)) (exec i sTp)) =
    [some (0x50000000, true), some (0x50000000, true), some (0x50000000, true), some (0x10000000, true)] := by decide

/-- VF1: the second byte goes behind the first. -/
theorem test_write :
    view (fun t => ((t.ep 1).q, (t.ep 1).txReady, t.pcb.flags, t.resp))
      (exec (.write 1 0x42) (sTp.setEp 1 { bulk64 .inn with q := [0x41] })) = some ([0x41, 0x42], false, 0b001, 0) := by decide

/-- VF4: the 65th byte is rejected and the fault recorded. -/
theorem test_write_full :
    view (fun t => ((t.ep 1).q, t.faults, t.resp))
      (exec (.write 1 0xEE) (sTp.setEp 1 { bulk64 .inn with q := List.replicate 64 7 })) =
    some (List.replicate 64 7, [(.fifoFull, 1)], 0x30000000) := by decide

/-- VF2. -/
theorem test_read :
    view (fun t => ((t.ep 1).q, t.resp)) (exec (.read 1) (sTp.setEp 1 { bulk64 .inn with q := [0x41, 0x42] })) =
    some ([0x42], 0x00000041) := by decide

/-- VF3: the response's data is free, all else is not. -/
theorem test_read_empty :
    view (fun t => ((t.ep 2).q, t.faults)) (exec (.read 2) sTp) = some ([], [(.fifoEmpty, 2)]) := by decide

/-- VF23: a packet of `mps` bytes leaves the rest queued. -/
theorem test_flush :
    view (fun t => ((t.ep 1).txPkt, (t.ep 1).q, (t.ep 1).txReady, t.resp))
      (exec (.flush 1) (sTp.setEp 1 { bulk64 .inn with mps := 2, q := [1, 2, 3] })) = some ([1, 2], [3], true, 2) := by decide

/-- VF6: held while the packet has not been taken; VF8: refused on an `OUT` endpoint. -/
theorem test_flush_held :
    view (fun t => ((t.ep 1).q, t.main)) (exec (.flush 1) (sTp.setEp 1 { bulk64 .inn with txReady := true, q := [1] })) =
      some ([1], [.flush 1]) ∧
    view (fun t => t.resp) (exec (.flush 2) sTp) = some 0x60000000 := by decide

/-- VF13: only what fits is moved. -/
theorem test_drain :
    view (fun t => (((t.ep 2).q.drop 60), (t.ep 2).rxBuf, (t.ep 2).rxReady, t.pcb, t.resp))
      (exec (.drain 2) (sTp.setEp 2 { bulk64 .out with
        q := List.replicate 60 0xA0, rxBuf := [1, 2, 3, 4, 5, 6, 7, 8, 9, 10], rxReady := true })) =
    some ([1, 2, 3, 4], [5, 6, 7, 8, 9, 10], true, ⟨0b101, 0b0100, 0⟩, 4) := by decide

/-- VF12: a zero-length packet is consumed and sets no flag. -/
theorem test_drain_empty_packet :
    view (fun t => ((t.ep 2).rxReady, t.pcb, t.resp)) (exec (.drain 2) (sTp.setEp 2 { bulk64 .out with rxReady := true })) =
    some (false, ⟨0b001, 0, 0⟩, 0) := by decide

/-- VF16. -/
theorem test_setStall :
    view (fun t => (t.pcb.stall, (t.ep 2).hwStall, (t.ep 2).q, t.resp))
      (exec (.setStall 2) (sTp.setEp 2 { bulk64 .out with q := [9] })) = some (0b0100, true, [9], 0) := by decide

/-- VF17: the toggle is reset. -/
theorem test_clearStall :
    view (fun t => (t.pcb.stall, (t.ep 2).hwStall, (t.ep 2).toggle, (t.ep 2).q))
      (exec (.clearStall 2) { sTp.setEp 2 { bulk64 .out with q := [9], hwStall := true, toggle := true } with
        pcb := ⟨0b001, 0, 0b0101⟩ }) = some (0b0001, false, false, [9]) := by decide

/-- VF19: the FIFO is not read. -/
theorem test_zlpAck :
    view (fun t => ((t.ep 0).txPkt, (t.ep 0).txReady, (t.ep 0).q, t.resp))
      (exec .zlpAck (sTp.setEp 0 { ctrl8 with q := [0x77] })) = some ([], true, [0x77], 0) := by decide

/-- VE14. -/
theorem test_zlpAck_refused : view (fun t => t.resp) (exec .zlpAck State.sPor) = some 0x20000000 := by decide

/-- VF20. -/
theorem test_flagSet : view (fun t => t.pcb.flags) (exec (.flagSet 0b110) sTp) = some 0b111 := by decide
theorem test_flagClr :
    view (fun t => t.pcb.flags) (exec (.flagClr 0b101) { sTp with pcb := ⟨0b111, 0, 0⟩ }) = some 0b010 := by decide

/-- VF21. -/
theorem test_pendClr :
    view (fun t => t.pcb) (exec (.pendClr 2) { sTp with pcb := ⟨0b101, 0b0101, 0⟩ }) = some ⟨0b101, 0b0001, 0⟩ := by decide

/-! ### The wire -/

/-- VW8: the setup packet clears the stall and abandons the packet. -/
theorem test_wireSetup :
    let t := agentStep (.wireSetup [0x21, 0x22, 0, 0, 0, 0, 0, 0])
      { sTp.setEp 0 { ctrl8 with txReady := true, hwStall := true } with pcb := ⟨0b001, 0, 1⟩ }
    (t.pcb.stall, (t.ep 0).hwStall, (t.ep 0).txReady, (t.ep 0).rxBuf, (t.ep 0).toggle) =
      (0, false, false, [0x21, 0x22, 0, 0, 0, 0, 0, 0], true) := by decide

/-- VW4 to VW7: not enabled. -/
theorem test_wire_not_enabled :
    [AgentStep.wireRx 1 [0], .wireTake 2, .wireRx 0 (List.replicate 9 0), .wireRx 3 [1]].map
      (fun a => agentStep a sTp == sTp) = [true, true, true, true] := by decide

/-- VW10: endpoint 0 is masked during a wait. -/
theorem test_irqDrain_masked :
    let s := { sTp.setEp 0 { ctrl8 with rxBuf := [1, 2], rxReady := true } with ep0Masked := true }
    agentStep (.irqDrain 0) s = s := by decide

/-- VZ1: a bus reset keeps the DFU controller. -/
theorem test_busReset :
    let t := agentStep .resetBus { sTp with dfu := { sTp.dfu with bState := .dfuDNLOAD_SYNC, cursor := 2 } }
    (t.pcb, (t.ep 1).cfgValid, t.dfu.bState, t.dfu.cursor) = (⟨0, 0, 0⟩, false, .dfuDNLOAD_SYNC, 2) := by decide

/-! ### The class drivers -/

def d1 : List Byte := [1, 2, 3, 4, 5, 6, 7, 8]

/-- `S_EP0` with a data stage already drained. -/
def sData (data : List Byte) : State :=
  { sEp0.setEp 0 { ctrl8 with q := data } with pcb := ⟨0b010, 0b0001, 0⟩ }

/-- `S_EP0` in a state of the DFU controller. -/
def sDfu (f : Dfu → Dfu) : State := sEp0.setDfu (f sEp0.dfu)

/-- VD1. -/
theorem test_dnload :
    view (fun t => ((t.dfu.bState, t.dfu.cursor, t.dfu.flushPending), t.dfu.blk.take 2, hostSees t, t.main))
      (exec (.dfuDnload ⟨0, 0, 8⟩) (sData d1)) =
    some ((.dfuDNLOAD_SYNC, 2, false), [0x04030201, 0x08070605], [.hostReceives 0 []], []) := by decide

/-- Program P2, request 1: the data stage arrives while the wait is in progress. -/
theorem test_dnload_arrives :
    view (fun t => (t.dfu.blk.take 2, (t.ep 0).q, t.pcb.flags, t.ep0Masked, t.main))
      (exec (.dfuDnload ⟨0, 0, 8⟩) { sEp0 with sched := [.main, .agent (.wireRx 0 d1)] }) =
    some ([0x04030201, 0x08070605], [], 0, false, []) := by decide

/-- VD10. -/
theorem test_getstatus_boot :
    view (fun t => (t.dfu.bState, t.dfu.booted, t.events, (t.ep 0).q))
      (exec (.dfuGetstatus ⟨0, 0, 6⟩) (sDfu ({ · with bState := .dfuMANIFEST }))) =
    some (.dfuMANIFEST_WAIT_RESET, true, [.bootJump 0x2000], []) := by decide

/-- A block that waits for its flush (VD3). -/
def sFlush (answers : List Bool) : State :=
  { sDfu ({ · with
      bState := .dfuDNLOAD_SYNC, flushPending := true, blk := [0x04030201, 0x08070605, 0x0C0B0A09, 0x100F0E0D] }) with
    flashAnswers := answers }

/-- VD5. -/
theorem test_getstatus_flush :
    view (fun t => (t.dfu.bState, t.dfu.targetAddr, (List.range 16).map (fun i => Memory.readByte (0x2000 + i) t.flash)))
      (exec (.dfuGetstatus ⟨0, 0, 6⟩) (sFlush [true, true])) =
    some (.dfuDNBUSY, 0x2010, [1, 2, 3, 4, 5, 6, 7, 8, 9, 10, 11, 12, 13, 14, 15, 16].map some) := by decide

/-- VD28. -/
theorem test_getstatus_verify_fails :
    view (fun t => (t.dfu.bState, t.dfu.bStatus, t.dfu.targetAddr, t.dfu.flushPending, hostSees t))
      (exec (.dfuGetstatus ⟨0, 0, 6⟩) (sFlush [true, false])) =
    some (.dfuERROR, .errVERIFY, 0x2010, false, [.hostReceives 0 [7, 0, 0, 0, 0x0A, 0]]) := by decide

/-- VD32: the poll timeout goes low byte first. -/
theorem test_getstatus_poll_timeout :
    let s := { sEp0 with params := { Params.tp with pollTimeout := 0x123456 }
                         dfu := { sEp0.dfu with pollTimeout := 0x123456 } }
    view hostSees (exec (.dfuGetstatus ⟨0, 0, 6⟩) s) = some [.hostReceives 0 [0, 0x56, 0x34, 0x12, 2, 0]] := by decide

/-- VD22 after VD3: GETSTATE runs no flush. -/
theorem test_getstate :
    view (fun t => (t.dfu.flushPending, hostSees t)) (exec (.dfuGetstate ⟨0, 0, 1⟩) (sFlush [])) =
    some (true, [.hostReceives 0 [3]]) := by decide

/-- VD30. -/
theorem test_clrstatus :
    view (fun t => (t.dfu.bState, t.dfu.bStatus, t.dfu.targetAddr, (t.ep 0).txReady))
      (exec (.dfuClrstatus ⟨0, 0, 0⟩)
        (sDfu ({ · with bState := .dfuERROR, bStatus := .errVERIFY, targetAddr := 0x2010 }))) =
    some (.dfuIDLE, .ok, 0x2000, true) := by decide

/-- VD19. -/
theorem test_clrstatus_rejected :
    view (fun t => (t.dfu == sEp0.dfu, t.pcb.stall)) (exec (.dfuClrstatus ⟨0, 0, 0⟩) sEp0) = some (true, 1) := by decide

/-- VD21. -/
theorem test_abort :
    view (fun t => ((t.dfu.bState, t.dfu.flushPending), t.dfu.blk, t.flash)) (exec (.dfuAbort ⟨0, 0, 0⟩) (sFlush [])) =
    some ((.dfuIDLE, false), [0x04030201, 0x08070605, 0x0C0B0A09, 0x100F0E0D], []) := by decide

/-- VD13, VD23, VD15: stalled, unchanged. -/
theorem test_upload : view (fun t => (t.dfu == sEp0.dfu, t.pcb.stall, (t.ep 0).hwStall)) (exec (.dfuUpload ⟨0, 0, 16⟩) sEp0) =
    some (true, 1, true) := by decide
theorem test_detach : view (fun t => (t.dfu == sEp0.dfu, t.pcb.stall)) (exec (.dfuDetach ⟨1000, 0, 0⟩) sEp0) =
    some (true, 1) := by decide
theorem test_dfuReject : view (fun t => (t.dfu == sEp0.dfu, t.pcb.stall)) (exec (.dfuReject 0x20 1 ⟨0, 0, 8⟩) sEp0) =
    some (true, 1) := by decide

/-- VC2. -/
theorem test_setLineCoding :
    view (fun t => (t.lineCoding, hostSees t))
      (exec (.cdcSetLineCoding ⟨0, 0, 7⟩) (sData [0x80, 0x25, 0, 0, 0, 0, 8])) =
    some (⟨0x80, 0x25, 0, 0, 0, 0, 8⟩, [.hostReceives 0 []]) := by decide

/-- VC10: a bounded wait, and a data stage that stays incomplete. -/
def sWait : State :=
  { sEp0.setEp 0 { ctrl8 with rxBuf := [0x80, 0x25, 0, 0], rxReady := true } with
    params := { Params.tp with waitBound := some 3 } }

theorem test_setLineCoding_timeout :
    view (fun t => (t.pcb, (t.ep 0).len, t.ep0Masked, t.main)) (exec (.cdcSetLineCoding ⟨0, 0, 7⟩) sWait) =
      some (⟨0, 0, 1⟩, 0, false, []) ∧
    view (fun t => (t.lineCoding, t.faults)) (exec (.cdcSetLineCoding ⟨0, 0, 7⟩) sWait) = some (sEp0.lineCoding, []) := by
  decide

/-- VC1: two packets; the second `FLUSH` is held until the host has taken the first. -/
theorem test_getLineCoding :
    view (fun t => ((t.ep 0).txPkt, (t.ep 0).q, t.main))
      (exec (.cdcGetLineCoding ⟨0, 0, 7⟩)
        { sEp0.setEp 0 { ctrl8 with mps := 4 } with lineCoding := ⟨0, 0xC2, 1, 0, 0, 0, 8⟩ }) =
    some ([0, 0xC2, 1, 0], [0, 0, 8], [.flush 0, .sendLoop]) := by decide

/-- VC5. -/
theorem test_setControlLineState :
    view (fun t => (hostSees t, t.pcb.stall)) (exec (.cdcSetControlLineState ⟨3, 0, 0⟩) sEp0) =
    some ([.hostReceives 0 []], 0) := by decide
theorem test_cdcReject : view (fun t => (t.pcb.stall, (t.ep 0).txReady)) (exec (.cdcReject 0x22 0x22 ⟨3, 0, 0⟩) sEp0) =
    some (1, false) := by decide

/-- VC9 and VC7. -/
theorem test_putchar :
    view (fun t => ((t.ep 1).txPkt, t.resp)) (step { sTp with program := [.putchar 0x0A] }) = some ([0x0A, 0x0D], 2) ∧
    view (fun t => t.eps == sTp.eps) (step { sTp with pcb := ⟨0, 0, 0⟩, program := [.putchar 0x41] }) = some true := by decide

/-- An instruction placed by the host runs as the first step after reset. -/
theorem test_first_step :
    view (fun t => (t.ep 3).hwStall) (step (State.reset.withFetchWord 32 0x73000000)) = some true ∧
    view (fun t => t.pcb.stall) (step (State.reset.withFetchWord 16 0x02A1)) = some 1 := by decide

/-! ### Witnesses: the hypotheses of every statement can be met -/

/-- A word for each row of R93, and a reserved word. -/
theorem witness_CommandRows :
    (0x10000000 : Word) &&& 0xFFFFFFFF = 0x10000000 ∧ (0x2FE007FF : Word) &&& 0xF01FF800 = 0x20000000 ∧
    (0x3F0000FF : Word) &&& 0xF0FFFF00 = 0x30000000 ∧ (0x4F000000 : Word) &&& 0xF0FFFFFF = 0x40000000 ∧
    (0x5F000000 : Word) &&& 0xF0FFFFFF = 0x50000000 ∧ (0x6F000000 : Word) &&& 0xF0FFFFFF = 0x60000000 ∧
    (0x7F000000 : Word) &&& 0xF0FFFFFF = 0x70000000 ∧ (0x8F000000 : Word) &&& 0xF0FFFFFF = 0x80000000 ∧
    (0x90000000 : Word) &&& 0xFFFFFFFF = 0x90000000 ∧ (0xA0000007 : Word) &&& 0xFFFFFFF8 = 0xA0000000 ∧
    (0xB0000007 : Word) &&& 0xFFFFFFF8 = 0xB0000000 ∧ (0xCF000000 : Word) &&& 0xF0FFFFFF = 0xC0000000 ∧
    ∀ r ∈ cmdRows, (0xFFFFFFFF : Word) &&& r.mask ≠ r.mtch := by decide

theorem witness_DecodeEncode :
    RequestCodes.default.Distinct ∧ swapped.Distinct ∧
    [Instr.pcbInit, .configure 15 .int .inn 2047, .write 15 0xFF, .read 15, .flush 15, .drain 15, .setStall 15,
      .clearStall 15, .zlpAck, .flagSet 7, .flagClr 7, .pendClr 15, .dfuDetach ⟨0xFFFF, 0, 1⟩, .dfuDnload ⟨0, 0xFFFF, 1⟩,
      .dfuUpload ⟨0, 0, 0xFFFF⟩, .dfuGetstatus ⟨0, 0, 6⟩, .dfuClrstatus ⟨0, 0, 0⟩, .dfuGetstate ⟨0, 0, 1⟩,
      .dfuAbort ⟨0, 0, 0⟩, .dfuReject 0xFF 0xFF ⟨0, 0, 0⟩, .cdcSetLineCoding ⟨0, 0, 7⟩, .cdcGetLineCoding ⟨0, 0, 7⟩,
      .cdcSetControlLineState ⟨3, 0, 0⟩, .cdcReject 0 0 ⟨0, 0, 0⟩].all (Instr.WellFormed .default) = true := by decide

theorem witness_EncodeDecode :
    decode .default (.cmd32 0x3F0000FF) = some (.write 15 0xFF) ∧
    decode .default (.setup8 .cdc 0x0007000000002021) = some (.cdcSetLineCoding ⟨0, 0, 7⟩) := by decide

theorem witness_StepRunsDecoded :
    (let s := { sTp with program := [.issue (.cmd32 0x31000041)] }
     s.running ∧ s.main = [] ∧ s.program = .issue (.cmd32 0x31000041) :: [] ∧
      decode .default (.cmd32 0x31000041) = some (.write 1 0x41) ∧ s.sched = [] ∧
      ({ s with sched := [.main] } : State).sched = .main :: [] ∧
      ({ s with sched := [.agent .resetBus] } : State).sched = .agent .resetBus :: []) ∧
    State.reset.running ∧ State.reset.params.requestCodes = RequestCodes.default ∧
    decodeTableWord 32 0x73000000 = some (.setStall 3) := by decide

/-- A handler in progress that is not held, and one that is. -/
def sSending : State := { sEp0.setEp 0 { ctrl8 with q := [1] } with main := [.flush 0, .sendLoop], handling := true }
def sHeld : State := { sEp0.setEp 0 { ctrl8 with txReady := true } with main := [.zlpAck], handling := true }

/-- The clause of `StepRunsDecoded` about a handler in progress, in both schedules. -/
theorem witness_StepResumes :
    sHeld.running ∧ sHeld.main ≠ [] ∧ sHeld.sched = [] ∧
    ({ sHeld with sched := [.main, .agent .resetBus] } : State).sched = .main :: [.agent .resetBus] := by decide

theorem witness_HandlerGaps :
    sSending.main ≠ [] ∧ sSending.halted = false ∧ sSending.sched = [] ∧ (mainStep sSending).isSome = true ∧
    sHeld.main ≠ [] ∧ sHeld.halted = false ∧ sHeld.sched = [] ∧ mainStep sHeld = none ∧
    ({ sHeld with sched := [.main] } : State).sched = .main :: [] ∧
    ({ sHeld with sched := [.agent (.wireTake 0)] } : State).sched = .agent (.wireTake 0) :: [] := by decide

theorem witness_ReservedWordRefused :
    let s := { State.sPor with program := [.issue (.cmd32 0xD0000000)] }
    s.running ∧ s.main = [] ∧ s.sched = [] ∧ s.program = .issue (.cmd32 0xD0000000) :: [] ∧
      ∀ r ∈ cmdRows, (0xD0000000 : Word) &&& r.mask ≠ r.mtch := by decide

/-- The branches of the statements about single commands: an endpoint that does not exist, one that is not configured, one of
the wrong direction, bad packet sizes at the bounds. For `Configure`, and what `Write`, `Read`, `Flush`, `Drain` and
`StallCommands` share. -/
theorem witness_commands :
    sTp.running ∧ sTp.params.numEps ≤ (4 : EpNum).val ∧ (3 : EpNum).val < sTp.params.numEps ∧
    (sTp.ep 3).cfgValid = false ∧ (sTp.ep 2).dir = .out ∧ (sTp.ep 2).xtype ≠ .ctrl ∧ (sTp.ep 1).dir = .inn ∧
    (0 : BitVec 11).toNat = 0 ∧ sTp.params.fifoCap < (65 : BitVec 11).toNat ∧ (64 : BitVec 11).toNat = sTp.params.fifoCap ∧
    (0x21A00040 : Word) &&& 0xF01FF800 = 0x20000000 := by decide

theorem witness_Write :
    (sTp.ep 1).len ≤ sTp.params.fifoCap ∧
    (let s := sTp.setEp 1 { bulk64 .inn with q := List.replicate 64 7 }
     s.running ∧ (s.ep 1).len ≤ s.params.fifoCap ∧ (s.ep 1).len = s.params.fifoCap) ∧
    (0x310000EE : Word) &&& 0xF0FFFF00 = 0x30000000 := by decide

theorem witness_Read :
    sTp.running ∧ sTp.params.numEps ≤ (15 : EpNum).val ∧ (3 : EpNum).val < sTp.params.numEps ∧
    (sTp.ep 3).cfgValid = false ∧ (2 : EpNum).val < sTp.params.numEps ∧ (sTp.ep 2).cfgValid = true ∧ (sTp.ep 2).q = [] ∧
    ((sTp.setEp 2 { bulk64 .out with q := [9] }).ep 2).q = 9 :: [] ∧ (0x42000000 : Word) &&& 0xF0FFFFFF = 0x40000000 := by
  decide

theorem witness_Flush :
    (let s := sTp.setEp 1 { bulk64 .inn with txReady := true }
     s.running ∧ (1 : EpNum).val < s.params.numEps ∧ (s.ep 1).cfgValid = true ∧ (s.ep 1).txReady = true) ∧
    (0x51000000 : Word) &&& 0xF0FFFFFF = 0x50000000 := by decide

theorem witness_Drain :
    (let s := sTp.setEp 2 { bulk64 .out with q := List.replicate 60 0, rxBuf := [1, 2, 3, 4, 5], rxReady := true }
     s.running ∧ 4 = min (s.ep 2).rxBuf.length (s.params.fifoCap - (s.ep 2).len)) ∧
    0 = min (sTp.ep 2).rxBuf.length (sTp.params.fifoCap - (sTp.ep 2).len) ∧
    (0x62000000 : Word) &&& 0xF0FFFFFF = 0x60000000 := by decide

theorem witness_StallCommands :
    sTp.running ∧ (0x72000000 : Word) &&& 0xF0FFFFFF = 0x70000000 ∧ (0x82000000 : Word) &&& 0xF0FFFFFF = 0x80000000 := by
  decide

theorem witness_ZlpAck :
    sTp.running ∧ State.sPor.running ∧ (State.sPor.ep 0).cfgValid = false ∧ sHeld.running ∧ (sHeld.ep 0).txReady = true := by
  decide

theorem witness_FlagCommands :
    sTp.running ∧ (0xA0000006 : Word) &&& 0xFFFFFFF8 = 0xA0000000 ∧ (0xB0000005 : Word) &&& 0xFFFFFFF8 = 0xB0000000 ∧
    (0xC2000000 : Word) &&& 0xF0FFFFFF = 0xC0000000 := by decide

theorem witness_PcbInit : sTp.running ∧ (3 : EpNum).val < sTp.params.numEps ∧ sTp.params.numEps ≤ (4 : EpNum).val := by decide

theorem witness_CommandFrames :
    (Instr.flush 1).isCommand = true ∧ Instr.flush 1 ≠ .pcbInit ∧ (view id (exec (.flush 1) sTp)).isSome = true ∧
    (Instr.flush 1).writesEndpoint 2 = false ∧ (Instr.flush 1).writesFlags = false ∧
    (Instr.flush 1).writesPending 1 = false ∧ (Instr.flush 1).writesStall 1 = false ∧ (Instr.flush 1).canFault = false ∧
    (Instr.flush 1).heldAs = some (.flush 1) := by decide

theorem witness_Capacity :
    (Instr.write 1 7).isCommand = true ∧ (sTp.ep 1).len ≤ sTp.params.fifoCap ∧
    view (fun t => decide ((sTp.ep 1).len < (t.ep 1).len)) (exec (.write 1 7) sTp) = some true := by decide

theorem witness_FifoOrder :
    let s := sTp.setEp 1 { bulk64 .inn with q := List.replicate 62 1 }
    s.running ∧ (1 : EpNum).val < s.params.numEps ∧ (s.ep 1).cfgValid = true ∧
      (s.ep 1).len + ([2, 3] : List Byte).length ≤ s.params.fifoCap := by decide

/-- VF23, with a smaller packet size. -/
def sPackets : State := sTp.setEp 1 { bulk64 .inn with mps := 2, q := [1, 2, 3, 4, 5] }

theorem witness_MultiPacket :
    sPackets.running ∧ (1 : EpNum).val < sPackets.params.numEps ∧ (sPackets.ep 1).cfgValid = true ∧
    ((sPackets.ep 1).xtype = .ctrl ∨ (sPackets.ep 1).dir = .inn) ∧ (sPackets.ep 1).hwEn = true ∧
    (sPackets.ep 1).hwStall = false ∧ (sPackets.ep 1).txReady = false ∧ (sPackets.ep 1).q ≠ [] ∧
    2 = (sPackets.ep 1).mps.toNat ∧ 3 = ((sPackets.ep 1).len + 2 - 1) / 2 := by decide

theorem test_multi_packet :
    (flushTake 1 3 sPackets).map (fun t => ((t.ep 1).q, t.events)) =
    some ([], [.hostReceives 1 [1, 2], .hostReceives 1 [3, 4], .hostReceives 1 [5]]) := by decide

/-- For `WireReceive`, `WireTransmit`, `WireSetup`, `InterruptDrain`, `BusReset` and `AgentFrames`. -/
theorem witness_agents :
    sTp.running ∧ 0 < sTp.params.numEps ∧ ((sTp.setEp 1 { bulk64 .inn with hwStall := true }).ep 1).hwStall = true ∧
    (∀ e : EpNum, AgentStep.wireTake 1 ≠ .irqDrain e) ∧ AgentStep.wireTake 1 ≠ .resetBus := by decide

/-- The enabled case of every step of the wire and of the interrupt context, a packet of the largest size among them. -/
theorem witness_agents_enabled :
    agentEnabled (.wireRx 2 (List.replicate 64 0)) sTp = true ∧ agentEnabled (.wirePollIn 1) sTp = true ∧
    agentEnabled (.wireTake 1) (sTp.setEp 1 { bulk64 .inn with txReady := true }) = true ∧
    agentEnabled (.wireSeeStall 1) (sTp.setEp 1 { bulk64 .inn with hwStall := true }) = true ∧
    agentEnabled (.wireSetup (List.replicate 8 0)) sTp = true ∧
    agentEnabled (.irqDrain 2) (sTp.setEp 2 { bulk64 .out with rxReady := true }) = true := by decide

theorem witness_Halt : sTp.running ∧ ({ sTp with halted := true } : State).halted = true := by decide

theorem witness_RejectedRequests :
    sEp0.running ∧ State.reset.running ∧ State.reset.dfu.bState ≠ .dfuIDLE ∧ State.reset.dfu.bState ≠ .dfuDNLOAD_IDLE ∧
    (6 : BitVec 16).toNat % 4 ≠ 0 ∧ sEp0.params.fifoCap < (68 : BitVec 16).toNat ∧ (68 : BitVec 16).toNat ≠ 0 ∧
    sEp0.dfu.bState ≠ .dfuERROR ∧ (8 : BitVec 16).toNat ≠ 7 ∧
    ({ sEp0 with params := { Params.tp with fifoCap := 6 } } : State).params.fifoCap < 7 := by decide

/-- For `ControlLineState` and `AbortAndClearStatus`. -/
theorem witness_ready :
    sEp0.readyForRequest ∧ (sDfu ({ · with bState := .dfuERROR, bStatus := .errVERIFY })).readyForRequest ∧
    (sDfu ({ · with bState := .dfuERROR, bStatus := .errVERIFY })).dfu.bState = .dfuERROR := by decide

theorem witness_DnloadZeroLength :
    sEp0.readyForRequest ∧ sEp0.dfu.bState = .dfuIDLE ∧
    (sDfu ({ · with bState := .dfuDNLOAD_IDLE })).readyForRequest ∧
    (sDfu ({ · with bState := .dfuDNLOAD_IDLE })).dfu.bState = .dfuDNLOAD_IDLE := by decide

theorem witness_HeldAcknowledgement :
    let s := sEp0.setEp 0 { ctrl8 with txReady := true }
    s.quiet ∧ (s.ep 0).cfgValid = true ∧ (s.ep 0).txReady = true ∧ s.dfu.bState = .dfuIDLE ∧
      ({ s with dfu := { s.dfu with bState := .dfuERROR } } : State).dfu.bState = .dfuERROR := by decide

/-- A payload that fills the block, one that does not (`DnloadBuffers`), and one that does not fit (`DnloadOverrun`). -/
theorem witness_dnload :
    (let s := sData (d1 ++ d1)
     s.readyForRequest ∧ s.dfu.bState = .dfuIDLE ∧ (16 : BitVec 16).toNat = 4 * 4 ∧ 4 * 4 ≤ s.params.fifoCap ∧
       4 * 4 ≤ (s.ep 0).len ∧ s.dfu.cursor + 4 = s.params.blockWords ∧ s.dfu.blk.length = s.params.blockWords) ∧
    (let s := sData d1
     s.readyForRequest ∧ (8 : BitVec 16).toNat = 4 * 2 ∧ 4 * 2 ≤ (s.ep 0).len ∧ s.dfu.cursor + 2 < s.params.blockWords) ∧
    (let s := { sData d1 with dfu := { sEp0.dfu with bState := .dfuDNLOAD_IDLE, cursor := 3 } }
     s.readyForRequest ∧ s.dfu.bState = .dfuDNLOAD_IDLE ∧ s.params.blockWords < s.dfu.cursor + 2 ∧
       4 * 2 ≤ (s.ep 0).len ∧ 4 * 2 ≤ s.params.fifoCap) := by decide

/-- The example of spec/42_control_sequencer.md R182: 16 bytes in two packets of 8, each followed by a poll; here an empty
poll comes first and an interrupt request falls in the second round. -/
def exampleRounds : List WaitRound := [⟨none, false⟩, ⟨some d1, true⟩]
def exampleLast : WaitRound := ⟨some d1, false⟩
def sArrives : State :=
  { sEp0 with
    params := { Params.tp with waitBound := some 3 }
    sched := .main :: (exampleRounds ++ [exampleLast]).flatMap WaitRound.slots }

theorem witness_DataStageArrives :
    (sArrives.awaitsData ∧ arrivals (exampleRounds ++ [exampleLast]) = [d1, d1] ∧ exampleLast.packet = some d1 ∧ d1 ≠ [] ∧
      (∀ p ∈ [d1, d1], p.length ≤ (sArrives.ep 0).mps.toNat) ∧ [d1, d1].flatten.length = (16 : BitVec 16).toNat ∧
      (16 : BitVec 16).toNat ≤ sArrives.params.fifoCap) ∧
    (sArrives.params.waitBound = some 3 ∧ exampleRounds.length + 1 ≤ 3 ∧ sArrives.dfu.bState = .dfuIDLE ∧
      (16 : BitVec 16).toNat = 4 * 4 ∧ sArrives.dfu.cursor + 4 ≤ sArrives.params.blockWords ∧
      sArrives.dfu.blk.length = sArrives.params.blockWords) ∧
    (let rounds : List WaitRound := [⟨some [1, 2, 3, 4], false⟩]
     let lastRound : WaitRound := ⟨some [5, 6, 7], true⟩
     let s := { sEp0 with sched := .main :: (rounds ++ [lastRound]).flatMap WaitRound.slots }
     s.awaitsData ∧ (arrivals (rounds ++ [lastRound])).flatten = [1, 2, 3, 4, 5, 6, 7] ∧ (7 : BitVec 16).toNat = 7 ∧
       s.params.waitBound = none ∧ 4 ≤ (s.ep 0).mps.toNat ∧ 7 ≤ s.params.fifoCap) := by decide

/-- R182's example, run. -/
theorem test_dnload_two_packets :
    view (fun t => (t.dfu.blk, t.dfu.flushPending, (t.ep 0).q, t.ep0Masked, t.main))
      (exec (.dfuDnload ⟨0, 0, 16⟩) sArrives) =
    some ([0x04030201, 0x08070605, 0x04030201, 0x08070605], true, [], false, []) := by decide

/-- The requests that time out, and a wait before its last poll, at its bound, and at its start. -/
theorem witness_DataStageTimeout :
    sWait.readyForRequest ∧ (sWait.ep 0).xtype = .ctrl ∧ sWait.params.waitBound = some 3 ∧
    (sWait.ep 0).len + (sWait.ep 0).rxBuf.length < (7 : BitVec 16).toNat ∧
    (64 : BitVec 16).toNat ≤ sWait.params.fifoCap ∧ sWait.dfu.bState = .dfuIDLE ∧ (64 : BitVec 16).toNat % 4 = 0 ∧
    (sWait.ep 0).len + (sWait.ep 0).rxBuf.length < (64 : BitVec 16).toNat ∧
    ({ sWait with main := [.waitEnter 7] } : State).main = .waitEnter 7 :: [] ∧
    (let s := { sWait with main := [.waitLoop 7 2] }
     s.running ∧ s.main = .waitLoop 7 2 :: [] ∧ (s.ep 0).len < 7 ∧ s.params.waitBound ≠ some 2 ∧
       (view id (exec (.drain 0) s)).isSome = true) ∧
    ({ sWait with main := [.waitLoop 7 3] } : State).main = .waitLoop 7 3 :: [] := by decide

/-- A held `FLUSH` and a held `ZLP_ACK`, and a request whose acknowledgement is held. -/
theorem witness_HeldCompletes :
    (let s := { sTp.setEp 1 { bulk64 .inn with txReady := true, q := [1] } with main := [.flush 1] }
     s.running ∧ s.sched = [] ∧ (1 : EpNum).val < s.params.numEps ∧ (s.ep 1).cfgValid = true ∧ (s.ep 1).dir = .inn ∧
       (s.ep 1).hwEn = true ∧ (s.ep 1).hwStall = false ∧ (s.ep 1).txReady = true ∧ s.main = [.flush 1]) ∧
    (sHeld.running ∧ sHeld.sched = [] ∧ sHeld.main = [.zlpAck] ∧ (sHeld.ep 0).xtype = .ctrl ∧ (sHeld.ep 0).hwEn = true) ∧
    (let s := sEp0.setEp 0 { ctrl8 with txReady := true }
     s.quiet ∧ 0 < s.params.numEps ∧ (s.ep 0).cfgValid = true ∧ (s.ep 0).xtype = .ctrl ∧ (s.ep 0).hwEn = true ∧
       (s.ep 0).hwStall = false ∧ (s.ep 0).txReady = true ∧ s.dfu.bState = .dfuIDLE) := by decide

/-- A response in progress, and a Line Coding response on an endpoint with packets of 4 bytes (VC1). -/
theorem witness_ResponsePackets :
    (let s := { sEp0.setEp 0 { ctrl8 with mps := 4, txReady := true, q := [0, 0, 8] } with main := [.flush 0, .sendLoop] }
     s.running ∧ s.sched = [] ∧ s.main = [.flush 0, .sendLoop] ∧ 0 < s.params.numEps ∧ (s.ep 0).cfgValid = true ∧
       (s.ep 0).xtype = .ctrl ∧ (s.ep 0).hwEn = true ∧ (s.ep 0).hwStall = false ∧ (s.ep 0).txReady = true) ∧
    (let s := sEp0.setEp 0 { ctrl8 with mps := 4 }
     s.readyForRequest ∧ (s.ep 0).hwEn = true ∧ (s.ep 0).hwStall = false ∧ (s.ep 0).q = [] ∧ 7 ≤ s.params.fifoCap ∧
       4 ≤ (s.ep 0).mps.toNat ∧ (s.ep 0).mps.toNat < 7) := by decide

/-- A SET_CONTROL_LINE_STATE about to be expanded, on a stalled endpoint with a packet left ready. -/
theorem witness_RequestExpansion :
    let w : BitVec 64 := 0x0000000000032221
    let s := { sEp0.setEp 0 { ctrl8 with hwStall := true, txReady := true } with
      sched := hostReqSlots w, program := hostReqItems .cdc w }
    s.running ∧ s.main = [] ∧ s.handling = false ∧ s.sched = hostReqSlots w ∧ s.program = hostReqItems .cdc w ++ [] ∧
      0 < s.params.numEps ∧ 8 ≤ s.params.fifoCap ∧ (s.ep 0).hwEn = true ∧ (s.ep 0).cfgValid = true ∧
      (s.ep 0).xtype = .ctrl ∧ (s.ep 0).rxReady = false ∧ (s.ep 0).q = [] ∧ s.ep0Masked = false := by decide

theorem witness_GetstatusReports :
    let s := sDfu ({ · with bState := .dfuDNBUSY })
    s.readyForRequest ∧ s.dfu.flushPending = false ∧ s.dfu.bState ≠ .dfuMANIFEST ∧
      s.dfu.bState ≠ .dfuMANIFEST_WAIT_RESET ∧ s.dfu.pollTimeout = s.params.pollTimeout ∧ s.dfu.iString = 0 ∧
      (s.ep 0).len + 6 ≤ s.params.fifoCap := by decide

/-- The last block below 2^32, and the one that would pass it. -/
def sLast (target : Word) : State := { sFlush [] with dfu := { (sFlush []).dfu with targetAddr := target } }

theorem witness_GetstatusFlushes :
    ((sLast 0xFFFFFFF0).running ∧ (sLast 0xFFFFFFF0).dfu.flushPending = true ∧
      2 ^ 32 ≤ (sLast 0xFFFFFFF0).dfu.targetAddr.toNat + 4 * (sLast 0xFFFFFFF0).params.blockWords) ∧
    ((sLast 0xFFFFFFE0).readyForRequest ∧ (sLast 0xFFFFFFE0).dfu.bState = .dfuDNLOAD_SYNC ∧
      (sLast 0xFFFFFFE0).dfu.targetAddr.toNat + 4 * (sLast 0xFFFFFFE0).params.blockWords < 2 ^ 32 ∧
      (sLast 0xFFFFFFE0).dfu.blk.length = (sLast 0xFFFFFFE0).params.blockWords ∧
      (sLast 0xFFFFFFE0).dfu.pollTimeout = (sLast 0xFFFFFFE0).params.pollTimeout ∧
      (sLast 0xFFFFFFE0).dfu.iString = 0 ∧
      ((sLast 0xFFFFFFE0).ep 0).len + 6 ≤ (sLast 0xFFFFFFE0).params.fifoCap) := by decide

theorem witness_FlushOutcomes :
    (sFlush [true, true]).readyForRequest ∧ (sFlush [true, true]).dfu.flushPending = true ∧
    (sFlush [true, true]).dfu.bState = .dfuDNLOAD_SYNC ∧
    (sFlush [true, true]).dfu.blk.length = (sFlush [true, true]).params.blockWords ∧
    ([[true, true], [true, false], [false]].all fun answers =>
      (view id (exec (.dfuGetstatus ⟨0, 0, 6⟩) (sFlush answers))).isSome) = true ∧
    (sFlush [true, false]).flashAnswers = true :: false :: [] ∧ (sFlush [false]).flashAnswers = false :: [] := by decide

theorem witness_BootJump :
    (let s := sDfu ({ · with bState := .dfuMANIFEST })
     s.running ∧ s.dfu.bState = .dfuMANIFEST ∧ s.dfu.flushPending = false) ∧
    (let s := sDfu ({ · with bState := .dfuMANIFEST_WAIT_RESET, booted := true })
     s.halted = false ∧ s.dfu.booted = true) := by decide

/-- For `Getstate` and `GetLineCoding`. -/
theorem witness_responses :
    sEp0.readyForRequest ∧ (sEp0.ep 0).len < sEp0.params.fifoCap ∧ (sEp0.ep 0).len + 7 ≤ sEp0.params.fifoCap := by decide

theorem witness_SetLineCoding :
    (sData [1, 2, 3, 4, 5, 6, 7]).readyForRequest ∧ 7 ≤ sEp0.params.fifoCap ∧
    ((sData [1, 2, 3, 4, 5, 6, 7]).ep 0).q = 1 :: 2 :: 3 :: 4 :: 5 :: 6 :: 7 :: [] := by decide

theorem witness_LineCodingRoundTrip :
    let s := sData [1, 2, 3, 4, 5, 6, 7]
    s.readyForRequest ∧ 7 ≤ s.params.fifoCap ∧ 7 ≤ (s.ep 0).mps.toNat ∧ (s.ep 0).hwEn = true ∧
      (s.ep 0).hwStall = false ∧ (s.ep 0).xtype = .ctrl ∧ ([1, 2, 3, 4, 5, 6, 7] : List Byte).length = 7 ∧
      (s.ep 0).q = [1, 2, 3, 4, 5, 6, 7] := by decide

theorem witness_Putchar :
    let s := { sTp.setEp 1 { bulk64 .inn with q := List.replicate 62 0 } with program := [.putchar 0x0A] }
    s.quiet ∧ s.program = .putchar 0x0A :: [] ∧ s.pcb.enumerated = true ∧ s.params.epCdcIn = 1 ∧
      (1 : EpNum).val < s.params.numEps ∧ (s.ep 1).cfgValid = true ∧ (s.ep 1).dir = .inn ∧ (s.ep 1).txReady = false ∧
      (s.ep 1).len + 2 ≤ s.params.fifoCap ∧ ({ s with pcb := ⟨0, 0, 0⟩ } : State).pcb.enumerated = false := by decide

theorem witness_Callbacks :
    sEp0.quiet ∧ sEp0.params.Legal ∧
    ({ sEp0 with program := [.initCallback .cdc] } : State).program = .initCallback .cdc :: [] ∧
    ({ sEp0 with program := [.initCallback .dfu] } : State).program = .initCallback .dfu :: [] ∧
    ({ sEp0 with program := [.rxCallback] } : State).program = .rxCallback :: [] := by decide

/-- spec/43_cdc_client.md R203, spec/40_fifo_core.md R141: control passes to the application's handler, here one whose first
command is `READ 2` of the bulk-OUT endpoint; the dispatcher's own next item comes after it. -/
theorem test_rxCallback_forwards :
    view (fun t => t.program)
        (step { sEp0 with rxHandler := [.issue (.cmd32 0x42000000)], program := [.rxCallback, .putchar 0x41] }) =
      some [.issue (.cmd32 0x42000000), .putchar 0x41] := by decide

/-! ### States that meet the invariant -/

/-- The invariant of a state, from facts that can be decided; the flash target is block number `f`. -/
theorem inv_of_checks {s : State} (f : Nat) (hl : s.params.Legal)
    (he : ∀ e : EpNum, (s.ep e).q.length ≤ s.params.fifoCap ∧
      ((s.ep e).cfgValid = true → 1 ≤ (s.ep e).mps.toNat ∧ (s.ep e).mps.toNat ≤ s.params.fifoCap) ∧
      ((s.ep e).rxReady = false → (s.ep e).rxBuf = []) ∧
      ((s.ep e).txReady = true → (s.ep e).txPkt.length ≤ (s.ep e).mps.toNat) ∧ (s.ep e).hwEn = (s.ep e).cfgValid ∧
      ((s.ep e).cfgValid = false → (s.ep e).q = []) ∧ (e = 0 → (s.ep e).cfgValid = true → (s.ep e).xtype = .ctrl))
    (ha : ∀ e : EpNum, s.params.numEps ≤ e.val → s.ep e = Endpoint.reset)
    (hs : ∀ e : EpNum, s.pcb.stallBit e = (s.ep e).hwStall)
    (hd : s.dfu.cursor < s.params.blockWords ∧
      (s.dfu.flushPending = true → s.dfu.cursor = 0 ∧ s.dfu.bState = .dfuDNLOAD_SYNC) ∧
      s.dfu.targetAddr.toNat = s.params.flashBase.toNat + s.params.blockBytes * f ∧ s.dfu.iString = 0)
    (hd' : s.dfu.pollTimeout = s.params.pollTimeout ∧ (s.dfu.bStatus ≠ .ok → s.dfu.bState = .dfuERROR) ∧
      (s.dfu.bState = .dfuMANIFEST_WAIT_RESET ↔ s.dfu.booted = true) ∧ s.dfu.blk.length = s.params.blockWords)
    (hf : s.flash = []) (hx : s.faults = []) (hm : s.main = []) (hh : s.handling = false) : Inv s :=
  ⟨⟨hl, fun e => ⟨(he e).1, (he e).2.1, (he e).2.2.1, (he e).2.2.2.1, (he e).2.2.2.2.1, (he e).2.2.2.2.2.1,
      (he e).2.2.2.2.2.2⟩, ha, hs,
    ⟨hd.1, hd.2.1, ⟨f, hd.2.2.1⟩, hd.2.2.2, hd'.1, hd'.2.1, hd'.2.2.1, hd'.2.2.2⟩, by rw [hf]; exact Memory.wf_nil,
    by rw [hx]; exact List.nodup_nil⟩, MainInv.nothing s hh hm⟩

/-- An enumerated device whose next item is a GETSTATUS, with a block to flush. -/
def sFlushNext : State :=
  { sTp with
    dfu := (sFlush []).dfu, flashAnswers := [true, true], program := [.issue (.setup8 .dfu 0x00060000000003A1)] }

theorem inv_sFlushNext : Inv sFlushNext :=
  inv_of_checks 0 (by decide) (by decide) (by decide) (by decide) (by decide) (by decide) rfl rfl rfl rfl

/-- The same device in `dfuMANIFEST`. -/
def sBootNext : State := { sFlushNext with dfu := { State.sPor.dfu with bState := .dfuMANIFEST } }

theorem inv_sBootNext : Inv sBootNext :=
  inv_of_checks 0 (by decide) (by decide) (by decide) (by decide) (by decide) (by decide) rfl rfl rfl rfl

/-- For `StepKeepsInvariant`, `FlashChangesOnlyByFlush`, `BufferIsSafe` and `BootOnlyFromManifest`: the step is taken, a flush is pending, and it
changes a byte of the target block; and a step that makes the boot jump. -/
theorem witness_steps :
    Inv sFlushNext ∧ sFlushNext.dfu.flushPending = true ∧
    view (fun t => (Memory.readByte 0x2000 t.flash, Memory.readByte 0x200F t.flash)) (step sFlushNext) =
      some (some 0x01, some 0x10) ∧
    Memory.readByte 0x2000 sFlushNext.flash = none ∧
    Inv sBootNext ∧ sBootNext.dfu.booted = false ∧ view (fun t => t.dfu.booted) (step sBootNext) = some true :=
  ⟨inv_sFlushNext, by decide, by decide, by decide, inv_sBootNext, by decide, by decide⟩

/-- Legal parameters and a flash that holds something. -/
theorem witness_ResetInvariant : Params.tp.Legal ∧ Memory.wf [(0x2000, 0x01), (0x2001, 0xFF)] := by decide

/-- The step relation is not empty (spec/10_state.md R51): the block of an enumerated device takes a bus reset. -/
theorem test_stepsTo :
    sTp.toBlock.StepsTo { sTp.toInputs with sched := [.agent .resetBus] }
      (agentStep .resetBus { sTp with sched := [] }).toBlock := ⟨sTp.toInputs, rfl⟩

/-- A recorded fault and a step. -/
theorem witness_FaultsStay :
    view (fun t => t.faults) (step { sTp with faults := [(.fifoEmpty, 2)], sched := [.agent .resetBus] }) =
    some [(.fifoEmpty, 2)] := by decide

end Sys2Proof.Tests
end

