-- ==== Sys2Proof/Proofs/StepDispatch.lean ====
section
/-! How a step dispatches, one equation for each thing the schedule can say and each thing MAIN can have to do
(spec/00_scope.md R6, R12, spec/42_control_sequencer.md R181), and the statement about it. -/

namespace Sys2Proof.Machine

/-! ### Who steps -/

theorem step_of_sched_nil {s : State} (h : s.running) (hs : s.sched = []) : step s = mainTurn s := by
  rw [step, nextStep, unlessEnded_running h, hs]

theorem step_of_sched_main {s : State} {slots : List Slot} (h : s.running) (hs : s.sched = .main :: slots) :
    step s = mainTurn { s with sched := slots } := by
  rw [step, nextStep, unlessEnded_running h, hs]

theorem step_of_sched_agent {s : State} {a : AgentStep} {slots : List Slot} (h : s.running)
    (hs : s.sched = .agent a :: slots) : step s = .next (agentStep a { s with sched := slots }) := by
  rw [step, nextStep, unlessEnded_running h, hs]

/-! ### What MAIN does at its turn -/

theorem mainTurn_of_main_ne_nil {s : State} (h : s.main ≠ []) : mainTurn s = .next (resume s) := by
  rw [mainTurn, if_neg (by simpa using h)]

theorem mainTurn_of_issue {s : State} {w : Encoded} {i : Instr} {items : List MainItem} (hm : s.main = [])
    (hp : s.program = .issue w :: items) (hd : decode s.params.requestCodes w = some i) :
    mainTurn s = exec i { s with program := items } := by
  rw [mainTurn, if_pos (by simp [hm]), hp]
  simp only [runItem, hd]

/-- The constant of the bound on one step (log 8). -/
theorem le_driveFuel (s : State) : 32 ≤ driveFuel s := by unfold driveFuel; omega

/-- A chain of at most 32 parts that ends with the handler's return is one step. -/
theorem step_of_runs_done {n : Nat} {s t : State} (h : s.running) (hs : s.sched = []) (hm : s.main ≠ [])
    (hr : Runs n s t) (ht : t.main = []) (hn : n ≤ 32) : step s = .next t := by
  rw [step_of_sched_nil h hs, mainTurn_of_main_ne_nil hm, resume, drive_runs_done hr ht (hn.trans (le_driveFuel s))]

/-- Settles O7, from who steps and what MAIN then does. -/
theorem stepRunsDecoded : Obligations.StepRunsDecoded := by
  unfold Obligations.StepRunsDecoded
  refine ⟨fun s w i items hr hm hp hd => ⟨fun hs => ?_, fun slots hs => ?_⟩,
    fun s hr hm => ⟨fun hs => ⟨_, le_driveFuel s, ?_⟩,
      fun slots hs => ⟨_, le_driveFuel { s with sched := slots }, ?_⟩⟩,
    fun s a slots hr hs => step_of_sched_agent hr hs, fun s nbits w i hr hc hd => ?_⟩
  · exact (step_of_sched_nil hr hs).trans (mainTurn_of_issue hm hp hd)
  · exact (step_of_sched_main hr hs).trans (mainTurn_of_issue (s := { s with sched := slots }) hm hp hd)
  · exact (step_of_sched_nil hr hs).trans (mainTurn_of_main_ne_nil hm)
  · exact (step_of_sched_main hr hs).trans (mainTurn_of_main_ne_nil (s := { s with sched := slots }) hm)
  · -- the placed word is the dispatcher's next item, and its request codes are those of the table
    have hd' : decode s.params.requestCodes (tableEncoded nbits w) = some i := by rw [hc]; exact hd
    have hturn := step_of_sched_main (s := s.withFetchWord nbits w) hr rfl
    exact hturn.trans (mainTurn_of_issue (s := { s.withFetchWord nbits w with sched := s.sched }) rfl rfl hd')

end Sys2Proof.Machine
end

