-- ==== Sys2Proof/Proofs/HeldCompletes.lean ====
section
/-! What is held on an endpoint completes once the host has taken the packet in the way (spec/00_scope.md R13,
spec/41_wire_side.md R162): the host's TAKE, the held command right after it, and the requests that end with an
acknowledgement (spec/42_control_sequencer.md R183). -/

namespace Sys2Proof.Machine

/-! ### The host's TAKE and the command it lets through -/

/-- The enabling condition of `WIRE TAKE` (R162), from the fields of the endpoint. -/
theorem wireTake_enabled {s : State} {e : EpNum} (h : s.running) (he : e.val < s.params.numEps)
    (hd : (s.ep e).xtype = .ctrl ∨ (s.ep e).dir = .inn) (hen : (s.ep e).hwEn = true) (hst : (s.ep e).hwStall = false)
    (ht : (s.ep e).txReady = true) : agentEnabled (.wireTake e) s = true := by
  simp [agentEnabled, State.booted, Endpoint.maySend, h.1, h.2, he, hd, hen, hst, ht]

theorem hasEp_txReady_maySend_of_wireTake_enabled {s : State} {e : EpNum} (h : agentEnabled (.wireTake e) s = true) :
    s.hasEp e = true ∧ (s.ep e).txReady = true ∧ (s.ep e).maySend = true := by
  simp only [agentEnabled, Bool.and_eq_true] at h
  obtain ⟨-, ⟨⟨⟨he, -⟩, ht⟩, -⟩, hd⟩ := h
  exact ⟨he, ht, hd⟩

theorem ep_wireTake {s : State} {e : EpNum} (h : agentEnabled (.wireTake e) s = true) :
    (agentStep (.wireTake e) s).ep e = { s.ep e with txReady := false, toggle := !(s.ep e).toggle } := by
  rw [agentStep_enabled h, agentEffect, State.ep_setEp_same]

/-- The state once the host has taken the packet of endpoint `e` and a command has put the next packet `pkt` on it, so that
`txReady` is again what it was, left `q` in the FIFO and answered `data`; `rest` is what MAIN still has to do. -/
def State.takenAndSent (e : EpNum) (pkt q : List Byte) (data : BitVec 16) (rest : List MainOp) (s : State) : State :=
  { s with
    eps := s.eps.set e.val
      { s.ep e with toggle := !(s.ep e).toggle, txPkt := pkt, q := q, underrun := false }
    events := s.events ++ [.hostReceives e (s.ep e).txPkt]
    resp := respWord .ok data, main := rest, handling := s.handling && !rest.isEmpty }

/-- The next packet put on the endpoint whose packet has just been taken. -/
theorem setEp_respond_setMain_wireTake {s : State} {e : EpNum} (h : agentEnabled (.wireTake e) s = true)
    (pkt q : List Byte) (data : BitVec 16) (rest : List MainOp) :
    (((agentStep (.wireTake e) s).setEp e
        { (agentStep (.wireTake e) s).ep e with txPkt := pkt, q := q, underrun := false, txReady := true }).respond
      .ok data).setMain rest = s.takenAndSent e pkt q data rest := by
  have ht := (hasEp_txReady_maySend_of_wireTake_enabled h).2.1
  rw [ep_wireTake h, agentStep_enabled h]
  simp [agentEffect, State.takenAndSent, State.setEp, State.respond, State.setMain, State.emit, ht]

/-- A `FLUSH` after the host's `TAKE` is performed (spec/40_fifo_core.md R124). -/
theorem mainOp_flush_wireTake {s : State} {e : EpNum} (h : agentEnabled (.wireTake e) s = true)
    (hc : (s.ep e).cfgValid = true) (rest : List MainOp) :
    mainOp (.flush e) rest (agentStep (.wireTake e) s) = some (s.takenAndSent e
      ((s.ep e).q.take (s.ep e).mps.toNat) ((s.ep e).q.drop (s.ep e).mps.toNat)
      (countData (min (s.ep e).len (s.ep e).mps.toNat)) rest) := by
  obtain ⟨he, -, hd⟩ := hasEp_txReady_maySend_of_wireTake_enabled h
  have hep := ep_wireTake h
  have hhas : (agentStep (.wireTake e) s).hasEp e = true := by
    rw [State.hasEp, (agentStep_mainOwned _ s).params]; exact he
  rw [mainOp, cmdFlush_performed hhas (by rw [hep]; exact hc) (by rw [hep]; exact hd) (by rw [hep]), Option.map_some,
    setEp_respond_setMain_wireTake h, hep]
  simp only [Endpoint.len, take_min_length, drop_min_length]

/-- A `ZLP_ACK` after the host's `TAKE` is performed (R128). -/
theorem mainOp_zlpAck_wireTake {s : State} (h : agentEnabled (.wireTake 0) s = true) (hc : (s.ep 0).cfgValid = true)
    (rest : List MainOp) :
    mainOp .zlpAck rest (agentStep (.wireTake 0) s) = some (s.takenAndSent 0 [] (s.ep 0).q 0 rest) := by
  have hep := ep_wireTake h
  have hsent := setEp_respond_setMain_wireTake h [] (s.ep 0).q 0 rest
  rw [hep] at hsent
  rw [mainOp, cmdZlpAck_performed (by rw [hep]; exact hc) (by rw [hep]), Option.map_some, hep]
  exact congrArg some hsent

/-- MAIN's turn after the host's `TAKE`: the held command `op`, then the parts that end its handler. -/
theorem step_wireTake {n : Nat} {s t u : State} {e : EpNum} {op : MainOp} {rest : List MainOp} (hr : s.running)
    (hs : s.sched = []) (hm : s.main = op :: rest) (h : agentEnabled (.wireTake e) s = true)
    (hop : mainOp op rest (agentStep (.wireTake e) s) = some t) (htu : Runs n t u) (hu : u.main = []) (hn : n ≤ 31) :
    step (agentStep (.wireTake e) s) = .next u := by
  have ho := agentStep_mainOwned (.wireTake e) s
  have hhalted : (agentStep (.wireTake e) s).halted = false := by rw [agentStep_enabled h]; exact hr.1
  have hbooted : (agentStep (.wireTake e) s).dfu.booted = false := by rw [ho.dfu]; exact hr.2
  have hmain := ho.main.trans hm
  have hsched := ho.sched.trans hs
  exact step_of_runs_done ⟨hhalted, hbooted⟩ hsched (by simp [hmain])
    ((Runs.one hmain hsched hhalted hop).trans htu) hu (by omega)

/-! ### Requests that wait on their acknowledgement -/

/-- A request in progress whose acknowledgement is its next command, with `after` to follow. -/
def State.awaitingAck (after : List MainOp) (s : State) : State :=
  { s with main := .zlpAck :: after, rdata := [], handling := true }

/-- The same request once the host has taken the packet in the way and the acknowledgement has been made ready. -/
def State.ackSent (after : List MainOp) (s : State) : State :=
  (s.awaitingAck after).takenAndSent 0 [] (s.ep 0).q 0 after

/-- `SEQ_ACK` on an endpoint 0 whose packet has not been taken is held (R183). -/
theorem seqAck_held {s : State} (h : s.quiet) (hc : (s.ep 0).cfgValid = true) (ht : (s.ep 0).txReady = true)
    (after : List MainOp) : seqAck after s = s.awaitingAck after := by
  obtain ⟨-, hm, hs⟩ := h
  have hz : cmdZlpAck (s.awaitingAck after) = none := by
    rw [cmdZlpAck, State.ep_congr (show (s.awaitingAck after).eps = s.eps from rfl), hc, ht]
    rfl
  have hheld : mainStep (s.awaitingAck after) = none := by
    show (cmdZlpAck (s.awaitingAck after)).map (·.setMain after) = none
    rw [hz, Option.map_none]
  rw [seqAck, runHandler, hm, List.append_nil]
  exact drive_held (s := s.awaitingAck after) hs hheld _

/-- A request whose acknowledgement is held ends, after the host's `TAKE`, with what follows the acknowledgement. -/
theorem step_wireTake_seqAck {n : Nat} {s t : State} {after : List MainOp} (h : s.quiet)
    (hc : (s.ep 0).cfgValid = true) (hw : agentEnabled (.wireTake 0) s = true) (hruns : Runs n (s.ackSent after) t)
    (hmt : t.main = []) (hn : n ≤ 31) : step (agentStep (.wireTake 0) (seqAck after s)) = .next t := by
  have hw' : agentEnabled (.wireTake 0) (s.awaitingAck after) = true := hw
  rw [seqAck_held h hc (hasEp_txReady_maySend_of_wireTake_enabled hw).2.1]
  exact step_wireTake (s := s.awaitingAck after) h.1 h.2.2 rfl hw' (mainOp_zlpAck_wireTake hw' hc after) hruns hmt hn

/-- The same for a request with one part `op` after its acknowledgement. -/
theorem step_wireTake_seqAck_one {s t : State} {op : MainOp} (h : s.quiet)
    (hc : (s.ep 0).cfgValid = true) (hw : agentEnabled (.wireTake 0) s = true)
    (hop : mainOp op [] (s.ackSent [op]) = some t) (hmt : t.main = []) :
    step (agentStep (.wireTake 0) (seqAck [op] s)) = .next t :=
  step_wireTake_seqAck h hc hw (Runs.one rfl h.2.2 h.1.1 hop) hmt (by omega)

/-! ### The requests that end with an acknowledgement -/

theorem exec_cdcSetControlLineState {s : State} (h : s.running) (r : ReqArgs) :
    exec (.cdcSetControlLineState r) s = .next (seqAck [] s) := by
  rw [exec, execCdcSetControlLineState, unlessEnded_running h]

theorem exec_dfuAbort {s : State} (h : s.running) (r : ReqArgs) :
    exec (.dfuAbort r) s = .next (seqAck [.abortEnd] s) := by
  rw [exec, execDfuAbort, unlessEnded_running h]

theorem exec_dfuClrstatus_of_error {s : State} (h : s.running) (hb : s.dfu.bState = .dfuERROR) (r : ReqArgs) :
    exec (.dfuClrstatus r) s = .next (seqAck [.clrstatusEnd] s) := by
  rw [exec, execDfuClrstatus, unlessEnded_running h, if_pos hb]

theorem exec_dfuDnload_of_length_zero {s : State} (h : s.running) (hb : acceptsDnload s.dfu.bState = true)
    {r : ReqArgs} (hl : r.wLength = 0) : exec (.dfuDnload r) s = .next (seqAck [.dnloadEnd] s) := by
  rw [exec, execDfuDnload, unlessEnded_running h]
  simp [hb, hl]

/-- The end of a `DFU_DNLOAD` of length 0 in `dfuIDLE` (R219). -/
theorem mainOp_dnloadEnd_of_idle {s : State} (rest : List MainOp) (hb : s.dfu.bState = .dfuIDLE) :
    mainOp .dnloadEnd rest s =
      some ((s.setDfu { s.dfu with bState := .dfuERROR, bStatus := .errNOTDONE }).setMain rest) := by
  rw [mainOp, dnloadEnd, if_pos hb]
  rfl

/-- The end of a `DFU_DNLOAD` of length 0 in `dfuDNLOAD_IDLE` (R219). -/
theorem mainOp_dnloadEnd_of_dnloadIdle {s : State} (rest : List MainOp) (hb : s.dfu.bState = .dfuDNLOAD_IDLE) :
    mainOp .dnloadEnd rest s = some ((s.setDfu { s.dfu with bState := .dfuMANIFEST_SYNC }).setMain rest) := by
  rw [mainOp, dnloadEnd, if_neg (by simp [hb])]

/-! ### The statement -/

/-- Settles O57: after the TAKE the held command is performed, and the rest of its request with it. -/
theorem heldCompletes : Obligations.HeldCompletes := by
  unfold Obligations.HeldCompletes
  refine ⟨fun e s hr hs he hc hd hen hst ht => ?_, fun r s t hq hn hc hx hen hst ht hteq => ?_⟩
  · have hw := wireTake_enabled hr he hd hen hst ht
    refine ⟨fun hm => ?_, fun h0 hm => ?_⟩
    · rw [step_wireTake hr hs hm hw (mainOp_flush_wireTake hw hc []) (.refl _) rfl (Nat.zero_le _)]
      simp [State.takenAndSent, countData]
    · subst h0
      rw [step_wireTake hr hs hm hw (mainOp_zlpAck_wireTake hw hc []) (.refl _) rfl (Nat.zero_le _)]
      simp [State.takenAndSent]
  · have hw := wireTake_enabled hq.1 hn (.inl hx) hen hst ht
    have hm : s.main = [] := hq.2.1
    obtain rfl : t = s.ackSent [] := by
      rw [hteq]
      simp [State.ackSent, State.takenAndSent, State.awaitingAck, State.ep, hm]
    refine ⟨⟨_, exec_cdcSetControlLineState hq.1 r, ?_⟩, ⟨_, exec_dfuAbort hq.1 r, ?_⟩,
      fun hb => ⟨_, exec_dfuClrstatus_of_error hq.1 hb r, ?_⟩,
      fun hb hl => ⟨_, exec_dfuDnload_of_length_zero hq.1 (by simp [acceptsDnload, hb]) hl, ?_⟩,
      fun hb hl => ⟨_, exec_dfuDnload_of_length_zero hq.1 (by simp [acceptsDnload, hb]) hl, ?_⟩⟩
    · exact step_wireTake_seqAck hq hc hw (.refl _) rfl (Nat.zero_le _)
    · exact step_wireTake_seqAck_one hq hc hw rfl rfl
    · exact step_wireTake_seqAck_one hq hc hw rfl rfl
    · exact step_wireTake_seqAck_one hq hc hw (mainOp_dnloadEnd_of_idle [] hb) rfl
    · exact step_wireTake_seqAck_one hq hc hw (mainOp_dnloadEnd_of_dnloadIdle [] hb) rfl

end Sys2Proof.Machine
end

