-- ==== Sys2Proof/Proofs/StepKeepsInvariant.lean ====
section
/-! Every step keeps the invariant (spec/10_state.md R55, spec/44_dfu_controller.md R239): MAIN's turn, case by case of
what it can be, then the step. -/

namespace Sys2Proof.Machine

/-! ### MAIN's turn -/

/-- A reserved command word (spec/30_encoding.md R94). -/
theorem execReserved_keeps {s t : State} (h : LiveInv s) (ht : execReserved s = .next t) : Inv t := by
  rcases (unlessEnded_next (k := fun s => .next (raise .reservedCommand s)) ht).2 with ⟨-, rfl⟩ | ⟨-, ht⟩
  · exact h.inv
  · cases ht
    exact (h.of_sameBut (h.inv.block.raise 0).1 (raise_sameBut s 0).1).inv

/-- No part of `PUTCHAR` ends a DFU request (spec/43_cdc_client.md R201). -/
theorem endsDfu_eq_false_of_mem_putcharOps {p : Params} {c : Byte} {op : MainOp} (ho : op ∈ putcharOps p c) :
    op.endsDfu = false := by
  unfold putcharOps at ho
  split at ho
  · simp only [List.cons_append, List.nil_append, List.mem_cons, List.not_mem_nil, or_false] at ho
    rcases ho with rfl | rfl | rfl <;> rfl
  · simp only [List.nil_append, List.mem_cons, List.not_mem_nil, or_false] at ho
    rcases ho with rfl | rfl <;> rfl

theorem callPutchar_keeps {s : State} (h : LiveInv s) (hm : s.main = []) (c : Byte) : LiveInv (callPutchar c s) := by
  unfold callPutchar; split
  · exact runProcedure_keeps h hm _ fun _ => endsDfu_eq_false_of_mem_putcharOps
  · exact h

theorem callInit_keeps {s : State} (h : LiveInv s) (hm : s.main = []) (d : Driver) : LiveInv (callInit d s) := by
  cases d with
  | dfu => exact h
  | cdc =>
    refine runProcedure_keeps h hm _ fun op ho => ?_
    simp only [List.mem_cons, List.not_mem_nil, or_false] at ho
    rcases ho with rfl | rfl <;> rfl

/-- MAIN's turn keeps the invariant, whatever it has to do. -/
theorem TurnCase.keeps {s t : State} (h : LiveInv s) (ht : TurnCase s t) : Inv t := by
  cases ht with
  | idle hm hp ht => subst ht; exact h.inv
  | resumed hm ht => subst ht; exact (drive_keeps _ h).inv
  | instr i w items hm hp hw ht => exact exec_keeps (h.withProgram items) hm ht
  | reserved w items hm hp hw ht => exact execReserved_keeps (h.withProgram items) ht
  | putchar c items hm hp ht => subst ht; exact (callPutchar_keeps (h.withProgram items) hm c).inv
  | init d items hm hp ht => subst ht; exact (callInit_keeps (h.withProgram items) hm d).inv
  | rx items hm hp ht => subst ht; exact (h.withProgram _).inv

/-! ### The step -/

/-- Settles O52: nothing changes after the boot jump, and before it every agent's step and every turn of MAIN keeps the
invariant. -/
theorem stepKeepsInvariant : Obligations.StepKeepsInvariant := by
  unfold Obligations.StepKeepsInvariant
  intro s t h hst
  cases (step_cases hst).2 with
  | ended hb ht => subst ht; exact h
  | agent a slots hb hs ht => subst ht; exact agentStep_keeps ((LiveInv.mk h hb).withSched slots).inv a
  | turn slots hb hs ht => exact ht.keeps ((LiveInv.mk h hb).withSched slots)

end Sys2Proof.Machine
end

