-- ==== Sys2Proof/Proofs/StepFrame.lean ====
section
/-! What no step changes: the parameters, the application handler, a recorded fault (spec/10_state.md R51, R54), and every
byte of the flash outside the target block of a pending flush (spec/44_dfu_controller.md R232, R236, R237). All of it
follows from one fact: a step runs a `DFU_GETSTATUS`, or leaves alone what a handler does. -/

namespace Sys2Proof.Machine

/-! ### The steps that are no `DFU_GETSTATUS` -/

theorem HandlerFrame.withSched (s : State) (slots : List Slot) : HandlerFrame s { s with sched := slots } :=
  ⟨rfl, rfl, rfl, rfl, rfl, fun _ h => h⟩

/-- Every step runs a `DFU_GETSTATUS`, or leaves alone what a handler does. -/
theorem step_frame {s t : State} (h : step s = .next t) :
    (∃ r items slots, exec (.dfuGetstatus r) { s with program := items, sched := slots } = .next t) ∨
      HandlerFrame s t := by
  cases (step_cases h).2 with
  | ended hb ht => subst ht; exact .inr (.refl _)
  | agent a slots hb hs ht => subst ht; exact .inr ((HandlerFrame.withSched s slots).trans (agentStep_frame a _))
  | turn slots hb hs ht =>
    rcases ht.frame with ⟨r, items, -, hg⟩ | hf
    · exact .inl ⟨r, items, slots, hg⟩
    · exact .inr ((HandlerFrame.withSched s slots).trans hf)

/-! ### `DFU_GETSTATUS` -/

/-- A `DFU_GETSTATUS` changes no parameter and no application handler, and removes no recorded fault. -/
theorem GetstatusCase.params_rxHandler_faults {s t : State} (h : GetstatusCase s t) :
    t.params = s.params ∧ t.rxHandler = s.rxHandler ∧ ∀ f ∈ s.faults, f ∈ t.faults := by
  obtain ⟨hp, hf, -, -, -, hx⟩ := getstatusTransition_frame s
  cases h with
  | ended hb ht => subst ht; exact ⟨rfl, rfl, fun _ h => h⟩
  | jump hb hw ht => subst ht; exact ⟨hp, hx, fun f h => (hf ▸ h : f ∈ (getstatusTransition s).faults)⟩
  | report hb hw ht =>
    subst ht
    have hr := runHandler_frame (sendOps (statusBytes (getstatusTransition s).params (getstatusTransition s).dfu))
      (getstatusTransition s)
    exact ⟨hr.params.trans hp, hr.rxHandler.trans hx, fun f h => hr.faults f (hf ▸ h)⟩

/-- After the transition of a `DFU_GETSTATUS` its boot jump or its response leaves the flash alone. -/
theorem GetstatusCase.flash {s t : State} (h : GetstatusCase s t) :
    t.flash = s.flash ∨ t.flash = (getstatusTransition s).flash := by
  cases h with
  | ended hb ht => subst ht; exact .inl rfl
  | jump hb hw ht => subst ht; exact .inr rfl
  | report hb hw ht => subst ht; exact .inr (runHandler_frame _ _).flash

/-- The transition of a `DFU_GETSTATUS` changes a byte of the flash only where a flush is pending, and only in its target
block. -/
theorem getstatusTransition_readByte {s : State} (hb : s.dfu.blk.length = s.params.blockWords) {a : Nat}
    (h : Memory.readByte a (getstatusTransition s).flash ≠ Memory.readByte a s.flash) :
    s.dfu.flushPending = true ∧ s.dfu.targetAddr.toNat ≤ a ∧ a < s.dfu.targetAddr.toNat + s.params.blockBytes := by
  cases hp : s.dfu.flushPending with
  | false => rw [getstatusTransition_quiet hp] at h; exact absurd rfl h
  | true =>
    rw [getstatusTransition_flush hp] at h
    refine ⟨rfl, ?_⟩
    by_contra hout
    rw [not_and_or, Nat.not_le, Nat.not_lt] at hout
    exact h (blockFlush_readByte (s := s.setDfu { s.dfu with bState := getstatusNext true s.dfu.bState }) hb hout)

/-! ### The statements -/

/-- Settles O53, from what a handler and a `DFU_GETSTATUS` leave alone. -/
theorem faultsStay : Obligations.FaultsStay := by
  unfold Obligations.FaultsStay
  intro s t hst
  rcases step_frame hst with ⟨r, items, slots, hg⟩ | hf
  · exact (execDfuGetstatus_cases hg).params_rxHandler_faults
  · exact ⟨hf.params, hf.rxHandler, hf.faults⟩

/-- Settles O54: only the flush of a `DFU_GETSTATUS` writes the flash. -/
theorem flashChangesOnlyByFlush : Obligations.FlashChangesOnlyByFlush := by
  unfold Obligations.FlashChangesOnlyByFlush
  intro s t a h hst hne
  rcases step_frame hst with ⟨r, items, slots, hg⟩ | hf
  · rcases (execDfuGetstatus_cases hg).flash with hfl | hfl
    · exact absurd (by rw [hfl]) hne
    · exact getstatusTransition_readByte (s := { s with program := items, sched := slots }) h.block.dfu.block
        (by rw [← hfl]; exact hne)
  · exact absurd (by rw [hf.flash]) hne

end Sys2Proof.Machine
end

