-- ==== Sys2Proof/Proofs/ResetInvariant.lean ====
section
/-! The invariant after a power-on reset (spec/10_state.md R52, R55, spec/70_reset_and_hazards.md R301). -/

namespace Sys2Proof.Machine

theorem State.ep_powerOn (p : Params) (flash : List Host.Cell) (e : EpNum) :
    (State.powerOn p flash).ep e = Endpoint.reset := by
  simp [State.ep, State.powerOn]

theorem State.stallBit_powerOn (p : Params) (flash : List Host.Cell) (e : EpNum) :
    (State.powerOn p flash).pcb.stallBit e = false := by
  simp [State.powerOn, Pcb.stallBit]

/-- The DFU record after a power-on reset: an empty block buffer at the flash base, nothing pending, no error. -/
theorem DfuInv.powerOn {p : Params} (hp : p.Legal) (flash : List Host.Cell) : DfuInv p (State.powerOn p flash).dfu := by
  obtain ⟨-, -, -, hwords, -, hstate, -⟩ := hp
  exact
    { cursor := hwords
      pending := nofun
      target := ⟨0, rfl⟩
      iString := rfl
      pollTimeout := rfl
      status := fun h => absurd rfl h
      boot := ⟨fun h => absurd h hstate, nofun⟩
      block := List.length_replicate }

theorem Inv.powerOn {p : Params} {flash : List Host.Cell} (hp : p.Legal) (hf : Memory.wf flash) :
    Inv (State.powerOn p flash) where
  block :=
    { legal := hp
      endpoints := fun e => by rw [State.ep_powerOn]; exact .reset _ e
      absent := fun e _ => State.ep_powerOn p flash e
      stalls := fun e => by rw [State.stallBit_powerOn, State.ep_powerOn]; rfl
      dfu := .powerOn hp flash
      flash := hf
      faults := List.nodup_nil }
  main := .nothing _ rfl rfl

/-- Settles O51: the reset state is the power-on state of the default parameters over an empty flash. -/
theorem resetInvariant : Obligations.ResetInvariant := by
  unfold Obligations.ResetInvariant
  exact ⟨fun p flash hp hf => .powerOn hp hf, .powerOn (by decide) Memory.wf_nil⟩

end Sys2Proof.Machine
end

