-- ==== Sys2Proof/Proofs/AgentFrames.lean ====
section
/-! What a step of another agent leaves alone (spec/20_memory.md R74, spec/60_exceptions.md R282): MAIN's own state in every
case (`agentStep_mainOwned`), and, where the step is neither an interrupt's drain nor a bus reset, all but the wire-side
fields and the stall bit of endpoint 0. -/

namespace Sys2Proof.Machine

/-! ### The fields of an endpoint that the wire does not write -/

/-- `y` differs from `x` at most in its wire-side fields: the packets, their ready flags, the toggle, the underrun and the
stall of the hardware endpoint. -/
structure Endpoint.SameButWireSide (x y : Endpoint) : Prop where
  q : y.q = x.q
  cfgValid : y.cfgValid = x.cfgValid
  xtype : y.xtype = x.xtype
  dir : y.dir = x.dir
  mps : y.mps = x.mps
  hwEn : y.hwEn = x.hwEn

theorem Endpoint.SameButWireSide.refl (x : Endpoint) : x.SameButWireSide x := ⟨rfl, rfl, rfl, rfl, rfl, rfl⟩

/-- `t` differs from `s` in the endpoints and the PCB at most in wire-side fields and the stall bit of endpoint 0. -/
structure SameButWireSide (s t : State) : Prop where
  ep : ∀ e : EpNum, (s.ep e).SameButWireSide (t.ep e)
  flags : t.pcb.flags = s.pcb.flags
  pending : t.pcb.pending = s.pcb.pending
  stall : ∀ e : EpNum, e ≠ 0 → t.pcb.stallBit e = s.pcb.stallBit e

/-- A step that changes no endpoint and no PCB bit. -/
theorem SameButWireSide.of_eq {s t : State} (he : t.eps = s.eps) (hp : t.pcb = s.pcb) : SameButWireSide s t where
  ep e := by rw [State.ep_congr he]; exact .refl _
  flags := by rw [hp]
  pending := by rw [hp]
  stall _ _ := by rw [hp]

theorem SameButWireSide.emit {s t : State} (h : SameButWireSide s t) (ev : Event) : SameButWireSide s (t.emit ev) :=
  ⟨h.ep, h.flags, h.pending, h.stall⟩

/-- A wire-side change of one endpoint. -/
theorem SameButWireSide.setEp {s t : State} (h : SameButWireSide s t) {e : EpNum} {x : Endpoint}
    (hx : (s.ep e).SameButWireSide x) : SameButWireSide s (t.setEp e x) where
  ep e' := by
    rw [State.ep_setEp]; split
    · next he => rw [he]; exact hx
    · exact h.ep e'
  flags := h.flags
  pending := h.pending
  stall := h.stall

/-- A setup packet clears the stall bit of endpoint 0 (spec/41_wire_side.md R165). -/
theorem SameButWireSide.clrStall {s t : State} (h : SameButWireSide s t) :
    SameButWireSide s (t.setPcb (t.pcb.clrStall 0)) where
  ep := h.ep
  flags := h.flags
  pending := h.pending
  stall e he := by rw [State.setPcb_pcb, Pcb.clrStall_stallBit]; simp [he, h.stall e he]

/-! ### The steps -/

theorem agentEffect_sameButWireSide {a : AgentStep} (hirq : ∀ e, a ≠ .irqDrain e) (hrst : a ≠ .resetBus) (s : State) :
    SameButWireSide s (agentEffect a s) := by
  have h : SameButWireSide s s := .of_eq rfl rfl
  cases a with
  | irqDrain e => exact absurd rfl (hirq e)
  | wireRx e bytes => exact h.setEp ⟨rfl, rfl, rfl, rfl, rfl, rfl⟩
  | wireTake e => exact (h.emit _).setEp ⟨rfl, rfl, rfl, rfl, rfl, rfl⟩
  | wirePollIn e => exact h.setEp ⟨rfl, rfl, rfl, rfl, rfl, rfl⟩
  | wireSeeStall e => exact h.emit _
  | wireSetup bytes => exact SameButWireSide.clrStall (t := s.setEp 0 _) (h.setEp ⟨rfl, rfl, rfl, rfl, rfl, rfl⟩)
  | resetBus => exact absurd rfl hrst
  | halt => exact .of_eq rfl rfl

theorem agentStep_sameButWireSide {a : AgentStep} (hirq : ∀ e, a ≠ .irqDrain e) (hrst : a ≠ .resetBus) (s : State) :
    SameButWireSide s (agentStep a s) := by
  unfold agentStep; split
  · exact agentEffect_sameButWireSide hirq hrst s
  · exact .of_eq rfl rfl

/-! ### The statement -/

/-- Settles O30, from what every agent and what the wire leave alone. -/
theorem agentFrames : Obligations.AgentFrames := by
  unfold Obligations.AgentFrames
  intro a s
  have o := agentStep_mainOwned a s
  refine ⟨o.params, o.dfu, o.lineCoding, fun x => by rw [o.flash], o.faults, o.main, o.rdata, fun hirq hrst e => ?_⟩
  have w := agentStep_sameButWireSide hirq hrst s
  have x := w.ep e
  exact ⟨x.q, x.cfgValid, x.xtype, x.dir, x.mps, x.hwEn, w.flags, w.pending, w.stall e⟩

end Sys2Proof.Machine
end

