-- ==== Sys2Proof/Proofs/HandlerGaps.lean ====
section
/-! The gaps of a handler in progress (spec/20_memory.md R69, R73): one equation of `drive` per thing that can happen at a
gap. -/

namespace Sys2Proof.Machine

/-- MAIN's scheduled turn while it is held is used up, and nothing happens. -/
theorem drive_turn_held {s : State} {slots : List Slot} (hm : s.main ≠ []) (hh : s.halted = false)
    (hs : s.sched = .main :: slots) (h : mainStep { s with sched := slots } = none) (k : Nat) :
    drive (k + 1) s = drive k { s with sched := slots } := by
  rw [drive, if_neg (by simp [hm, hh]), hs]
  simp only [h, Option.getD_none]

/-- Where nobody is scheduled MAIN issues its next part. -/
theorem drive_unscheduled {s t : State} (hm : s.main ≠ []) (hh : s.halted = false) (hs : s.sched = [])
    (h : mainStep s = some t) (k : Nat) : drive (k + 1) s = drive k t := by
  rw [Nat.add_comm]
  exact drive_of_runs (.step hm hs hh h (.refl t)) k

/-- Settles O8, by who is scheduled at the gap and whether MAIN is held. -/
theorem handlerGaps : Obligations.HandlerGaps := by
  unfold Obligations.HandlerGaps
  intro s fuel hm hh
  exact ⟨fun _ _ hs => drive_agent hm hh hs fuel, fun _ _ hs h => drive_turn hm hh hs h fuel,
    fun _ hs h => drive_turn_held hm hh hs h fuel, fun _ hs h => drive_unscheduled hm hh hs h fuel,
    fun hs h => drive_held hs h (fuel + 1)⟩

end Sys2Proof.Machine
end

