-- ==== Sys2Proof/Proofs/CommandRows.lean ====
section
/-! The command rows (spec/30_encoding.md R91 to R94). The decoder's chain of tests is a search through a table of rows; the
rows are disjoint because each mask keeps the whole operation code and no two rows have the same one, so the order of the
search does not matter. -/

namespace Sys2Proof

/-! ### A search where at most one entry can be found -/

/-- Where no two entries pass the test, the search finds the one that passes. -/
theorem find?_eq_some_of_pairwise {α : Type} {l : List α} {q : α → Bool} {a : α}
    (h : l.Pairwise fun x y => ¬(q x = true ∧ q y = true)) (ha : a ∈ l) (hq : q a = true) : l.find? q = some a := by
  obtain ⟨before, after, rfl⟩ := List.append_of_mem ha
  have hbefore (x : α) (hx : x ∈ before) : (!q x) = true := by
    have := (List.pairwise_append.mp h).2.2 x hx a List.mem_cons_self
    simpa [hq] using this
  exact List.find?_eq_some_iff_append.mpr ⟨hq, before, after, rfl, hbefore⟩

/-- The search reads its table from the front. -/
theorem map_find?_cons {α β : Type} (q : α → Bool) (f : α → β) (a : α) (l : List α) :
    ((a :: l).find? q).map f = if q a = true then some (f a) else (l.find? q).map f := by
  cases hq : q a <;> simp [hq]

theorem getD_map_find?_cons {α β : Type} (q : α → Bool) (f : α → β) (b : β) (a : α) (l : List α) :
    (((a :: l).find? q).map f).getD b = if q a = true then f a else ((l.find? q).map f).getD b := by
  rw [map_find?_cons]
  split <;> rfl

/-! ### The table -/

/-- Each row of R93 with the instruction a word that selects it names, in the order the decoder tries them
(`decodeCmd32_eq_find?`). -/
def cmdTable : List (CmdRow × (Word → Instr)) :=
  [(rowPcbInit, fun _ => .pcbInit),
   (rowConfigure, fun w => .configure (epField w) (XferType.ofBits (w.extractLsb' 22 2)) (Dir.ofBits (w.extractLsb' 21 1))
      (w.extractLsb' 0 11)),
   (rowWrite, fun w => .write (epField w) (w.extractLsb' 0 8)),
   (rowRead, fun w => .read (epField w)),
   (rowFlush, fun w => .flush (epField w)),
   (rowDrain, fun w => .drain (epField w)),
   (rowSetStall, fun w => .setStall (epField w)),
   (rowClearStall, fun w => .clearStall (epField w)),
   (rowZlpAck, fun _ => .zlpAck),
   (rowFlagSet, fun w => .flagSet (w.extractLsb' 0 3)),
   (rowFlagClr, fun w => .flagClr (w.extractLsb' 0 3)),
   (rowPendClr, fun w => .pendClr (epField w))]

theorem cmdTable_rows : cmdTable.map Prod.fst = cmdRows := rfl

theorem decodeCmd32_eq_find? (w : Word) :
    decodeCmd32 w = (cmdTable.find? (·.1.selects w)).map (·.2 w) := by
  simp only [decodeCmd32, cmdTable, map_find?_cons, List.find?_nil, Option.map_none]

/-! ### The rows are disjoint -/

theorem CmdRow.mask_op_of_mem {r : CmdRow} (h : r ∈ cmdRows) : r.mask.extractLsb' 28 4 = 0xF := by
  revert r; decide

theorem cmdRows_op_distinct : cmdRows.Pairwise fun r r' => r.mtch.extractLsb' 28 4 ≠ r'.mtch.extractLsb' 28 4 := by
  decide

theorem cmdRows_disjoint (w : Word) : cmdRows.Pairwise fun r r' => ¬(r.selects w = true ∧ r'.selects w = true) := by
  refine cmdRows_op_distinct.imp_of_mem fun {r r'} hr hr' hop => ?_
  rintro ⟨h, h'⟩
  exact hop ((op_of_and (CmdRow.mask_op_of_mem hr) ((r.selects_iff w).mp h)).symm.trans
    (op_of_and (CmdRow.mask_op_of_mem hr') ((r'.selects_iff w).mp h')))

/-- The decoder reads the row the word selects, and nothing else. -/
theorem decodeCmd32_eq_some_iff {w : Word} {i : Instr} :
    decodeCmd32 w = some i ↔ ∃ p ∈ cmdTable, p.1.selects w = true ∧ p.2 w = i := by
  rw [decodeCmd32_eq_find?, Option.map_eq_some_iff]
  constructor
  · rintro ⟨p, hp, hi⟩
    exact ⟨p, List.mem_of_find?_eq_some hp, by simpa using List.find?_some hp, hi⟩
  · rintro ⟨p, hp, hs, hi⟩
    have hdisjoint := cmdRows_disjoint w
    rw [← cmdTable_rows, List.pairwise_map] at hdisjoint
    exact ⟨p, find?_eq_some_of_pairwise hdisjoint hp hs, hi⟩

/-- A word that selects no row names no operation (R94). -/
theorem decodeCmd32_eq_none {w : Word} (h : ∀ r ∈ cmdRows, r.selects w = false) : decodeCmd32 w = none := by
  rw [Option.eq_none_iff_forall_ne_some]
  intro i hi
  obtain ⟨p, hp, hs, -⟩ := decodeCmd32_eq_some_iff.mp hi
  have := h p.1 (cmdTable_rows ▸ List.mem_map_of_mem hp)
  simp [this] at hs

theorem decode_of_and_mask (c : RequestCodes) (w : Word) :
    ∀ p ∈ cmdTable, w &&& p.1.mask = p.1.mtch → decode c (.cmd32 w) = some (p.2 w) :=
  fun p hp h => decodeCmd32_eq_some_iff.mpr ⟨p, hp, (p.1.selects_iff w).mpr h, rfl⟩

/-- Settles O2: each row is an entry of the decoder's table, and the rows are disjoint. -/
theorem commandRows : Obligations.CommandRows := by
  unfold Obligations.CommandRows
  refine ⟨fun c w => ?_, fun w => ?_, fun c w h => ?_⟩
  · have hrows := decode_of_and_mask c w
    simp only [cmdTable, List.forall_mem_cons] at hrows
    obtain ⟨pcbInit, configure, write, read, flush, drain, setStall, clearStall, zlpAck, flagSet, flagClr, pendClr, -⟩ :=
      hrows
    exact ⟨pcbInit, configure, write, read, flush, drain, setStall, clearStall, zlpAck, flagSet, flagClr, pendClr⟩
  · simpa only [CmdRow.selects_iff] using cmdRows_disjoint w
  · exact decodeCmd32_eq_none fun r hr => by simpa [CmdRow.selects] using h r hr

end Sys2Proof
end

