-- ==== Sys2Proof/Proofs/RequestRows.lean ====
section
/-! The request rows (spec/30_encoding.md R99, R103, R106). Each driver searches a table of pairs of `bRequest` and
`bmRequestType`, and its last row takes every pair that the table does not list. -/

namespace Sys2Proof

/-! ### The tables -/

/-- The requests a driver lists, each with the pair that selects it, in the order the decoder tries them
(`decodeSetup8_eq_find?`). -/
def requestTable (c : RequestCodes) : Driver → List ((Byte × Byte) × (ReqArgs → Instr))
  | .dfu =>
    [((c.dnload, Config.hostToDevice), .dfuDnload), ((c.getstatus, Config.deviceToHost), .dfuGetstatus),
     ((c.getstate, Config.deviceToHost), .dfuGetstate), ((c.clrstatus, Config.hostToDevice), .dfuClrstatus),
     ((c.abort, Config.hostToDevice), .dfuAbort), ((c.upload, Config.deviceToHost), .dfuUpload),
     ((c.detach, Config.hostToDevice), .dfuDetach)]
  | .cdc =>
    [((c.getLineCoding, Config.deviceToHost), .cdcGetLineCoding),
     ((c.setLineCoding, Config.hostToDevice), .cdcSetLineCoding),
     ((c.setControlLineState, Config.hostToDevice), .cdcSetControlLineState)]

/-- A driver's last row. -/
def rejectRow : Driver → Byte → Byte → ReqArgs → Instr
  | .dfu => .dfuReject
  | .cdc => .cdcReject

/-- The pairs a driver lists. -/
def listedPairs (c : RequestCodes) : Driver → List (Byte × Byte)
  | .dfu => dfuListed c
  | .cdc => cdcListed c

/-- The decoder tries a driver's requests in another order than the table of the spec lists them. -/
theorem requestTable_perm_listed (c : RequestCodes) (d : Driver) :
    ((requestTable c d).map Prod.fst).Perm (listedPairs c d) := by
  cases d
  · have h : [1, 3, 5, 4, 6, 2, 0].Perm (List.finRange 7) := by decide
    exact h.map (dfuListed c).get
  · have h : [1, 0, 2].Perm (List.finRange 3) := by decide
    exact h.map (cdcListed c).get

theorem mem_listedPairs_iff {c : RequestCodes} {d : Driver} {k : Byte × Byte} :
    k ∈ listedPairs c d ↔ ∃ p ∈ requestTable c d, p.1 = k := by
  rw [← (requestTable_perm_listed c d).mem_iff, List.mem_map]

theorem RequestCodes.Distinct.listedPairs_nodup {c : RequestCodes} (h : c.Distinct) (d : Driver) :
    (listedPairs c d).Nodup := by
  cases d
  · exact h.1
  · exact h.2

/-! ### Selection -/

theorem decodeSetup8_eq_find? (c : RequestCodes) (d : Driver) (s : BitVec 64) :
    decodeSetup8 c d s =
      (((requestTable c d).find? (fun p => (brField s, bmField s) == p.1)).map (·.2 (argFields s))).getD
        (rejectRow d (bmField s) (brField s) (argFields s)) := by
  cases d <;>
    simp only [decodeSetup8, decodeDfu, decodeCdc, requestTable, rejectRow, getD_map_find?_cons, List.find?_nil,
      Option.map_none, Option.getD_none, beq_iff_eq, Prod.mk.injEq]

/-- Where the driver's pairs are apart, a listed pair selects its request. -/
theorem decodeSetup8_of_mem {c : RequestCodes} (hc : c.Distinct) {d : Driver} {p : (Byte × Byte) × (ReqArgs → Instr)}
    (hp : p ∈ requestTable c d) {s : BitVec 64} (h : (brField s, bmField s) = p.1) :
    decodeSetup8 c d s = p.2 (argFields s) := by
  have hnodup := (requestTable_perm_listed c d).nodup_iff.mpr (hc.listedPairs_nodup d)
  have hunique : (requestTable c d).Pairwise fun x y =>
      ¬(((brField s, bmField s) == x.1) = true ∧ ((brField s, bmField s) == y.1) = true) := by
    refine (List.pairwise_map.mp hnodup).imp fun {x y} hne => ?_
    rintro ⟨hx, hy⟩
    exact hne ((beq_iff_eq.mp hx).symm.trans (beq_iff_eq.mp hy))
  rw [decodeSetup8_eq_find?, find?_eq_some_of_pairwise hunique hp (beq_iff_eq.mpr h)]
  rfl

/-- A pair the driver does not list falls to its last row. -/
theorem decodeSetup8_of_not_listed {c : RequestCodes} {d : Driver} {s : BitVec 64}
    (h : (brField s, bmField s) ∉ listedPairs c d) :
    decodeSetup8 c d s = rejectRow d (bmField s) (brField s) (argFields s) := by
  cases d
  · exact decodeDfu_of_not_listed h (argFields s)
  · exact decodeCdc_of_not_listed h (argFields s)

/-- Whatever the codes, a request is one the driver lists, selected by its pair, or the last row. -/
theorem decodeSetup8_cases (c : RequestCodes) (d : Driver) (s : BitVec 64) :
    (∃ p ∈ requestTable c d, (brField s, bmField s) = p.1 ∧ decodeSetup8 c d s = p.2 (argFields s)) ∨
    ((brField s, bmField s) ∉ listedPairs c d ∧
      decodeSetup8 c d s = rejectRow d (bmField s) (brField s) (argFields s)) := by
  by_cases hl : (brField s, bmField s) ∈ listedPairs c d
  · obtain ⟨p, hp, hk⟩ := mem_listedPairs_iff.mp hl
    have hfound : ((requestTable c d).find? fun p => (brField s, bmField s) == p.1).isSome :=
      List.find?_isSome.mpr ⟨p, hp, beq_iff_eq.mpr hk.symm⟩
    obtain ⟨p', hp'⟩ := Option.isSome_iff_exists.mp hfound
    refine .inl ⟨p', List.mem_of_find?_eq_some hp', by simpa using List.find?_some hp', ?_⟩
    rw [decodeSetup8_eq_find?, hp']
    rfl
  · exact .inr ⟨hl, decodeSetup8_of_not_listed hl⟩

/-! ### The default codes -/

theorem RequestCodes.default_distinct : RequestCodes.default.Distinct := by decide

/-- A listed request is selected by the low half of the packet, as spec/opcode_table.json matches it. -/
theorem decode_default_of_low (d : Driver) (s : BitVec 64) : ∀ p ∈ requestTable .default d,
    s.extractLsb' 0 16 = p.1.1 ++ p.1.2 → decode .default (.setup8 d s) = some (p.2 (argFields s)) := by
  intro p hp h
  obtain ⟨hbr, hbm⟩ := (setup_low_eq_iff s p.1.2 p.1.1).mp h
  exact congrArg some (decodeSetup8_of_mem RequestCodes.default_distinct hp (Prod.ext hbr hbm))

theorem decode_default_of_low_ne (d : Driver) (s : BitVec 64)
    (h : ∀ p ∈ requestTable .default d, s.extractLsb' 0 16 ≠ p.1.1 ++ p.1.2) :
    decode .default (.setup8 d s) = some (rejectRow d (s.extractLsb' 0 8) (s.extractLsb' 8 8) (argFields s)) := by
  refine congrArg some (decodeSetup8_of_not_listed fun hl => ?_)
  obtain ⟨p, hp, hk⟩ := mem_listedPairs_iff.mp hl
  exact h p hp ((setup_low_eq_iff s p.1.2 p.1.1).mpr ⟨congrArg Prod.fst hk.symm, congrArg Prod.snd hk.symm⟩)

/-- Settles O6: each listed request by its low half, the last row where no low half fits. -/
theorem requestRows : Obligations.RequestRows := by
  unfold Obligations.RequestRows
  intro s
  constructor
  · have hrows := decode_default_of_low .dfu s
    simp only [requestTable, List.forall_mem_cons] at hrows
    obtain ⟨dnload, getstatus, getstate, clrstatus, abort, upload, detach, -⟩ := hrows
    split_ifs with h0 h1 h2 h3 h4 h5 h6
    · exact detach h0
    · exact dnload h1
    · exact upload h2
    · exact getstatus h3
    · exact clrstatus h4
    · exact getstate h5
    · exact abort h6
    · exact decode_default_of_low_ne .dfu s (by
        simp only [requestTable, List.forall_mem_cons]
        exact ⟨h1, h3, h5, h4, h6, h2, h0, fun _ h => nomatch h⟩)
  · have hrows := decode_default_of_low .cdc s
    simp only [requestTable, List.forall_mem_cons] at hrows
    obtain ⟨getLineCoding, setLineCoding, setControlLineState, -⟩ := hrows
    split_ifs with h0 h1 h2
    · exact setLineCoding h0
    · exact getLineCoding h1
    · exact setControlLineState h2
    · exact decode_default_of_low_ne .cdc s (by
        simp only [requestTable, List.forall_mem_cons]
        exact ⟨h1, h0, h2, fun _ h => nomatch h⟩)

end Sys2Proof
end

