-- ==== Sys2Proof/Proofs/Layouts.lean ====
section
/-! How the words are laid out: the argument of a command word, field by field and against the masks of R93, the bytes of a
setup packet (spec/30_encoding.md R96, R98), and the response word (R95). -/

namespace Sys2Proof

/-! ### Fields of a bit vector -/

/-- A field of a field. -/
theorem extractLsb'_extractLsb' {w start len start' len' : Nat} (x : BitVec w) (h : start' + len' ≤ len) :
    (x.extractLsb' start len).extractLsb' start' len' = x.extractLsb' (start + start') len' := by
  apply BitVec.eq_of_getLsbD_eq
  intro i hi
  have hlen : start' + i < len := by omega
  simp [BitVec.getLsbD_extractLsb', hlen, Nat.add_assoc]

/-- A field whose high part a mask finds zero is its low part. -/
theorem zero_append_low {n m k : Nat} {x : BitVec n}
    (h : x.extractLsb' 0 (m + k) &&& (BitVec.allOnes m ++ 0#k) = 0) :
    0#m ++ x.extractLsb' 0 k = x.extractLsb' 0 (m + k) := by
  have hhigh : x.extractLsb' k m = 0#m := by
    have hfield := congrArg (BitVec.extractLsb' k m) h
    rwa [BitVec.extractLsb'_and, BitVec.extractLsb'_append_eq_left, BitVec.and_allOnes,
      extractLsb'_extractLsb' x (Nat.add_comm k m).le, Nat.zero_add, BitVec.ofNat_eq_ofNat,
      BitVec.extractLsb'_zero] at hfield
  rw [← hhigh, BitVec.extractLsb'_append_extractLsb'_eq_extractLsb' (Nat.zero_add k).symm]

theorem zero_append_and {m k : Nat} (y : BitVec k) : (0#m ++ y) &&& (BitVec.allOnes m ++ 0#k) = 0 := by
  simp [BitVec.and_append]

/-! ### The arguments -/

theorem writeArg_byte (b : Byte) : (0#16 ++ b : BitVec 24).extractLsb' 0 8 = b :=
  BitVec.extractLsb'_append_eq_right

theorem flagArg_mask (m : BitVec 3) : (0#21 ++ m : BitVec 24).extractLsb' 0 3 = m :=
  BitVec.extractLsb'_append_eq_right

theorem configureArg_type (ty : XferType) (dir : Dir) (mps : BitVec 11) :
    (configureArg ty dir mps).extractLsb' 22 2 = ty.toBits := by
  rw [configureArg, BitVec.extractLsb'_append_eq_of_le (by decide), BitVec.extractLsb'_append_eq_of_le (by decide)]
  exact BitVec.extractLsb'_append_eq_left

theorem configureArg_dir (ty : XferType) (dir : Dir) (mps : BitVec 11) :
    (configureArg ty dir mps).extractLsb' 21 1 = dir.toBits := by
  rw [configureArg, BitVec.extractLsb'_append_eq_of_le (by decide), BitVec.extractLsb'_append_eq_of_le (by decide)]
  exact BitVec.extractLsb'_append_eq_right

theorem configureArg_mps (ty : XferType) (dir : Dir) (mps : BitVec 11) :
    (configureArg ty dir mps).extractLsb' 0 11 = mps := BitVec.extractLsb'_append_eq_right

/-- The must-be-zero bits of `CONFIGURE` are zero. -/
theorem configureArg_and (ty : XferType) (dir : Dir) (mps : BitVec 11) :
    configureArg ty dir mps &&& rowConfigure.mask.extractLsb' 0 24 = 0 := by
  have hmask : rowConfigure.mask.extractLsb' 0 24 = 0#2 ++ 0#1 ++ BitVec.allOnes 10 ++ 0#11 := by decide
  rw [hmask, configureArg, BitVec.and_append, BitVec.and_append, BitVec.and_append]
  simp

/-- An argument whose must-be-zero bits are zero is put together from its three fields. -/
theorem configureArg_fields {x : BitVec 24} (h : x &&& rowConfigure.mask.extractLsb' 0 24 = 0) :
    configureArg (XferType.ofBits (x.extractLsb' 22 2)) (Dir.ofBits (x.extractLsb' 21 1)) (x.extractLsb' 0 11) = x := by
  have hzero : x.extractLsb' 11 10 = 0 := by
    have hfield := congrArg (BitVec.extractLsb' 11 10) h
    rw [BitVec.extractLsb'_and] at hfield
    exact BitVec.and_allOnes.symm.trans hfield
  have htop : x.extractLsb' 22 2 ++ x.extractLsb' 21 1 = x.extractLsb' 21 3 :=
    BitVec.extractLsb'_append_extractLsb'_eq_extractLsb' rfl
  have hmid : x.extractLsb' 21 3 ++ x.extractLsb' 11 10 = x.extractLsb' 11 13 :=
    BitVec.extractLsb'_append_extractLsb'_eq_extractLsb' rfl
  rw [configureArg, XferType.toBits_ofBits, Dir.toBits_ofBits, ← hzero, htop, hmid]
  exact BitVec.extractLsb'_append_extractLsb'

/-! ### A command word and the mask of its row -/

/-- Every row has only its operation code in the match. -/
theorem CmdRow.mtch_fields_of_mem {r : CmdRow} (hr : r ∈ cmdRows) :
    r.mtch.extractLsb' 24 4 = 0 ∧ r.mtch.extractLsb' 0 24 = 0 := by
  revert r; decide

theorem CmdRow.arg_and_of_selects {r : CmdRow} (hr : r ∈ cmdRows) {w : Word} (h : r.selects w = true) :
    w.extractLsb' 0 24 &&& r.mask.extractLsb' 0 24 = 0 := by
  rw [← BitVec.extractLsb'_and, (r.selects_iff w).mp h, (mtch_fields_of_mem hr).2]

/-- Where the row's mask keeps the whole argument. -/
theorem CmdRow.arg_eq_zero_of_selects {r : CmdRow} (hr : r ∈ cmdRows) {w : Word}
    (hm : r.mask.extractLsb' 0 24 = BitVec.allOnes 24) (h : r.selects w = true) : w.extractLsb' 0 24 = 0 := by
  rw [← arg_and_of_selects hr h, hm, BitVec.and_allOnes]

/-- Where the row's mask keeps the whole `ep` field. -/
theorem CmdRow.epField_eq_zero_of_selects {r : CmdRow} (hr : r ∈ cmdRows) {w : Word}
    (hm : r.mask.extractLsb' 24 4 = BitVec.allOnes 4) (h : r.selects w = true) : epField w = 0 := by
  have hbits : w.extractLsb' 24 4 = 0 := by
    rw [← (mtch_fields_of_mem hr).1, ← (r.selects_iff w).mp h, BitVec.extractLsb'_and, hm, BitVec.and_allOnes]
  rw [epField, hbits]
  rfl

/-! ### The setup packet -/

theorem setupOfBytes_eq_setupWord (b0 b1 b2 b3 b4 b5 b6 b7 : Byte) :
    setupOfBytes [b0, b1, b2, b3, b4, b5, b6, b7] = some (setupWord b0 b1 ⟨b3 ++ b2, b5 ++ b4, b7 ++ b6⟩) := by
  refine congrArg some (BitVec.eq_of_getLsbD_eq fun i hi => ?_)
  simp only [setupWord, BitVec.getLsbD_append]
  interval_cases i <;> rfl

/-- The eight bytes in wire order, by the fields of R98. -/
theorem setupBytes_eq_fields (s : BitVec 64) : setupBytes s =
    [bmField s, brField s, (argFields s).wValue.extractLsb' 0 8, (argFields s).wValue.extractLsb' 8 8,
     (argFields s).wIndex.extractLsb' 0 8, (argFields s).wIndex.extractLsb' 8 8,
     (argFields s).wLength.extractLsb' 0 8, (argFields s).wLength.extractLsb' 8 8] := by
  simp only [setupBytes, bmField, brField, argFields, extractLsb'_extractLsb' _ (show 0 + 8 ≤ 16 by decide),
    extractLsb'_extractLsb' _ (show 8 + 8 ≤ 16 by decide)]

/-- Settles O5: the packet is the word of its fields, and each 16-bit field is its two bytes. -/
theorem setupFields : Obligations.SetupFields := by
  unfold Obligations.SetupFields
  intro b0 b1 b2 b3 b4 b5 b6 b7
  refine ⟨_, setupOfBytes_eq_setupWord b0 b1 b2 b3 b4 b5 b6 b7, ?_, setupWord_bmField .., setupWord_brField ..,
    setupWord_argFields ..⟩
  have hhigh (x y : Byte) : (x ++ y : BitVec 16).extractLsb' 8 8 = x := BitVec.extractLsb'_append_eq_left
  have hlow (x y : Byte) : (x ++ y : BitVec 16).extractLsb' 0 8 = y := BitVec.extractLsb'_append_eq_right
  simp only [setupBytes_eq_fields, setupWord_bmField, setupWord_brField, setupWord_argFields, hhigh, hlow]

/-! ### The response word -/

/-- Settles O9: each field of the response lies where it was appended, and the codes are those of R95. -/
theorem responseLayout : Obligations.ResponseLayout := by
  unfold Obligations.ResponseLayout
  intro c d
  refine ⟨?_, ?_, BitVec.extractLsb'_append_eq_right⟩
  · rw [Machine.respWord, BitVec.extractLsb'_append_eq_of_le (by decide)]
    exact BitVec.extractLsb'_append_eq_left
  · rw [Machine.respWord, BitVec.extractLsb'_append_eq_of_le (by decide)]
    exact BitVec.extractLsb'_append_eq_right

end Sys2Proof
end

