-- ==== Sys2Proof/Proofs/Encoding.lean ====
section
/-! The decoder and the encoder are inverse to each other, row by row of the two tables (spec/30_encoding.md R91 to R99). -/

namespace Sys2Proof

/-! ### Command words -/

/-- The word of a row's operation code, an endpoint number and an argument that pass the row's mask decodes to that row. -/
theorem decode_cmdWord (c : RequestCodes) : ∀ p ∈ cmdTable, ∀ (e : EpNum) (arg : BitVec 24),
    e.toBits &&& p.1.mask.extractLsb' 24 4 = 0 → arg &&& p.1.mask.extractLsb' 0 24 = 0 →
    decode c (.cmd32 (cmdWord (p.1.mtch.extractLsb' 28 4) e arg)) =
      some (p.2 (cmdWord (p.1.mtch.extractLsb' 28 4) e arg)) := by
  intro p hp e arg he ha
  have hr : p.1 ∈ cmdRows := cmdTable_rows ▸ List.mem_map_of_mem hp
  obtain ⟨hze, hza⟩ := CmdRow.mtch_fields_of_mem hr
  exact decodeCmd32_eq_some_iff.mpr ⟨p, hp, p.1.selects_cmdWord _ e arg (CmdRow.mask_op_of_mem hr) rfl
    (he.trans hze.symm) (ha.trans hza.symm), rfl⟩

/-- A selected word is the row's operation code, its endpoint number and its argument, which may be written in another
form. -/
theorem CmdRow.cmdWord_of_selects {r : CmdRow} (hr : r ∈ cmdRows) {w : Word} (h : r.selects w = true) {e : EpNum}
    {arg : BitVec 24} (he : epField w = e) (ha : arg = w.extractLsb' 0 24) :
    cmdWord (r.mtch.extractLsb' 28 4) e arg = w := by
  subst he ha
  exact (eq_cmdWord_of_selects h (mask_op_of_mem hr)).symm

/-- The rows without operands. -/
theorem CmdRow.cmdWord_bare_of_selects {r : CmdRow} (hr : r ∈ cmdRows)
    (hme : r.mask.extractLsb' 24 4 = BitVec.allOnes 4) (hma : r.mask.extractLsb' 0 24 = BitVec.allOnes 24) {w : Word}
    (h : r.selects w = true) : cmdWord (r.mtch.extractLsb' 28 4) 0 0 = w :=
  cmdWord_of_selects hr h (epField_eq_zero_of_selects hr hme h) (arg_eq_zero_of_selects hr hma h).symm

/-- The rows with an endpoint number alone. -/
theorem CmdRow.cmdWord_ep_of_selects {r : CmdRow} (hr : r ∈ cmdRows)
    (hma : r.mask.extractLsb' 0 24 = BitVec.allOnes 24) {w : Word} (h : r.selects w = true) :
    cmdWord (r.mtch.extractLsb' 28 4) (epField w) 0 = w :=
  cmdWord_of_selects hr h rfl (arg_eq_zero_of_selects hr hma h).symm

/-- The rows with a flag mask. -/
theorem CmdRow.cmdWord_flags_of_selects {r : CmdRow} (hr : r ∈ cmdRows)
    (hme : r.mask.extractLsb' 24 4 = BitVec.allOnes 4) (hma : r.mask.extractLsb' 0 24 = BitVec.allOnes 21 ++ 0#3)
    {w : Word} (h : r.selects w = true) : cmdWord (r.mtch.extractLsb' 28 4) 0 (0#21 ++ w.extractLsb' 0 3) = w := by
  have harg := arg_and_of_selects hr h
  rw [hma] at harg
  exact cmdWord_of_selects hr h (epField_eq_zero_of_selects hr hme h) (zero_append_low (m := 21) (k := 3) (x := w) harg)

theorem cmdWord_write_of_selects {w : Word} (h : rowWrite.selects w = true) :
    cmdWord 0x3 (epField w) (0#16 ++ w.extractLsb' 0 8) = w := by
  have hr : rowWrite ∈ cmdRows := by decide
  have harg := CmdRow.arg_and_of_selects hr h
  exact CmdRow.cmdWord_of_selects hr h rfl (zero_append_low (m := 16) (k := 8) (x := w) harg)

theorem cmdWord_configure_of_selects {w : Word} (h : rowConfigure.selects w = true) :
    cmdWord 0x2 (epField w) (configureArg (XferType.ofBits (w.extractLsb' 22 2)) (Dir.ofBits (w.extractLsb' 21 1))
      (w.extractLsb' 0 11)) = w := by
  have hr : rowConfigure ∈ cmdRows := by decide
  have harg := configureArg_fields (CmdRow.arg_and_of_selects hr h)
  rw [extractLsb'_extractLsb' w (by decide), extractLsb'_extractLsb' w (by decide),
    extractLsb'_extractLsb' w (by decide)] at harg
  exact CmdRow.cmdWord_of_selects hr h rfl harg

theorem wellFormed_of_mem_cmdTable (c : RequestCodes) (w : Word) : ∀ p ∈ cmdTable, (p.2 w).WellFormed c = true := by
  simp [cmdTable, Instr.WellFormed]

/-- What the decoder reads from a selected word encodes to that word. -/
theorem encode_of_selects (c : RequestCodes) (w : Word) : ∀ p ∈ cmdTable, p.1.selects w = true →
    encode c (p.2 w) = .cmd32 w := by
  simp only [cmdTable, List.forall_mem_cons]
  refine ⟨fun h => ?_, fun h => ?_, fun h => ?_, fun h => ?_, fun h => ?_, fun h => ?_, fun h => ?_, fun h => ?_,
    fun h => ?_, fun h => ?_, fun h => ?_, fun h => ?_, fun _ h => nomatch h⟩
  · exact congrArg Encoded.cmd32 (rowPcbInit.cmdWord_bare_of_selects (by decide) rfl rfl h)
  · exact congrArg Encoded.cmd32 (cmdWord_configure_of_selects h)
  · exact congrArg Encoded.cmd32 (cmdWord_write_of_selects h)
  · exact congrArg Encoded.cmd32 (rowRead.cmdWord_ep_of_selects (by decide) rfl h)
  · exact congrArg Encoded.cmd32 (rowFlush.cmdWord_ep_of_selects (by decide) rfl h)
  · exact congrArg Encoded.cmd32 (rowDrain.cmdWord_ep_of_selects (by decide) rfl h)
  · exact congrArg Encoded.cmd32 (rowSetStall.cmdWord_ep_of_selects (by decide) rfl h)
  · exact congrArg Encoded.cmd32 (rowClearStall.cmdWord_ep_of_selects (by decide) rfl h)
  · exact congrArg Encoded.cmd32 (rowZlpAck.cmdWord_bare_of_selects (by decide) rfl rfl h)
  · exact congrArg Encoded.cmd32 (rowFlagSet.cmdWord_flags_of_selects (by decide) rfl rfl h)
  · exact congrArg Encoded.cmd32 (rowFlagClr.cmdWord_flags_of_selects (by decide) rfl rfl h)
  · exact congrArg Encoded.cmd32 (rowPendClr.cmdWord_ep_of_selects (by decide) rfl h)

/-! ### Setup packets -/

theorem encode_of_mem_requestTable (c : RequestCodes) (d : Driver) (r : ReqArgs) : ∀ p ∈ requestTable c d,
    encode c (p.2 r) = .setup8 d (setupWord p.1.2 p.1.1 r) ∧ (p.2 r).WellFormed c = true := by
  cases d <;> simp only [requestTable, List.forall_mem_cons]
  · exact ⟨⟨rfl, rfl⟩, ⟨rfl, rfl⟩, ⟨rfl, rfl⟩, ⟨rfl, rfl⟩, ⟨rfl, rfl⟩, ⟨rfl, rfl⟩, ⟨rfl, rfl⟩,
      fun _ h => nomatch h⟩
  · exact ⟨⟨rfl, rfl⟩, ⟨rfl, rfl⟩, ⟨rfl, rfl⟩, fun _ h => nomatch h⟩

theorem encode_rejectRow (c : RequestCodes) (d : Driver) (bm br : Byte) (r : ReqArgs) :
    encode c (rejectRow d bm br r) = .setup8 d (setupWord bm br r) := by
  cases d <;> rfl

theorem wellFormed_rejectRow_iff (c : RequestCodes) (d : Driver) (bm br : Byte) (r : ReqArgs) :
    (rejectRow d bm br r).WellFormed c = true ↔ (br, bm) ∉ listedPairs c d := by
  cases d <;> simp [rejectRow, Instr.WellFormed, listedPairs]

/-- Where the pairs are apart, a listed request's packet decodes to it. -/
theorem decode_encode_request {c : RequestCodes} (hc : c.Distinct) (d : Driver) (r : ReqArgs) :
    ∀ p ∈ requestTable c d, decode c (encode c (p.2 r)) = some (p.2 r) := by
  intro p hp
  have hk : (brField (setupWord p.1.2 p.1.1 r), bmField (setupWord p.1.2 p.1.1 r)) = p.1 := by
    rw [setupWord_brField, setupWord_bmField]
  rw [(encode_of_mem_requestTable c d r p hp).1, decode, decodeSetup8_of_mem hc hp hk, setupWord_argFields]

theorem decode_encode_reject {c : RequestCodes} {d : Driver} {bm br : Byte} {r : ReqArgs}
    (h : (rejectRow d bm br r).WellFormed c = true) :
    decode c (encode c (rejectRow d bm br r)) = some (rejectRow d bm br r) := by
  have hk : (brField (setupWord bm br r), bmField (setupWord bm br r)) ∉ listedPairs c d := by
    rw [setupWord_brField, setupWord_bmField]
    exact (wellFormed_rejectRow_iff c d bm br r).mp h
  rw [encode_rejectRow, decode, decodeSetup8_of_not_listed hk, setupWord_argFields, setupWord_brField,
    setupWord_bmField]

/-! ### Both directions -/

/-- Settles O4: the row the word selected gives the word back, its operand fields and its zero bits. -/
theorem encodeDecode : Obligations.EncodeDecode := by
  unfold Obligations.EncodeDecode
  intro c w i h
  cases w with
  | cmd32 w =>
    obtain ⟨p, hp, hs, rfl⟩ := decodeCmd32_eq_some_iff.mp h
    exact ⟨wellFormed_of_mem_cmdTable c w p hp, encode_of_selects c w p hp hs⟩
  | setup8 d s =>
    obtain rfl : decodeSetup8 c d s = i := Option.some.inj h
    obtain ⟨p, hp, hk, hd⟩ | ⟨hl, hd⟩ := decodeSetup8_cases c d s
    · obtain ⟨he, hw⟩ := encode_of_mem_requestTable c d (argFields s) p hp
      rw [hd, he, ← hk, setupWord_fields]
      exact ⟨hw, rfl⟩
    · rw [hd, encode_rejectRow, setupWord_fields]
      exact ⟨(wellFormed_rejectRow_iff ..).mpr hl, rfl⟩

/-- Settles O3: each row's word decodes to the row, and the operands are the fields of the word. -/
theorem decodeEncode : Obligations.DecodeEncode := by
  unfold Obligations.DecodeEncode
  intro c i hc hw
  have hcmd := decode_cmdWord c
  simp only [cmdTable, List.forall_mem_cons] at hcmd
  obtain ⟨pcbInit, configure, write, read, flush, drain, setStall, clearStall, zlpAck, flagSet, flagClr, pendClr, -⟩ :=
    hcmd
  have hdfu (r : ReqArgs) := decode_encode_request hc .dfu r
  have hcdc (r : ReqArgs) := decode_encode_request hc .cdc r
  simp only [requestTable, List.forall_mem_cons, forall_and] at hdfu hcdc
  obtain ⟨dnload, getstatus, getstate, clrstatus, abort, upload, detach, -⟩ := hdfu
  obtain ⟨getLineCoding, setLineCoding, setControlLineState, -⟩ := hcdc
  cases i with
  | pcbInit => exact pcbInit 0 0 rfl rfl
  | configure e ty dir mps =>
    refine (configure e (configureArg ty dir mps) BitVec.and_zero (configureArg_and ty dir mps)).trans ?_
    simp [cmdWord_argField, configureArg_type, configureArg_dir, configureArg_mps]
  | write e b =>
    refine (write e (0#16 ++ b) BitVec.and_zero (zero_append_and b)).trans ?_
    simp [cmdWord_argField, writeArg_byte]
  | read e => exact (read e 0 BitVec.and_zero rfl).trans (by simp)
  | flush e => exact (flush e 0 BitVec.and_zero rfl).trans (by simp)
  | drain e => exact (drain e 0 BitVec.and_zero rfl).trans (by simp)
  | setStall e => exact (setStall e 0 BitVec.and_zero rfl).trans (by simp)
  | clearStall e => exact (clearStall e 0 BitVec.and_zero rfl).trans (by simp)
  | zlpAck => exact zlpAck 0 0 rfl rfl
  | flagSet m =>
    refine (flagSet 0 (0#21 ++ m) rfl (zero_append_and m)).trans ?_
    simp [cmdWord_argField, flagArg_mask]
  | flagClr m =>
    refine (flagClr 0 (0#21 ++ m) rfl (zero_append_and m)).trans ?_
    simp [cmdWord_argField, flagArg_mask]
  | pendClr e => exact (pendClr e 0 BitVec.and_zero rfl).trans (by simp)
  | dfuDetach r => exact detach r
  | dfuDnload r => exact dnload r
  | dfuUpload r => exact upload r
  | dfuGetstatus r => exact getstatus r
  | dfuClrstatus r => exact clrstatus r
  | dfuGetstate r => exact getstate r
  | dfuAbort r => exact abort r
  | dfuReject bm br r => exact decode_encode_reject (d := .dfu) hw
  | cdcSetLineCoding r => exact setLineCoding r
  | cdcGetLineCoding r => exact getLineCoding r
  | cdcSetControlLineState r => exact setControlLineState r
  | cdcReject bm br r => exact decode_encode_reject (d := .cdc) hw

/-- Settles O1, by running the decoder on each word. -/
theorem decodesSpecWords : Obligations.DecodesSpecWords := by
  unfold Obligations.DecodesSpecWords
  decide

end Sys2Proof
end

