-- ==== Sys2Proof/Proofs/CommandCases.lean ====
section
/-! What a FIFO command can do, once: the checks of spec/40_fifo_core.md R120 as equations, and the cases of every
command (R121 to R132). -/

namespace Sys2Proof.Machine

/-! ### The checks -/

theorem State.hasEp_eq_false_iff {s : State} {e : EpNum} : s.hasEp e = false ↔ s.params.numEps ≤ e.val := by
  simp [State.hasEp]

theorem onEndpoint_eq (e : EpNum) (k : State → State) (s : State) :
    onEndpoint e k s = if s.params.numEps ≤ e.val then s.respond .errEp 0 else k s := by
  split
  · next h => exact onEndpoint_of_not_hasEp k (State.hasEp_eq_false_iff.mpr h)
  · next h => exact onEndpoint_of_hasEp k ((State.hasEp_iff s e).mpr (Nat.lt_of_not_le h))

theorem onConfigured_eq (e : EpNum) (k : State → State) (s : State) :
    onConfigured e k s =
      if s.params.numEps ≤ e.val then s.respond .errEp 0
      else if (s.ep e).cfgValid = false then s.respond .errNocfg 0
      else k s := by
  rw [onConfigured, onEndpoint_eq]
  cases (s.ep e).cfgValid <;> rfl

theorem badConfigure_iff {cap : Nat} {e : EpNum} {ty : XferType} {mps : BitVec 11} :
    badConfigure cap e ty mps = true ↔ mps.toNat = 0 ∨ cap < mps.toNat ∨ (e = 0 ∧ ty ≠ .ctrl) := by
  simp [badConfigure, or_assoc]

theorem Endpoint.maySend_eq_false_iff {x : Endpoint} : x.maySend = false ↔ x.xtype ≠ .ctrl ∧ x.dir = .out := by
  rw [Endpoint.maySend]
  cases x.dir <;> simp

theorem Endpoint.maySend_iff {x : Endpoint} : x.maySend = true ↔ x.xtype = .ctrl ∨ x.dir = .inn := by
  simp [Endpoint.maySend]

theorem Endpoint.mayReceive_eq_false_iff {x : Endpoint} : x.mayReceive = false ↔ x.xtype ≠ .ctrl ∧ x.dir = .inn := by
  rw [Endpoint.mayReceive]
  cases x.dir <;> simp

/-! ### The endpoints that commands leave -/

/-- What a performed `CONFIGURE` leaves of an endpoint (R121). -/
def Endpoint.configured (ty : XferType) (dir : Dir) (mps : BitVec 11) (x : Endpoint) : Endpoint :=
  ({ x with q := [], xtype := ty, dir := dir, mps := mps, cfgValid := true } : Endpoint).configureHw.enableHw

/-- What a performed `FLUSH` leaves of an endpoint (R124): its next packet is marked ready. -/
def Endpoint.flushed (x : Endpoint) : Endpoint :=
  { x with txPkt := x.q.take (min x.len x.mps.toNat), q := x.q.drop (min x.len x.mps.toNat), underrun := false,
           txReady := true }

/-- What a performed `ZLP_ACK` leaves of endpoint 0 (R128). -/
def Endpoint.acked (x : Endpoint) : Endpoint := { x with txPkt := [], underrun := false, txReady := true }

/-! ### The two commands that may be held -/

theorem cmdFlush_eq (e : EpNum) (s : State) :
    cmdFlush e s =
      if s.params.numEps ≤ e.val then some (s.respond .errEp 0)
      else if (s.ep e).cfgValid = false then some (s.respond .errNocfg 0)
      else if (s.ep e).xtype ≠ .ctrl ∧ (s.ep e).dir = .out then some (s.respond .errDir 0)
      else if (s.ep e).txReady = true then none
      else some ((s.setEp e (s.ep e).flushed).respond .ok (countData (min (s.ep e).len (s.ep e).mps.toNat))) := by
  simp only [cmdFlush, Bool.not_eq_true', State.hasEp_eq_false_iff, Endpoint.maySend_eq_false_iff]
  rfl

theorem cmdZlpAck_eq (s : State) :
    cmdZlpAck s =
      if (s.ep 0).cfgValid = false then some (s.respond .errNocfg 0)
      else if (s.ep 0).txReady = true then none
      else some ((s.setEp 0 (s.ep 0).acked).respond .ok 0) := by
  simp only [cmdZlpAck, Bool.not_eq_true']
  rfl

/-! ### Commands as instructions -/

theorem runCommand_running {s : State} (h : s.running) (cmd : State → State) : runCommand cmd s = .next (cmd s) :=
  unlessEnded_running h _

theorem runHeldCommand_running {s : State} (h : s.running) (cmd : State → Option State) (op : MainOp) :
    runHeldCommand cmd op s = .next ((cmd s).getD { s with main := op :: s.main }) :=
  unlessEnded_running h _

theorem runCommand_next {s t : State} {cmd : State → State} (h : runCommand cmd s = .next t) : t = s ∨ t = cmd s := by
  rcases (unlessEnded_next h).2 with ⟨-, rfl⟩ | ⟨-, ht⟩
  · exact .inl rfl
  · cases ht; exact .inr rfl

theorem runHeldCommand_next {s t : State} {cmd : State → Option State} {op : MainOp}
    (h : runHeldCommand cmd op s = .next t) :
    t = s ∨ cmd s = some t ∨ t = { s with main := op :: s.main } := by
  rcases (unlessEnded_next h).2 with ⟨-, rfl⟩ | ⟨-, ht⟩
  · exact .inl rfl
  · cases hc : cmd s with
    | none => rw [hc] at ht; cases ht; exact .inr (.inr rfl)
    | some u => rw [hc] at ht; cases ht; exact .inr (.inl rfl)

/-- The next states of a command: nothing changed after the boot jump, a refusal (R120), a hold (R124, R128), a fault
(R122, R123), or what its rule writes. -/
inductive CommandCase : Instr → State → State → Prop
  | ended {i : Instr} {s : State} : CommandCase i s s
  | refused {i : Instr} {s : State} (c : RespCode) : CommandCase i s (s.respond c 0)
  | held {i : Instr} {s : State} {op : MainOp} (h : i.heldAs = some op) :
      CommandCase i s { s with main := op :: s.main }
  | full {s : State} {e : EpNum} {b : Byte} : CommandCase (.write e b) s (raise (.fifoFull e) s)
  | empty {s : State} {e : EpNum} : CommandCase (.read e) s (raise (.fifoEmpty e) s)
  | initialised {s : State} : CommandCase .pcbInit s (cmdPcbInit s)
  | configured {s : State} {e : EpNum} {ty : XferType} {dir : Dir} {mps : BitVec 11} :
      CommandCase (.configure e ty dir mps) s
        (((s.setEp e ((s.ep e).configured ty dir mps)).setPcb (s.pcb.clrPending e)).respond .ok 0)
  | written {s : State} {e : EpNum} {b : Byte} (hl : (s.ep e).len < s.params.fifoCap) :
      CommandCase (.write e b) s ((s.setEp e { s.ep e with q := (s.ep e).q ++ [b] }).respond .ok 0)
  | taken {s : State} {e : EpNum} {b : Byte} {rest : List Byte} (hq : (s.ep e).q = b :: rest) :
      CommandCase (.read e) s ((s.setEp e { s.ep e with q := rest }).respond .ok (byteData b))
  | flushed {s : State} {e : EpNum} (n : BitVec 16) :
      CommandCase (.flush e) s ((s.setEp e (s.ep e).flushed).respond .ok n)
  | drained {s : State} {e : EpNum} (n : BitVec 16) :
      CommandCase (.drain e) s (((s.setEp e (drained s.params.fifoCap (s.ep e))).setPcb
        (s.pcb.noteDrain e (drainCount s.params.fifoCap (s.ep e)))).respond .ok n)
  | stalled {s : State} {e : EpNum} : CommandCase (.setStall e) s ((s.stall e).respond .ok 0)
  | unstalled {s : State} {e : EpNum} : CommandCase (.clearStall e) s ((s.unstall e).respond .ok 0)
  | acked {s : State} : CommandCase .zlpAck s ((s.setEp 0 (s.ep 0).acked).respond .ok 0)
  | flagsSet {s : State} {mask : BitVec 3} :
      CommandCase (.flagSet mask) s ((s.setPcb (s.pcb.setFlags mask)).respond .ok 0)
  | flagsCleared {s : State} {mask : BitVec 3} :
      CommandCase (.flagClr mask) s ((s.setPcb (s.pcb.clrFlags mask)).respond .ok 0)
  | pendingCleared {s : State} {e : EpNum} :
      CommandCase (.pendClr e) s ((s.setPcb (s.pcb.clrPending e)).respond .ok 0)

theorem CommandCase.onEndpoint {i : Instr} {s : State} {e : EpNum} {k : State → State} (hk : CommandCase i s (k s)) :
    CommandCase i s (onEndpoint e k s) := by
  rw [onEndpoint_eq]
  split
  · exact .refused _
  · exact hk

theorem CommandCase.onConfigured {i : Instr} {s : State} {e : EpNum} {k : State → State} (hk : CommandCase i s (k s)) :
    CommandCase i s (onConfigured e k s) := by
  rw [onConfigured_eq]
  split_ifs
  · exact .refused _
  · exact .refused _
  · exact hk

theorem CommandCase.of_cmdFlush {s t : State} {e : EpNum} (h : cmdFlush e s = some t) : CommandCase (.flush e) s t := by
  rw [cmdFlush_eq] at h
  split_ifs at h <;> cases h
  · exact .refused _
  · exact .refused _
  · exact .refused _
  · exact .flushed _

theorem CommandCase.of_cmdZlpAck {s t : State} (h : cmdZlpAck s = some t) : CommandCase .zlpAck s t := by
  rw [cmdZlpAck_eq] at h
  split_ifs at h <;> cases h
  · exact .refused _
  · exact .acked

/-- A command that is never held answers with one of the cases. -/
theorem CommandCase.of_runCommand {i : Instr} {s t : State} {cmd : State → State} (h : runCommand cmd s = .next t)
    (hc : CommandCase i s (cmd s)) : CommandCase i s t := by
  rcases runCommand_next h with rfl | rfl
  · exact .ended
  · exact hc

/-- So does one that may be held. -/
theorem CommandCase.of_runHeldCommand {i : Instr} {s t : State} {cmd : State → Option State} {op : MainOp}
    (h : runHeldCommand cmd op s = .next t) (hop : i.heldAs = some op)
    (hc : ∀ {u : State}, cmd s = some u → CommandCase i s u) : CommandCase i s t := by
  rcases runHeldCommand_next h with rfl | hu | rfl
  · exact .ended
  · exact hc hu
  · exact .held hop

theorem exec_commandCase {i : Instr} {s t : State} (hi : i.isCommand = true) (h : exec i s = .next t) :
    CommandCase i s t := by
  cases i with
  | pcbInit => exact .of_runCommand h .initialised
  | configure e ty dir mps =>
    refine .of_runCommand h (.onEndpoint ?_)
    split
    · exact .refused _
    · exact .configured
  | write e b =>
    refine .of_runCommand h (.onConfigured ?_)
    split
    · exact .full
    · next hl => exact .written (Nat.lt_of_not_le hl)
  | read e =>
    refine .of_runCommand h (.onConfigured ?_)
    split
    · exact .empty
    · next hq => exact .taken hq
  | flush e => exact .of_runHeldCommand h rfl .of_cmdFlush
  | drain e =>
    refine .of_runCommand h (.onConfigured ?_)
    split
    · exact .refused _
    · exact .drained _
  | setStall e => exact .of_runCommand h (.onEndpoint .stalled)
  | clearStall e => exact .of_runCommand h (.onEndpoint .unstalled)
  | zlpAck => exact .of_runHeldCommand h rfl .of_cmdZlpAck
  | flagSet mask => exact .of_runCommand h .flagsSet
  | flagClr mask => exact .of_runCommand h .flagsCleared
  | pendClr e => exact .of_runCommand h (.onEndpoint .pendingCleared)
  | _ => cases hi

end Sys2Proof.Machine
end

