-- ==== Sys2Proof/Proofs/CommandFrames.lean ====
section
/-! What a FIFO command leaves unchanged (spec/40_fifo_core.md R134, R139), from the cases of every command. -/

namespace Sys2Proof.Machine

/-! ### The frame, update by update -/

theorem SameBut.trans {s t u : State} (h : SameBut s t) (h' : SameBut t u) : SameBut s u :=
  ⟨h'.params.trans h.params, h'.rxHandler.trans h.rxHandler, h'.ep0Masked.trans h.ep0Masked, h'.dfu.trans h.dfu,
    h'.lineCoding.trans h.lineCoding, h'.flash.trans h.flash, h'.events.trans h.events, h'.main.trans h.main,
    h'.rdata.trans h.rdata, h'.handling.trans h.handling, h'.program.trans h.program, h'.sched.trans h.sched,
    h'.flashAnswers.trans h.flashAnswers, h'.halted.trans h.halted⟩

/-- From `s` to `t` nothing has changed but what the rule of command `i` names (R139). -/
structure OnlyWrites (i : Instr) (s t : State) : Prop where
  rest : SameBut s t
  endpoints : ∀ e : EpNum, i.writesEndpoint e = false → t.ep e = s.ep e
  flags : i.writesFlags = false → t.pcb.flags = s.pcb.flags
  pending : ∀ e : EpNum, i.writesPending e = false → t.pcb.pendingBit e = s.pcb.pendingBit e
  stall : ∀ e : EpNum, i.writesStall e = false → t.pcb.stallBit e = s.pcb.stallBit e
  faults : i.canFault = false → t.faults = s.faults ∧ t.draws = s.draws

namespace OnlyWrites

variable {i : Instr} {s t u : State}

theorem refl (i : Instr) (s : State) : OnlyWrites i s s :=
  ⟨.refl s, fun _ _ => rfl, fun _ => rfl, fun _ _ => rfl, fun _ _ => rfl, fun _ => ⟨rfl, rfl⟩⟩

theorem respond (h : OnlyWrites i s t) (c : RespCode) (v : BitVec 16) : OnlyWrites i s (t.respond c v) :=
  ⟨h.rest.trans ⟨rfl, rfl, rfl, rfl, rfl, rfl, rfl, rfl, rfl, rfl, rfl, rfl, rfl, rfl⟩, h.endpoints, h.flags, h.pending,
    h.stall, h.faults⟩

theorem setEp {e : EpNum} {x : Endpoint} (h : OnlyWrites i s t) (he : i.writesEndpoint e = true) :
    OnlyWrites i s (t.setEp e x) where
  rest := h.rest.trans ⟨rfl, rfl, rfl, rfl, rfl, rfl, rfl, rfl, rfl, rfl, rfl, rfl, rfl, rfl⟩
  endpoints e' he' :=
    (State.ep_setEp_of_ne t x fun heq => by rw [heq, he] at he'; cases he').trans (h.endpoints e' he')
  flags := h.flags
  pending := h.pending
  stall := h.stall
  faults := h.faults

theorem setPcb {p : Pcb} (h : OnlyWrites i s t) (hf : i.writesFlags = false → p.flags = t.pcb.flags)
    (hp : ∀ e : EpNum, i.writesPending e = false → p.pendingBit e = t.pcb.pendingBit e)
    (hs : ∀ e : EpNum, i.writesStall e = false → p.stallBit e = t.pcb.stallBit e) : OnlyWrites i s (t.setPcb p) where
  rest := h.rest.trans ⟨rfl, rfl, rfl, rfl, rfl, rfl, rfl, rfl, rfl, rfl, rfl, rfl, rfl, rfl⟩
  endpoints := h.endpoints
  flags hi := (hf hi).trans (h.flags hi)
  pending e hi := (hp e hi).trans (h.pending e hi)
  stall e hi := (hs e hi).trans (h.stall e hi)
  faults := h.faults

/-- A fault leaves the endpoints and the PCB as they were (R277). -/
theorem of_fault (h : SameBut s t) (he : t.eps = s.eps) (hp : t.pcb = s.pcb) (hi : i.canFault = true) :
    OnlyWrites i s t where
  rest := h
  endpoints e _ := State.ep_congr he e
  flags _ := by rw [hp]
  pending _ _ := by rw [hp]
  stall _ _ := by rw [hp]
  faults hf := by rw [hi] at hf; cases hf

end OnlyWrites

/-! ### Bits of the PCB that a change for another endpoint leaves -/

namespace Pcb

variable (p : Pcb) {e e' : EpNum}

theorem clrPending_pendingBit_of_ne (h : (e == e') = false) : (p.clrPending e).pendingBit e' = p.pendingBit e' := by
  simp [Ne.symm (beq_eq_false_iff_ne.mp h)]

theorem setStall_stallBit_of_ne (h : (e == e') = false) : (p.setStall e).stallBit e' = p.stallBit e' := by
  simp [Ne.symm (beq_eq_false_iff_ne.mp h)]

theorem clrStall_stallBit_of_ne (h : (e == e') = false) : (p.clrStall e).stallBit e' = p.stallBit e' := by
  simp [Ne.symm (beq_eq_false_iff_ne.mp h)]

theorem noteDrain_pendingBit_of_ne (k : Nat) (h : (e == e') = false) :
    (p.noteDrain e k).pendingBit e' = p.pendingBit e' := by
  unfold noteDrain
  split
  · rfl
  · simp [Ne.symm (beq_eq_false_iff_ne.mp h)]

end Pcb

/-! ### The frame of every command -/

theorem CommandCase.onlyWrites_or_held {i : Instr} {s t : State} (h : CommandCase i s t) (hi : i ≠ .pcbInit) :
    OnlyWrites i s t ∨ ∃ op, i.heldAs = some op ∧ t = { s with main := op :: s.main } := by
  cases h with
  | held hop => exact .inr ⟨_, hop, rfl⟩
  | initialised => exact absurd rfl hi
  | ended => exact .inl (.refl i s)
  | refused c => exact .inl ((OnlyWrites.refl i s).respond c 0)
  | @full _ e _ =>
    obtain ⟨-, -, -, -, -, hfull, -⟩ := raise_sameBut s e
    exact .inl (.of_fault hfull rfl rfl rfl)
  | @empty _ e =>
    obtain ⟨-, -, -, -, -, -, hempty⟩ := raise_sameBut s e
    exact .inl (.of_fault hempty rfl rfl rfl)
  | written | taken | flushed => exact .inl (.respond (.setEp (.refl _ s) (beq_self_eq_true _)) _ _)
  | acked => exact .inl (.respond (.setEp (.refl _ s) rfl) _ _)
  | configured =>
    refine .inl (.respond (.setPcb (.setEp (.refl _ s) (beq_self_eq_true _)) ?_ ?_ ?_) _ _)
    · exact fun _ => rfl
    · exact fun _ he => Pcb.clrPending_pendingBit_of_ne _ he
    · exact fun _ _ => rfl
  | drained =>
    refine .inl (.respond (.setPcb (.setEp (.refl _ s) (beq_self_eq_true _)) ?_ ?_ ?_) _ _)
    · exact fun hf => nomatch hf
    · exact fun _ he => Pcb.noteDrain_pendingBit_of_ne _ _ he
    · exact fun _ _ => Pcb.noteDrain_stallBit ..
  | stalled =>
    refine .inl (.respond (.setPcb (.setEp (.refl _ s) (beq_self_eq_true _)) ?_ ?_ ?_) _ _)
    · exact fun _ => rfl
    · exact fun _ _ => rfl
    · exact fun _ he => Pcb.setStall_stallBit_of_ne _ he
  | unstalled =>
    refine .inl (.respond (.setPcb (.setEp (.refl _ s) (beq_self_eq_true _)) ?_ ?_ ?_) _ _)
    · exact fun _ => rfl
    · exact fun _ _ => rfl
    · exact fun _ he => Pcb.clrStall_stallBit_of_ne _ he
  | flagsSet | flagsCleared =>
    refine .inl (.respond (.setPcb (.refl _ s) ?_ ?_ ?_) _ _)
    · exact fun hf => nomatch hf
    · exact fun _ _ => rfl
    · exact fun _ _ => rfl
  | pendingCleared =>
    refine .inl (.respond (.setPcb (.refl _ s) ?_ ?_ ?_) _ _)
    · exact fun _ => rfl
    · exact fun _ he => Pcb.clrPending_pendingBit_of_ne _ he
    · exact fun _ _ => rfl

/-- Settles O20: a command writes only what its rule names, or is held. -/
theorem commandFrames : Obligations.CommandFrames := by
  unfold Obligations.CommandFrames
  intro i s t hi hinit h
  rcases (exec_commandCase hi h).onlyWrites_or_held hinit with hw | ⟨op, hop, rfl⟩
  · exact ⟨hw.rest.commandFrame, hw.endpoints, hw.flags, hw.pending, hw.stall, hw.faults, .inl hw.rest.main⟩
  · exact ⟨⟨rfl, rfl, rfl, rfl, fun _ => rfl, rfl, rfl, rfl, rfl, rfl, rfl, rfl, rfl⟩, fun _ _ => rfl, fun _ => rfl,
      fun _ _ => rfl, fun _ _ => rfl, fun _ => ⟨rfl, rfl⟩, .inr ⟨op, hop, rfl⟩⟩

/-! ### The length of a FIFO -/

theorem State.len_setEp_le {s : State} {e : EpNum} {x : Endpoint} (hx : x.len ≤ (s.ep e).len) (e' : EpNum) :
    ((s.setEp e x).ep e').len ≤ (s.ep e').len := by
  rw [State.ep_setEp]
  split
  · next h => rw [h]; exact hx
  · exact le_rfl

/-- A command keeps a FIFO as long as it was or makes it shorter, or it is a `WRITE` of one byte or a `DRAIN` of at most
the free space. -/
theorem CommandCase.len {i : Instr} {s t : State} (h : CommandCase i s t) (e : EpNum) :
    (t.ep e).len ≤ (s.ep e).len ∨
    (∃ b, i = .write e b ∧ (s.ep e).len < s.params.fifoCap ∧ (t.ep e).len = (s.ep e).len + 1) ∨
    (i = .drain e ∧ (t.ep e).len ≤ (s.ep e).len + (s.params.fifoCap - (s.ep e).len)) := by
  cases h with
  | @written _ e' b hl =>
    by_cases he : e = e'
    · subst he
      exact .inr (.inl ⟨b, rfl, hl, by simp [Endpoint.len]⟩)
    · exact .inl (by rw [State.ep_respond, State.ep_setEp_of_ne _ _ he])
  | @drained _ e' n =>
    by_cases he : e = e'
    · subst he
      refine .inr (.inr ⟨rfl, ?_⟩)
      rw [State.ep_respond, State.ep_setPcb, State.ep_setEp_same, Endpoint.len, drained_length]
      exact Nat.add_le_add_left (Nat.min_le_right _ _) _
    · exact .inl (by rw [State.ep_respond, State.ep_setPcb, State.ep_setEp_of_ne _ _ he])
  | ended | refused | held | full | empty | flagsSet | flagsCleared | pendingCleared => exact .inl le_rfl
  | initialised =>
    refine .inl ?_
    rw [cmdPcbInit, State.ep_respond, tearDownPcb_ep]
    split
    · exact Nat.zero_le _
    · exact le_rfl
  | configured => exact .inl (State.len_setEp_le (Nat.zero_le _) e)
  | taken hq => exact .inl (State.len_setEp_le (by simp [Endpoint.len, hq]) e)
  | flushed => exact .inl (State.len_setEp_le (by simp [Endpoint.len, Endpoint.flushed]) e)
  | @stalled _ e' => exact .inl (State.len_setEp_le (x := { s.ep e' with hwStall := true }) le_rfl e)
  | @unstalled _ e' =>
    exact .inl (State.len_setEp_le (x := { s.ep e' with hwStall := false, toggle := false }) le_rfl e)
  | acked => exact .inl (State.len_setEp_le (x := (s.ep 0).acked) le_rfl e)

/-- Settles O21, from what each command does to the length of a FIFO. -/
theorem capacity : Obligations.Capacity := by
  unfold Obligations.Capacity
  intro i s t e hi h hcap
  rcases (exec_commandCase hi h).len e with hle | ⟨b, rfl, hlt, hlen⟩ | ⟨rfl, hlen⟩
  · exact ⟨hle.trans hcap, fun hgt => absurd hle (Nat.not_le_of_lt hgt)⟩
  · exact ⟨by omega, fun _ => .inl ⟨b, rfl, hlt, hlen⟩⟩
  · exact ⟨by omega, fun _ => .inr ⟨rfl, by omega⟩⟩

end Sys2Proof.Machine
end

