-- ==== Sys2Proof/Proofs/FifoOrder.lean ====
section
/-! A FIFO that exists and is configured gives back its bytes in the order they were written
(spec/40_fifo_core.md R133). -/

namespace Sys2Proof.Machine

/-- A running machine whose endpoint `e` exists, is configured and holds `q`. -/
structure HoldsBytes (e : EpNum) (q : List Byte) (s : State) : Prop where
  running : s.running
  hasEp : s.hasEp e = true
  cfgValid : (s.ep e).cfgValid = true
  queue : (s.ep e).q = q

/-- A `WRITE` of a byte that fits (R122). -/
theorem HoldsBytes.write {e : EpNum} {q : List Byte} {s : State} (h : HoldsBytes e q s) (b : Byte)
    (hl : q.length < s.params.fifoCap) :
    ∃ t, exec (.write e b) s = .next t ∧ t.resp = respWord .ok 0 ∧ t.params = s.params ∧
      HoldsBytes e (q ++ [b]) t := by
  refine ⟨_, (runCommand_running h.running _).trans (congrArg _ (cmdWrite_performed b h.hasEp h.cfgValid ?_)), rfl, rfl,
    h.running, h.hasEp, ?_, ?_⟩
  · rw [Endpoint.len, h.queue]; exact hl
  · rw [State.ep_respond, State.ep_setEp_same]; exact h.cfgValid
  · rw [State.ep_respond, State.ep_setEp_same, h.queue]

/-- A `READ` of the byte at the head (R123). -/
theorem HoldsBytes.read {e : EpNum} {b : Byte} {q : List Byte} {s : State} (h : HoldsBytes e (b :: q) s) :
    ∃ t, exec (.read e) s = .next t ∧ t.resp = respWord .ok (b.setWidth 16) ∧ HoldsBytes e q t := by
  refine ⟨_, (runCommand_running h.running _).trans (congrArg _ (cmdRead_performed h.hasEp h.cfgValid h.queue)), rfl,
    h.running, h.hasEp, ?_, ?_⟩
  · rw [State.ep_respond, State.ep_setEp_same]; exact h.cfgValid
  · rw [State.ep_respond, State.ep_setEp_same]

theorem runAll_cons {i : Instr} {is : List Instr} {s t u : State} {rs : List Word} (h : exec i s = .next t)
    (hr : runAll is t = some (rs, u)) : runAll (i :: is) s = some (t.resp :: rs, u) := by
  rw [runAll, h]
  simp only [hr, Option.map_some]

/-- Reading a FIFO empty returns its bytes in order. -/
theorem HoldsBytes.readAll {e : EpNum} {q : List Byte} {s : State} (h : HoldsBytes e q s) :
    ∃ t, runAll (List.replicate q.length (.read e)) s = some (q.map fun b => respWord .ok (b.setWidth 16), t) ∧
      (t.ep e).q = [] := by
  induction q generalizing s with
  | nil => exact ⟨s, rfl, h.queue⟩
  | cons b q ih =>
    obtain ⟨t, ht, hresp, hq⟩ := h.read
    obtain ⟨u, hu, hempty⟩ := ih hq
    exact ⟨u, by rw [List.map_cons, ← hresp]; exact runAll_cons ht hu, hempty⟩

/-- Bytes written behind the queue are read after it. -/
theorem HoldsBytes.writeAll_readAll {e : EpNum} {q : List Byte} {s : State} (h : HoldsBytes e q s) (bs : List Byte)
    (hl : q.length + bs.length ≤ s.params.fifoCap) :
    ∃ t, runAll (bs.map (Instr.write e) ++ List.replicate (q.length + bs.length) (.read e)) s =
        some (List.replicate bs.length (respWord .ok 0) ++ (q ++ bs).map (fun b => respWord .ok (b.setWidth 16)), t) ∧
      (t.ep e).q = [] := by
  induction bs generalizing q s with
  | nil => simpa using h.readAll
  | cons b bs ih =>
    rw [List.length_cons] at hl
    obtain ⟨t, ht, hresp, hparams, hq⟩ := h.write b (by omega)
    have hlen : (q ++ [b]).length + bs.length = q.length + (b :: bs).length := by simp; omega
    obtain ⟨u, hu, hempty⟩ := ih hq (by rw [hparams, hlen]; exact hl)
    rw [hlen, List.append_assoc, List.singleton_append] at hu
    have hcons := runAll_cons ht hu
    rw [hresp] at hcons
    exact ⟨u, hcons, hempty⟩

/-- Settles O22, by induction on the bytes written and then on the bytes read. -/
theorem fifoOrder : Obligations.FifoOrder := by
  unfold Obligations.FifoOrder
  intro e s bs hr he hc hl
  have h : HoldsBytes e (s.ep e).q s := ⟨hr, (State.hasEp_iff s e).mpr he, hc, rfl⟩
  exact h.writeAll_readAll bs hl

end Sys2Proof.Machine
end

