-- ==== Sys2Proof/Proofs/MultiPacket.lean ====
section
/-! A FIFO is sent packet by packet (spec/40_fifo_core.md R135): one `FLUSH` and the host's `TAKE` remove one packet, so
`ceil(L / m)` rounds and no fewer empty a FIFO of `L` bytes. -/

namespace Sys2Proof.Machine

/-! ### Bytes in packets -/

/-- The first `n` packets of at most `m` bytes of a queue. -/
def packets (m : Nat) : Nat → List Byte → List (List Byte)
  | 0, _ => []
  | n + 1, q => q.take m :: packets m n (q.drop m)

theorem packets_length (m n : Nat) (q : List Byte) : (packets m n q).length = n := by
  induction n generalizing q with
  | zero => rfl
  | succ n ih => rw [packets, List.length_cons, ih]

theorem packets_flatten (m n : Nat) (q : List Byte) : (packets m n q).flatten = q.take (m * n) := by
  induction n generalizing q with
  | zero => rw [Nat.mul_zero, List.take_zero]; rfl
  | succ n ih => rw [packets, List.flatten_cons, ih, Nat.mul_succ, Nat.add_comm, List.take_add]

theorem packets_getElem? {m n i : Nat} {q p : List Byte} (h : (packets m n q)[i]? = some p) :
    p = (q.drop (m * i)).take m := by
  induction n generalizing q i with
  | zero => simp [packets] at h
  | succ n ih =>
    cases i with
    | zero => simpa [packets] using h.symm
    | succ i =>
      rw [packets, List.getElem?_cons_succ] at h
      rw [ih h, List.drop_drop, Nat.mul_succ, Nat.add_comm]

/-- The number of packets is the least that covers the queue. -/
theorem ceil_div_le_iff {L m : Nat} (hm : 1 ≤ m) (k : Nat) : (L + m - 1) / m ≤ k ↔ L ≤ m * k := by
  rw [← Nat.ceilDiv_eq_add_pred_div, ceilDiv_le_iff_le_mul hm]

/-! ### One round -/

/-- A running machine whose endpoint `e` can send, has no packet ready, and holds `q`. -/
structure CanSend (e : EpNum) (m : Nat) (q : List Byte) (s : State) : Prop where
  running : s.running
  hasEp : s.hasEp e = true
  cfgValid : (s.ep e).cfgValid = true
  direction : (s.ep e).xtype = .ctrl ∨ (s.ep e).dir = .inn
  hwEn : (s.ep e).hwEn = true
  hwStall : (s.ep e).hwStall = false
  txReady : (s.ep e).txReady = false
  packetSize : (s.ep e).mps.toNat = m
  queue : (s.ep e).q = q

/-- `FLUSH e` and the host's `TAKE e` move one packet from the FIFO to the host. -/
theorem CanSend.round {e : EpNum} {m : Nat} {q : List Byte} {s : State} (h : CanSend e m q s) :
    ∃ t, exec (.flush e) s = .next t ∧ CanSend e m (q.drop m) (agentStep (.wireTake e) t) ∧
      (agentStep (.wireTake e) t).events = s.events ++ [.hostReceives e (q.take m)] := by
  have hflush := cmdFlush_performed h.hasEp h.cfgValid
    (Endpoint.maySend_iff.mpr h.direction) h.txReady
  simp only [Endpoint.len, take_min_length, drop_min_length, h.packetSize, h.queue] at hflush
  generalize ht : State.respond .ok _ _ = t at hflush
  have hep : t.ep e = { s.ep e with txPkt := q.take m, q := q.drop m, underrun := false, txReady := true } := by
    rw [← ht, State.ep_respond, State.ep_setEp_same]
  have hexec : exec (.flush e) s = .next t :=
    (runHeldCommand_running h.running _ _).trans (by rw [hflush, Option.getD_some])
  have hrunning : t.running := by rw [← ht]; exact h.running
  have hexists : t.hasEp e = true := by rw [← ht]; exact h.hasEp
  have henabled : agentEnabled (.wireTake e) t = true :=
    wireTake_enabled hrunning ((State.hasEp_iff t e).mp hexists) (by rw [hep]; exact h.direction)
      (by rw [hep]; exact h.hwEn) (by rw [hep]; exact h.hwStall) (by rw [hep])
  have htaken := ep_wireTake henabled
  rw [hep] at htaken
  refine ⟨t, hexec, ⟨?_, ?_, ?_, ?_, ?_, ?_, ?_, ?_, ?_⟩, ?_⟩
  · rw [agentStep_enabled henabled]; exact hrunning
  · rw [State.hasEp, (agentStep_mainOwned _ t).params]; exact hexists
  · rw [htaken]; exact h.cfgValid
  · rw [htaken]; exact h.direction
  · rw [htaken]; exact h.hwEn
  · rw [htaken]; exact h.hwStall
  · rw [htaken]
  · rw [htaken]; exact h.packetSize
  · rw [htaken]
  · rw [agentStep_enabled henabled, agentEffect, State.setEp_events, State.emit_events, hep, ← ht]; rfl

/-- `n` rounds send the first `n` packets, in order. -/
theorem CanSend.rounds {e : EpNum} {m : Nat} (n : Nat) {q : List Byte} {s : State} (h : CanSend e m q s) :
    ∃ t, flushTake e n s = some t ∧ (t.ep e).q = q.drop (m * n) ∧
      t.events = s.events ++ (packets m n q).map (Event.hostReceives e) := by
  induction n generalizing q s with
  | zero => exact ⟨s, rfl, h.queue, (List.append_nil _).symm⟩
  | succ n ih =>
    obtain ⟨t, ht, hnext, hevents⟩ := h.round
    obtain ⟨u, hu, hqueue, hsent⟩ := ih hnext
    refine ⟨u, ?_, ?_, ?_⟩
    · rw [flushTake, ht]; exact hu
    · rw [hqueue, List.drop_drop, Nat.mul_succ, Nat.add_comm]
    · rw [hsent, hevents, List.append_assoc]; rfl

/-- Settles O23: each round sends the next packet, and `n` is the least number of packets that covers the FIFO. -/
theorem multiPacket : Obligations.MultiPacket := by
  unfold Obligations.MultiPacket
  rintro e s m n hr he hc hd hen hst htx hq rfl hm rfl
  have hsend : CanSend e (s.ep e).mps.toNat (s.ep e).q s :=
    ⟨hr, (State.hasEp_iff s e).mpr he, hc, hd, hen, hst, htx, rfl, rfl⟩
  generalize (s.ep e).mps.toNat = m at *
  have hcover := ceil_div_le_iff (L := (s.ep e).len) hm
  generalize ((s.ep e).len + m - 1) / m = n at *
  have hall : (s.ep e).len ≤ m * n := (hcover n).mp le_rfl
  have hbefore (k : Nat) (hk : k < n) : m * k < (s.ep e).len :=
    Nat.lt_of_not_le fun hle => Nat.not_lt_of_le ((hcover k).mpr hle) hk
  refine ⟨?_, fun k hk => ?_⟩
  · obtain ⟨t, ht, hqueue, hevents⟩ := hsend.rounds n
    refine ⟨packets m n (s.ep e).q, t, ht, hqueue.trans (List.drop_of_length_le hall), hevents, packets_length ..,
      (packets_flatten ..).trans (List.take_of_length_le hall), fun i p hp => ?_⟩
    have hi : i < n := packets_length m n (s.ep e).q ▸ (List.getElem?_eq_some_iff.mp hp).1
    rw [packets_getElem? hp, List.length_take, List.length_drop]
    split
    · next hnext =>
      have hfull := hbefore (i + 1) hnext
      rw [Nat.mul_succ] at hfull
      exact Nat.min_eq_left (Nat.le_sub_of_add_le' hfull.le)
    · next hlast =>
      obtain rfl : n = i + 1 := by omega
      rw [Nat.mul_succ] at hall
      exact Nat.min_eq_right (Nat.sub_le_iff_le_add'.mpr hall)
  · obtain ⟨t, ht, hqueue, -⟩ := hsend.rounds k
    refine ⟨t, ht, ?_⟩
    rw [hqueue, ne_eq, List.drop_eq_nil_iff]
    exact Nat.not_le_of_lt (hbefore k hk)

end Sys2Proof.Machine
end

