-- ==== Sys2Proof/Proofs/FifoCommands.lean ====
section
/-! The twelve commands of the Endpoint FIFO Core, one by one: the word that names each (spec/30_encoding.md R93) and
the whole next state (spec/40_fifo_core.md R121 to R132). -/

namespace Sys2Proof.Machine

/-- What a drain of `k` bytes leaves of an endpoint, field by field (R125). -/
theorem drained_eq {cap k : Nat} {x : Endpoint} (hk : drainCount cap x = k) :
    drained cap x =
      { x with q := x.q ++ x.rxBuf.take k, rxBuf := x.rxBuf.drop k,
               rxReady := if x.rxBuf.length ≤ k then false else x.rxReady } := by
  have hready : (x.rxReady && !(x.rxBuf.drop k).isEmpty) = if x.rxBuf.length ≤ k then false else x.rxReady := by
    split
    · next h => rw [List.drop_of_length_le h]; simp
    · next h => simp [h]
  rw [drained, hk, hready]

/-- Settles O11: the two checks of the rule, in its order. -/
theorem configure : Obligations.Configure := by
  unfold Obligations.Configure
  refine ⟨fun c w => ?_, fun e ty dir mps s hr => ?_⟩
  · obtain ⟨-, configure, -⟩ := commandRows.1 c w
    exact configure
  refine (runCommand_running hr _).trans (congrArg _ ?_)
  rw [cmdConfigure, onEndpoint_eq]
  simp only [badConfigure_iff]
  rfl

/-- Settles O12: within the capacity, a FIFO is full when its length is the capacity. -/
theorem write : Obligations.Write := by
  unfold Obligations.Write
  refine ⟨fun c w => ?_, fun e b s hr hl => ?_⟩
  · obtain ⟨-, -, write, -⟩ := commandRows.1 c w
    exact write
  refine (runCommand_running hr _).trans (congrArg _ ?_)
  rw [cmdWrite, onConfigured_eq]
  simp only [hl.ge_iff_eq]
  rfl

/-- Settles O13, one case of the rule at a time. -/
theorem read : Obligations.Read := by
  unfold Obligations.Read
  refine ⟨fun c w => ?_, fun e s hr => ?_⟩
  · obtain ⟨-, -, -, read, -⟩ := commandRows.1 c w
    exact read
  have hexec : exec (.read e) s = .next (cmdRead e s) := runCommand_running hr _
  rw [hexec]
  refine ⟨fun he => ?_, fun he hc => ?_, fun he hc hq => ?_, fun b rest he hc hq => ?_⟩
  · rw [cmdRead, onConfigured_eq, if_pos he]; rfl
  · rw [cmdRead, onConfigured_eq, if_neg he.not_ge, if_pos hc]; rfl
  · refine ⟨Config.drawData s.draws, s.draws + 1, ?_⟩
    rw [cmdRead, onConfigured_of_cfgValid _ ((s.hasEp_iff e).mpr he) hc, hq]
    rfl
  · rw [cmdRead_performed ((s.hasEp_iff e).mpr he) hc hq]; rfl

/-- Settles O14, check by check; a held command waits at the head of `main`. -/
theorem flush : Obligations.Flush := by
  unfold Obligations.Flush
  refine ⟨fun c w => ?_, fun e s hr => ?_⟩
  · obtain ⟨-, -, -, -, flush, -⟩ := commandRows.1 c w
    exact flush
  refine (runHeldCommand_running hr _ _).trans (congrArg _ ?_)
  rw [cmdFlush_eq]
  split_ifs <;> rfl

/-- Settles O15, from the endpoint a drain leaves. -/
theorem drain : Obligations.Drain := by
  unfold Obligations.Drain
  refine ⟨fun c w => ?_, fun e s k hr hk => ?_⟩
  · obtain ⟨-, -, -, -, -, drain, -⟩ := commandRows.1 c w
    exact drain
  have hcount : drainCount s.params.fifoCap (s.ep e) = k := hk.symm
  refine (runCommand_running hr _).trans (congrArg _ ?_)
  rw [cmdDrain, onConfigured_eq]
  simp only [hcount, drained_eq hcount, Bool.not_eq_true', Endpoint.mayReceive_eq_false_iff]
  rfl

/-- Settles O16: the only check is that the endpoint exists. -/
theorem stallCommands : Obligations.StallCommands := by
  unfold Obligations.StallCommands
  refine ⟨fun c w => ?_, fun e s hr => ⟨?_, ?_⟩⟩
  · obtain ⟨-, -, -, -, -, -, setStall, clearStall, -⟩ := commandRows.1 c w
    exact ⟨setStall, clearStall⟩
  · exact (runCommand_running hr _).trans (congrArg _ (onEndpoint_eq e _ s))
  · exact (runCommand_running hr _).trans (congrArg _ (onEndpoint_eq e _ s))

/-- Settles O17, check by check; a held command waits at the head of `main`. -/
theorem zlpAck : Obligations.ZlpAck := by
  unfold Obligations.ZlpAck
  refine ⟨fun c w => ?_, fun s hr => ?_⟩
  · obtain ⟨-, -, -, -, -, -, -, -, zlpAck, -⟩ := commandRows.1 c w
    exact zlpAck
  refine (runHeldCommand_running hr _ _).trans (congrArg _ ?_)
  rw [cmdZlpAck_eq]
  split_ifs <;> rfl

/-- Settles O18: the flag commands check nothing, `PEND_CLR` that the endpoint exists. -/
theorem flagCommands : Obligations.FlagCommands := by
  unfold Obligations.FlagCommands
  refine ⟨fun c w => ?_, fun mask e s hr => ⟨?_, ?_, ?_⟩⟩
  · obtain ⟨-, -, -, -, -, -, -, -, -, flagSet, flagClr, pendClr⟩ := commandRows.1 c w
    exact ⟨flagSet, flagClr, pendClr⟩
  · exact runCommand_running hr _
  · exact runCommand_running hr _
  · exact (runCommand_running hr _).trans (congrArg _ (onEndpoint_eq e _ s))

theorem State.respond_respond (s : State) (c c' : RespCode) (v v' : BitVec 16) :
    (s.respond c v).respond c' v' = s.respond c' v' := rfl

theorem cmdPcbInit_running {s : State} (h : s.running) : (cmdPcbInit s).running := by
  obtain ⟨hhalted, hbooted⟩ := h
  exact ⟨by rw [cmdPcbInit, State.respond_halted, tearDownPcb_halted, hhalted],
    by rw [cmdPcbInit, State.respond_dfu, tearDownPcb_dfu, hbooted]⟩

/-- Settles O19: every existing endpoint has its reset value, and tearing down twice is tearing down once. -/
theorem pcbInit : Obligations.PcbInit := by
  unfold Obligations.PcbInit
  refine ⟨fun c w => ?_, fun s hr => ?_⟩
  · obtain ⟨pcbInit, -⟩ := commandRows.1 c w
    exact pcbInit
  refine ⟨cmdPcbInit s, runCommand_running hr _, fun e he => ?_, fun e he => ?_, rfl, ?_, ?_⟩
  · have hreset : (cmdPcbInit s).ep e = Endpoint.reset := by
      rw [cmdPcbInit, State.ep_respond, tearDownPcb_ep, if_pos ((s.hasEp_iff e).mpr he)]
    rw [hreset]
    exact ⟨rfl, rfl, rfl, rfl, rfl, rfl, rfl, rfl, rfl⟩
  · rw [cmdPcbInit, State.ep_respond, tearDownPcb_ep, if_neg (by rw [State.hasEp_iff]; exact Nat.not_lt_of_le he)]
  · simp only [cmdPcbInit, State.respond, tearDownPcb]
  · have hidem : tearDownPcb (cmdPcbInit s) = cmdPcbInit s := tearDownPcb_idem s (respWord .ok 0)
    have hagain : cmdPcbInit (cmdPcbInit s) = cmdPcbInit s := by
      rw [cmdPcbInit, hidem, cmdPcbInit, State.respond_respond]
    exact (runCommand_running (cmdPcbInit_running hr) _).trans (congrArg _ hagain)

end Sys2Proof.Machine
end

