-- ==== Sys2Proof/Proofs/AgentSteps.lean ====
section
/-! The steps of the wire and of the interrupt context (spec/41_wire_side.md R161 to R169): the enabling condition of each
in a running state, and what the step then leaves. -/

namespace Sys2Proof.Machine

theorem Endpoint.mayReceive_iff {x : Endpoint} : x.mayReceive = true ↔ x.xtype = .ctrl ∨ x.dir = .out := by
  simp [Endpoint.mayReceive]

/-! ### When each step can be taken -/

/-- A running state passes the check that every step shares (spec/60_exceptions.md R275,
spec/70_reset_and_hazards.md R321). -/
theorem not_halted_and_not_booted {s : State} (h : s.running) : (!s.halted && !s.booted) = true := by
  rw [State.booted, h.1, h.2]
  rfl

section
variable {s : State} (hr : s.running) (e : EpNum)
include hr

theorem irqDrain_enabled_iff : agentEnabled (.irqDrain e) s = true ↔
    e.val < s.params.numEps ∧ (s.ep e).rxReady = true ∧ (s.ep e).cfgValid = true ∧
      ((s.ep e).xtype = .ctrl ∨ (s.ep e).dir = .out) ∧ ¬(e = 0 ∧ s.ep0Masked = true) := by
  simp [agentEnabled, not_halted_and_not_booted hr, Endpoint.mayReceive_iff, imp_iff_not_or, and_assoc]

theorem wireRx_enabled_iff (bytes : List Byte) : agentEnabled (.wireRx e bytes) s = true ↔
    e.val < s.params.numEps ∧ (s.ep e).hwEn = true ∧ (s.ep e).cfgValid = true ∧
      ((s.ep e).xtype = .ctrl ∨ (s.ep e).dir = .out) ∧ (s.ep e).hwStall = false ∧ (s.ep e).rxReady = false ∧
      bytes.length ≤ (s.ep e).mps.toNat := by
  simp [agentEnabled, not_halted_and_not_booted hr, Endpoint.mayReceive_iff, and_assoc]

theorem wireTake_enabled_iff : agentEnabled (.wireTake e) s = true ↔
    e.val < s.params.numEps ∧ (s.ep e).hwEn = true ∧ (s.ep e).txReady = true ∧ (s.ep e).hwStall = false ∧
      ((s.ep e).xtype = .ctrl ∨ (s.ep e).dir = .inn) := by
  simp [agentEnabled, not_halted_and_not_booted hr, Endpoint.maySend_iff, and_assoc]

theorem wirePollIn_enabled_iff : agentEnabled (.wirePollIn e) s = true ↔
    e.val < s.params.numEps ∧ (s.ep e).hwEn = true ∧ (s.ep e).txReady = false ∧ (s.ep e).hwStall = false ∧
      ((s.ep e).xtype = .ctrl ∨ (s.ep e).dir = .inn) := by
  simp [agentEnabled, not_halted_and_not_booted hr, Endpoint.maySend_iff, and_assoc]

theorem wireSeeStall_enabled_iff : agentEnabled (.wireSeeStall e) s = true ↔
    e.val < s.params.numEps ∧ (s.ep e).hwStall = true := by
  simp [agentEnabled, not_halted_and_not_booted hr]

theorem wireSetup_enabled_iff (hn : 0 < s.params.numEps) (bytes : List Byte) :
    agentEnabled (.wireSetup bytes) s = true ↔
      (s.ep 0).hwEn = true ∧ (s.ep 0).cfgValid = true ∧ (s.ep 0).rxReady = false ∧ bytes.length = 8 ∧
        s.handling = false := by
  simp [agentEnabled, not_halted_and_not_booted hr, hn, and_assoc]

end

/-! ### What the steps leave -/

/-- A step whose enabling condition is known. -/
theorem agentStep_eq_ite {a : AgentStep} {s : State} {p : Prop} [Decidable p] (h : agentEnabled a s = true ↔ p) :
    agentStep a s = if p then agentEffect a s else s := by
  rw [agentStep]
  exact if_congr h rfl rfl

/-- While an endpoint is stalled, the steps that move its data are not enabled on it (R164). -/
theorem stalled_not_enabled {s : State} (hr : s.running) {e : EpNum} (hst : (s.ep e).hwStall = true)
    (bytes : List Byte) : agentEnabled (.wireTake e) s = false ∧ agentEnabled (.wirePollIn e) s = false ∧
      agentEnabled (.wireRx e bytes) s = false := by
  simp only [← Bool.not_eq_true, wireTake_enabled_iff hr, wirePollIn_enabled_iff hr, wireRx_enabled_iff hr]
  simp [hst]

/-- Settles O24: the effect is that of a packet received. -/
theorem wireReceive : Obligations.WireReceive := by
  unfold Obligations.WireReceive
  intro e bytes s hr
  exact agentStep_eq_ite (wireRx_enabled_iff hr e bytes)

/-- Settles O25, step by step; a stalled endpoint meets none of the enabling conditions. -/
theorem wireTransmit : Obligations.WireTransmit := by
  unfold Obligations.WireTransmit
  intro e s hr
  refine ⟨agentStep_eq_ite (wireTake_enabled_iff hr e), agentStep_eq_ite (wirePollIn_enabled_iff hr e),
    agentStep_eq_ite (wireSeeStall_enabled_iff hr e), fun hst bytes => ?_⟩
  obtain ⟨htake, hpoll, hrx⟩ := stalled_not_enabled hr hst bytes
  exact ⟨agentStep_not_enabled htake, agentStep_not_enabled hpoll, agentStep_not_enabled hrx⟩

/-- Settles O26: the effect is that of a packet received on an endpoint 0 that has been released. -/
theorem wireSetup : Obligations.WireSetup := by
  unfold Obligations.WireSetup
  intro bytes s hr hn
  exact agentStep_eq_ite (wireSetup_enabled_iff hr hn bytes)

/-- Settles O27: the state `DRAIN` leaves is that of `cmdDrain`, which the interrupt context runs too. -/
theorem interruptDrain : Obligations.InterruptDrain := by
  unfold Obligations.InterruptDrain
  intro e s hr
  exact ⟨cmdDrain e s, runCommand_running hr _, agentStep_eq_ite (irqDrain_enabled_iff hr e)⟩

end Sys2Proof.Machine
end

