-- ==== Sys2Proof/Proofs/HeldResponses.lean ====
section
/-! What waits on endpoint 0 until the host has taken the packet in the way: a request's acknowledgement
(spec/42_control_sequencer.md R183), and the next packet of a response (R185). -/

namespace Sys2Proof.Machine

/-- Settles O35: each of these requests starts with its acknowledgement, which is held. -/
theorem heldAcknowledgement : Obligations.HeldAcknowledgement := by
  unfold Obligations.HeldAcknowledgement
  intro r s hq hc ht
  have held (after : List MainOp) : seqAck after s = s.awaitingAck after := seqAck_held hq hc ht after
  refine ⟨?_, ?_, fun hb => ?_, fun hb hl => ?_⟩
  · rw [exec_cdcSetControlLineState hq.1, held]; rfl
  · rw [exec_dfuAbort hq.1, held]; rfl
  · rw [exec_dfuClrstatus_of_error hq.1 hb, held]; rfl
  · rw [exec_dfuDnload_of_length_zero hq.1 (acceptsDnload_iff.mpr hb) hl, held]; rfl

/-! ### The next packet -/

/-- A chain of at most 32 parts that ends in a hold is one step. -/
theorem step_of_runs_held {n : Nat} {s t : State} (h : s.running) (hs : s.sched = []) (hm : s.main ≠ [])
    (hr : Runs n s t) (ht : t.sched = []) (hheld : mainStep t = none) (hn : n ≤ 32) : step s = .next t := by
  rw [step_of_sched_nil h hs, mainTurn_of_main_ne_nil hm, resume,
    drive_runs_held hr ht hheld (hn.trans (le_driveFuel s))]

theorem wireTake_running {s : State} {e : EpNum} (h : s.running) (hw : agentEnabled (.wireTake e) s = true) :
    (agentStep (.wireTake e) s).running := by
  rw [agentStep_enabled hw]
  exact h

/-- A `FLUSH` on an endpoint whose packet has not been taken is held (spec/40_fifo_core.md R124). -/
theorem mainOp_flush_held {s : State} {e : EpNum} (he : s.hasEp e = true) (hc : (s.ep e).cfgValid = true)
    (hd : (s.ep e).maySend = true) (ht : (s.ep e).txReady = true) (rest : List MainOp) :
    mainOp (.flush e) rest s = none := by
  simp [mainOp, cmdFlush, he, hc, hd, ht]

/-! ### The loop of `SEQ_SEND` -/

/-- The parts of the send loop that are still to do when `left` bytes are in the FIFO. -/
def sendRest (left : Nat) : List MainOp := if 0 < left then [.flush 0, .sendLoop] else []

theorem mainOp_sendLoop (s : State) : mainOp .sendLoop [] s = some (s.setMain (sendRest (s.ep 0).len)) := rfl

theorem ep_takenAndSent (s : State) (e : EpNum) (pkt q : List Byte) (data : BitVec 16) (rest : List MainOp) :
    (s.takenAndSent e pkt q data rest).ep e =
      { s.ep e with toggle := !(s.ep e).toggle, txPkt := pkt, q := q, underrun := false } :=
  State.ep_setEp_same s e _

/-- The state once the host has taken a packet of a response and the next one has been marked ready. -/
def State.nextPacketSent (s : State) : State :=
  s.takenAndSent 0 ((s.ep 0).q.take (s.ep 0).mps.toNat) ((s.ep 0).q.drop (s.ep 0).mps.toNat)
    (countData (min (s.ep 0).len (s.ep 0).mps.toNat)) (sendRest ((s.ep 0).len - (s.ep 0).mps.toNat))

theorem ep_nextPacketSent (s : State) : s.nextPacketSent.ep 0 =
    { s.ep 0 with toggle := !(s.ep 0).toggle, txPkt := (s.ep 0).q.take (s.ep 0).mps.toNat,
                  q := (s.ep 0).q.drop (s.ep 0).mps.toNat, underrun := false } :=
  ep_takenAndSent ..

theorem nextPacketSent_main (s : State) :
    s.nextPacketSent.main = if (s.ep 0).len ≤ (s.ep 0).mps.toNat then [] else [.flush 0, .sendLoop] := by
  show sendRest ((s.ep 0).len - (s.ep 0).mps.toNat) = _
  simp only [sendRest, ← Nat.not_le, ite_not, Nat.le_zero, Nat.sub_eq_zero_iff_le]

/-- After the host's `TAKE` the loop sends the next packet and tests what is left. -/
theorem runs_wireTake_sendLoop {s : State} (hr : s.running) (hs : s.sched = []) (hm : s.main = [.flush 0, .sendLoop])
    (hc : (s.ep 0).cfgValid = true) (hw : agentEnabled (.wireTake 0) s = true) :
    Runs 2 (agentStep (.wireTake 0) s) s.nextPacketSent := by
  have ho := agentStep_mainOwned (.wireTake 0) s
  have hflush := mainOp_flush_wireTake hw hc [.sendLoop]
  set v := s.takenAndSent 0 ((s.ep 0).q.take (s.ep 0).mps.toNat) ((s.ep 0).q.drop (s.ep 0).mps.toNat)
    (countData (min (s.ep 0).len (s.ep 0).mps.toNat)) [.sendLoop] with hv
  have hlen : (v.ep 0).len = (s.ep 0).len - (s.ep 0).mps.toNat := by
    rw [hv, ep_takenAndSent]; exact List.length_drop
  have hloop : mainOp .sendLoop [] v = some s.nextPacketSent := by
    rw [mainOp_sendLoop, hlen]
    simp [hv, State.nextPacketSent, State.takenAndSent, State.setMain]
  exact (Runs.one (ho.main.trans hm) (ho.sched.trans hs) (wireTake_running hr hw).1 hflush).trans
    (Runs.one (s := v) rfl hs hr.1 hloop)

/-- MAIN's turn after the host's `TAKE` sends the next packet, and holds the one after it if there is one (R185). -/
theorem step_wireTake_sendLoop {s : State} (hr : s.running) (hs : s.sched = []) (hm : s.main = [.flush 0, .sendLoop])
    (hc : (s.ep 0).cfgValid = true) (hw : agentEnabled (.wireTake 0) s = true) :
    step (agentStep (.wireTake 0) s) = .next s.nextPacketSent := by
  have ho := agentStep_mainOwned (.wireTake 0) s
  have hrunning := wireTake_running hr hw
  have hsched := ho.sched.trans hs
  have hne : (agentStep (.wireTake 0) s).main ≠ [] := by simp [ho.main, hm]
  have hruns := runs_wireTake_sendLoop hr hs hm hc hw
  have hmain := nextPacketSent_main s
  split at hmain
  · exact step_of_runs_done hrunning hsched hne hruns hmain (by omega)
  · obtain ⟨he, ht, hd⟩ := hasEp_txReady_maySend_of_wireTake_enabled hw
    have hep := ep_nextPacketSent s
    have hheld : mainStep s.nextPacketSent = none := by
      rw [mainStep, hmain]
      exact mainOp_flush_held (s := s.nextPacketSent) he (by rw [hep, hc]) (by rw [hep]; exact hd) (by rw [hep, ht]) _
    exact step_of_runs_held hrunning hsched hne hruns hs hheld (by omega)

/-! ### The statement -/

theorem exec_cdcGetLineCoding {s : State} (h : s.running) (r : ReqArgs) :
    exec (.cdcGetLineCoding r) s = .next (seqSend (lineCodingBytes s.lineCoding) s) := by
  rw [exec, execCdcGetLineCoding, unlessEnded_running h]

theorem events_wireTake {s : State} {e : EpNum} (h : agentEnabled (.wireTake e) s = true) :
    (agentStep (.wireTake e) s).events = s.events ++ [.hostReceives e (s.ep e).txPkt] := by
  rw [agentStep_enabled h]; rfl

/-- Settles O58: one turn of the send loop, and the two packets of a Line Coding response. -/
theorem responsePackets : Obligations.ResponsePackets := by
  unfold Obligations.ResponsePackets
  refine ⟨fun s hr hs hm hn hc hx hen hst ht => ?_, fun r s bytes hready hen hst hq hcap hmin hmax hbytes => ?_⟩
  · have hw := wireTake_enabled hr hn (.inl hx) hen hst ht
    refine ⟨s.nextPacketSent, step_wireTake_sendLoop hr hs hm hc hw, ep_nextPacketSent s,
      fun e hne => State.ep_setEp_of_ne s _ hne, nextPacketSent_main s, ?_⟩
    simp only [State.nextPacketSent, State.takenAndSent, countData]
  · have hlen : bytes.length = 7 := by rw [hbytes]; rfl
    have hsend := seqSend_ready hready bytes (List.ne_nil_of_length_pos (by omega))
      (by simp only [Endpoint.len, hq, List.length_nil]; omega)
    have hexec := exec_cdcGetLineCoding hready.1.1 r
    rw [← hbytes] at hexec
    set t := seqSend bytes s
    obtain ⟨hframe, hsent, hdfu, -⟩ := hsend
    obtain ⟨⟨⟨hhalted, hbooted⟩, -, hs⟩, hn, hc, hx, -⟩ := hready
    have hep := hsent.endpoint
    have hmain := hsent.main
    rw [hq, List.nil_append] at hep hmain
    rw [hlen, if_neg (by omega)] at hmain
    have hr : t.running := ⟨hframe.halted.trans hhalted, by rw [hdfu, hbooted]⟩
    have hn' : (0 : EpNum).val < t.params.numEps := by rw [hframe.params]; exact hn
    have hw : agentEnabled (.wireTake 0) t = true :=
      wireTake_enabled hr hn' (by rw [hep]; exact .inl hx) (by rw [hep, hen]) (by rw [hep, hst]) (by rw [hep])
    have hep' := ep_nextPacketSent t
    rw [hep] at hep'
    have hw' : agentEnabled (.wireTake 0) t.nextPacketSent = true :=
      wireTake_enabled hr hn' (by rw [hep']; exact .inl hx) (by rw [hep', hen]) (by rw [hep', hst]) (by rw [hep'])
    have hrest : (bytes.drop (s.ep 0).mps.toNat).length ≤ (s.ep 0).mps.toNat := by rw [List.length_drop]; omega
    refine ⟨t, t.nextPacketSent, hexec,
      step_wireTake_sendLoop hr (hframe.sched.trans hs) hmain (by rw [hep, hc]) hw, ?_, ?_⟩
    · rw [nextPacketSent_main, hep]
      exact if_pos hrest
    · have hfirst : t.nextPacketSent.events = t.events ++ [.hostReceives 0 (t.ep 0).txPkt] := rfl
      rw [events_wireTake hw', hfirst, hframe.events, hep', hep, List.take_of_length_le hrest, List.append_assoc]
      rfl

end Sys2Proof.Machine
end

