-- ==== Sys2Proof/Proofs/RequestExpansion.lean ====
section
/-! The twelve steps with which one request reaches its driver (spec/42_control_sequencer.md R189): the setup packet, its
drain, the eight reads, and the two clearing commands. -/

namespace Sys2Proof.Machine

theorem stepN_succ {s t : State} (n : Nat) (h : step s = .next t) : stepN (n + 1) s = stepN n t := by
  rw [stepN, h]

/-- MAIN between handlers, with nobody scheduled, runs the command word the dispatcher hands it. -/
theorem step_command {s : State} {v : Word} {i : Instr} {items : List MainItem} {cmd : State → State} (hr : s.running)
    (hm : s.main = []) (hs : s.sched = []) (hp : s.program = .issue (.cmd32 v) :: items) (hv : decodeCmd32 v = some i)
    (hcmd : ∀ u, exec i u = runCommand cmd u) : step s = .next (cmd { s with program := items }) := by
  rw [step_of_sched_nil hr hs, mainTurn_of_issue hm hp hv, hcmd]
  exact runCommand_running (s := { s with program := items }) hr cmd

/-! ### The setup packet arrives -/

/-- The state after the setup packet `bytes` has been received (spec/41_wire_side.md R165) and drained whole
(spec/40_fifo_core.md R125) into an empty FIFO. -/
def State.setupDrained (bytes : List Byte) (s : State) : State :=
  { s with
    eps := s.eps.set 0
      { s.ep 0 with q := bytes, rxBuf := [], rxReady := false, toggle := !(s.ep 0).toggle, hwStall := false,
                    txReady := false }
    pcb := ((s.pcb.clrStall 0).setFlags flagSetupDataAvail).setPending 0 }

/-- A drain of all that has been received, into an empty FIFO. -/
theorem drained_whole {cap : Nat} {x : Endpoint} (hq : x.q = []) (hcap : x.rxBuf.length ≤ cap) :
    drainCount cap x = x.rxBuf.length ∧ drained cap x = { x with q := x.rxBuf, rxBuf := [], rxReady := false } := by
  have hcount : drainCount cap x = x.rxBuf.length := by
    rw [drainCount, Endpoint.len, hq]
    exact Nat.min_eq_left hcap
  refine ⟨hcount, ?_⟩
  rw [drained_eq hcount, hq, List.take_length, List.drop_length, if_pos le_rfl, List.nil_append]

/-- The interrupt context drains the setup packet that lies in the receive buffer. -/
theorem irqDrain_setup {s : State} {bytes : List Byte} (hb : bytes.length = 8) (hn : 0 < s.params.numEps)
    (hcap : 8 ≤ s.params.fifoCap) (hc : (s.ep 0).cfgValid = true) (hx : (s.ep 0).xtype = .ctrl)
    (hq : (s.ep 0).q = []) :
    agentEffect (.irqDrain 0) (agentEffect (.wireSetup bytes) s) = s.setupDrained bytes := by
  set u := agentEffect (.wireSetup bytes) s with hu
  have hue : u.ep 0 = receivePacket bytes { s.ep 0 with hwStall := false, txReady := false } :=
    State.ep_setEp_same s 0 _
  obtain ⟨hcount, hdrained⟩ := drained_whole (cap := u.params.fifoCap) (x := u.ep 0) (by rw [hue]; exact hq)
    (by rw [hue]; exact hb.trans_le hcap)
  have hlen : (u.ep 0).rxBuf.length = 8 := by rw [hue]; exact hb
  rw [agentEffect, cmdDrain_performed ((State.hasEp_iff u 0).mpr hn) (by rw [hue]; exact hc)
    (Endpoint.mayReceive_iff.mpr (by rw [hue]; exact .inl hx)), hcount, hdrained, hlen,
    Pcb.noteDrain_pos _ _ (by omega), hue]
  simp [hu, agentEffect, State.setupDrained, State.setEp, State.setPcb, State.respond, receivePacket, drainFlag]

theorem stepN_setup_drain {s : State} {bytes : List Byte} (k : Nat) (hr : s.running) (hh : s.handling = false)
    (hs : s.sched = [.agent (.wireSetup bytes), .agent (.irqDrain 0)]) (hb : bytes.length = 8)
    (hn : 0 < s.params.numEps) (hcap : 8 ≤ s.params.fifoCap) (hen : (s.ep 0).hwEn = true)
    (hc : (s.ep 0).cfgValid = true) (hx : (s.ep 0).xtype = .ctrl) (hrx : (s.ep 0).rxReady = false)
    (hq : (s.ep 0).q = []) (hmask : s.ep0Masked = false) :
    stepN (k + 2) s = stepN k (State.setupDrained bytes { s with sched := [] }) := by
  have hsetup : step s = .next (agentEffect (.wireSetup bytes) { s with sched := [.agent (.irqDrain 0)] }) := by
    rw [step_of_sched_agent hr hs, agentStep_enabled]
    exact (wireSetup_enabled_iff (s := { s with sched := _ }) hr hn bytes).mpr ⟨hen, hc, hrx, hb, hh⟩
  set u := agentEffect (.wireSetup bytes) { s with sched := [] }
  have hue : u.ep 0 = receivePacket bytes { s.ep 0 with hwStall := false, txReady := false } :=
    State.ep_setEp_same s 0 _
  have henabled : agentEnabled (.irqDrain 0) u = true := by
    rw [irqDrain_enabled_iff (s := u) hr 0, hue]
    exact ⟨hn, rfl, hc, .inl hx, fun h => Bool.false_ne_true (hmask.symm.trans h.2)⟩
  have hdrain := step_of_sched_agent
    (s := agentEffect (.wireSetup bytes) { s with sched := [.agent (.irqDrain 0)] }) hr rfl
  rw [stepN_succ _ hsetup, stepN_succ _ hdrain]
  congr 1
  exact (agentStep_enabled henabled).trans (irqDrain_setup (s := { s with sched := [] }) hb hn hcap hc hx hq)

/-! ### MAIN reads it -/

/-- One `READ 0` for each byte empties the FIFO (spec/40_fifo_core.md R123). -/
theorem stepN_reads (n k : Nat) {s : State} {items : List MainItem} (hr : s.running) (hm : s.main = [])
    (hs : s.sched = []) (hp : s.program = List.replicate n (.issue (.cmd32 0x40000000)) ++ items)
    (he : s.hasEp 0 = true) (hc : (s.ep 0).cfgValid = true) (hq : (s.ep 0).q.length = n) :
    ∃ r, stepN (n + k) s = stepN k
      { s with eps := s.eps.set 0 { s.ep 0 with q := [] }, resp := r, program := items } := by
  induction n generalizing s with
  | zero =>
    have heps : s.eps.set 0 { s.ep 0 with q := [] } = s.eps := by
      rw [← List.eq_nil_of_length_eq_zero hq]
      exact s.eps_set_self 0
    have hitems : items = s.program := hp.symm
    exact ⟨s.resp, by rw [Nat.zero_add, heps, hitems]⟩
  | succ n ih =>
    obtain ⟨b, rest, hqs⟩ := List.exists_cons_of_length_eq_add_one hq
    set u : State := { s with
      eps := s.eps.set 0 { s.ep 0 with q := rest }, resp := respWord .ok (byteData b)
      program := List.replicate n (.issue (.cmd32 0x40000000)) ++ items }
    have hue : u.ep 0 = { s.ep 0 with q := rest } := State.ep_setEp_same s 0 _
    have hstep : step s = .next u :=
      (step_command (i := .read 0) hr hm hs hp (by decide) fun _ => rfl).trans
        (congrArg _ (cmdRead_performed (s := { s with program := _ }) he hc hqs))
    rw [hqs] at hq
    obtain ⟨r, hrest⟩ := ih (s := u) hr hm hs rfl he (by rw [hue, hc]) (by rw [hue]; exact Nat.succ.inj hq)
    have heps : u.eps.set 0 { s.ep 0 with q := [] } = s.eps.set 0 { s.ep 0 with q := [] } := s.eps_set_set 0 _ _
    refine ⟨r, ?_⟩
    rw [Nat.add_right_comm, stepN_succ _ hstep, hrest, hue, heps]

/-- `FLAG_CLR SETUP_DATA_AVAIL` and `PEND_CLR 0` (R130, R131). -/
theorem stepN_clear {s : State} {items : List MainItem} (hr : s.running) (hm : s.main = []) (hs : s.sched = [])
    (hp : s.program = .issue (.cmd32 0xB0000002) :: .issue (.cmd32 0xC0000000) :: items) (he : s.hasEp 0 = true) :
    stepN 2 s = some { s with
      pcb := (s.pcb.clrFlags flagSetupDataAvail).clrPending 0, resp := respWord .ok 0, program := items } := by
  set u : State := { s with
    pcb := s.pcb.clrFlags flagSetupDataAvail, resp := respWord .ok 0
    program := .issue (.cmd32 0xC0000000) :: items }
  have hflag : step s = .next u := step_command (i := .flagClr flagSetupDataAvail) hr hm hs hp (by decide) fun _ => rfl
  have hpend := step_command (s := u) (i := .pendClr 0) hr hm hs rfl (by decide) fun _ => rfl
  rw [stepN_succ 1 hflag, stepN_succ 0 hpend, cmdPendClr, onEndpoint_of_hasEp (s := { u with program := items }) _ he]
  rfl

/-! ### The statement -/

/-- The bits a drain of endpoint 0 has set are clear again. -/
theorem Pcb.set_clear (p : Pcb) :
    (((p.setFlags flagSetupDataAvail).setPending 0).clrFlags flagSetupDataAvail).clrPending 0 =
      (p.clrFlags flagSetupDataAvail).clrPending 0 := by
  simp only [setFlags, setPending, clrFlags, clrPending, or_and_not]

/-- Settles O59: the two steps of the other agents, the eight reads, then the two clearing commands. -/
theorem requestExpansion : Obligations.RequestExpansion := by
  unfold Obligations.RequestExpansion
  intro s d w items hr hm hh hs hp hn hcap hen hc hx hrx hq hmask
  rw [stepN_setup_drain (bytes := setupBytes w) 10 hr hh hs rfl hn hcap hen hc hx hrx hq hmask]
  set u := State.setupDrained (setupBytes w) { s with sched := [] }
  have hue : u.ep 0 = { s.ep 0 with q := setupBytes w, rxBuf := [], rxReady := false, toggle := !(s.ep 0).toggle,
                                    hwStall := false, txReady := false } := State.ep_setEp_same s 0 _
  have he : u.hasEp 0 = true := (State.hasEp_iff s 0).mpr hn
  obtain ⟨r, hreads⟩ := stepN_reads 8 2 (s := u) hr hm rfl (hp.trans (List.append_assoc ..)) he
    (by rw [hue, hc]) (by rw [hue]; rfl)
  have heps : u.eps.set 0 { u.ep 0 with q := [] } = s.eps.set 0
      { s.ep 0 with rxBuf := [], rxReady := false, toggle := !(s.ep 0).toggle, hwStall := false, txReady := false } := by
    rw [hue, ← hq]
    exact s.eps_set_set 0 _ _
  have hpcb : (u.pcb.clrFlags flagSetupDataAvail).clrPending 0 =
      ⟨s.pcb.flags &&& ~~~0b010#3, s.pcb.pending &&& ~~~1#16, s.pcb.stall &&& ~~~1#16⟩ :=
    (s.pcb.clrStall 0).set_clear
  rw [hreads, heps, stepN_clear (items := .issue (.setup8 d w) :: items), hpcb]
  · rfl
  · exact hr
  · exact hm
  · rfl
  · rfl
  · exact he

end Sys2Proof.Machine
end

