-- ==== Sys2Proof/Proofs/DataStage.lean ====
section
/-! The data stage of `DFU_DNLOAD` and `SET_LINE_CODING` (spec/42_control_sequencer.md R182, R184, R188): the wait for
it, what the two requests do when it arrives during the wait, and when it does not arrive in time. -/

namespace Sys2Proof.Machine

/-! ### The requests with a data stage -/

theorem exec_dfuDnload_of_data {s : State} (h : s.running) (hb : acceptsDnload s.dfu.bState = true) {r : ReqArgs}
    (hpos : 0 < r.wLength.toNat) (hmod : r.wLength.toNat % 4 = 0) (hcap : r.wLength.toNat ≤ s.params.fifoCap) :
    exec (.dfuDnload r) s = .next (seqRecv r.wLength.toNat [.dnloadStore (r.wLength.toNat / 4)] s) := by
  rw [exec, execDfuDnload, unlessEnded_running h]
  simp [hb, hpos.ne', hmod, hcap.not_gt]

theorem exec_cdcSetLineCoding {s : State} (h : s.running) {r : ReqArgs} (hl : r.wLength.toNat = 7) :
    exec (.cdcSetLineCoding r) s = .next (seqRecv r.wLength.toNat [.lineCodingStore] s) := by
  rw [exec, execCdcSetLineCoding, unlessEnded_running h, hl, if_neg (by simp)]

/-! ### The wait, part by part -/

theorem mainStep_waitLoop {s : State} {len polls : Nat} {rest : List MainOp} (hm : s.main = .waitLoop len polls :: rest) :
    mainStep s = some (waitIteration len polls rest s) := by
  rw [mainStep, hm]; rfl

section
variable {s : State} {len polls : Nat} {rest : List MainOp} (hm : s.main = .waitLoop len polls :: rest)
  (hl : (s.ep 0).len < len)
include hm hl

/-- A wait below its bound polls once more, by one `DRAIN 0`. -/
theorem mainStep_waitLoop_poll (hb : s.params.waitBound ≠ some polls) :
    mainStep s = some { cmdDrain 0 s with main := .waitLoop len (polls + 1) :: rest } := by
  have hnot : waitExpired s polls = false := by simpa [waitExpired] using hb
  rw [mainStep_waitLoop hm, waitIteration, if_pos hl, hnot]
  simp [State.setMain]

/-- A wait at its bound times out. -/
theorem mainStep_waitLoop_expired (hb : s.params.waitBound = some polls) :
    mainStep s = some (raise .dataStageTimeout s) := by
  have hexpired : waitExpired s polls = true := by simp [waitExpired, hb]
  rw [mainStep_waitLoop hm, waitIteration, if_pos hl, hexpired, if_pos rfl]

end

/-- What a time-out changes (R188), field by field. -/
theorem raise_dataStageTimeout (s : State) : raise .dataStageTimeout s =
    { s with
      eps := s.eps.set 0 { s.ep 0 with hwStall := true, q := [] }
      pcb := ⟨s.pcb.flags &&& ~~~flagSetupDataAvail, s.pcb.pending &&& ~~~epBit 0, s.pcb.stall ||| epBit 0⟩
      resp := respWord .ok 0, ep0Masked := false, main := [], handling := false } := by
  simp [raise, State.stall, State.setEp, State.setPcb, State.setMain, State.respond, State.ep, Pcb.setStall,
    Pcb.clrFlags, Pcb.clrPending]

/-- Settles O39: the three things the wait can do, and the wait of each of the two requests. -/
theorem dataStageTimeout : Obligations.DataStageTimeout := by
  unfold Obligations.DataStageTimeout
  refine ⟨fun s len rest hm => ?_, fun s t len polls rest hr hm hl hb ht => ?_, fun s len polls rest hm hl hb => ?_,
    fun r s bound hready hx hb hl hcap => ?_⟩
  · rw [mainStep, hm]
    exact mainOp_waitEnter s len rest
  · have htd : t = cmdDrain 0 s := Host.Outcome.next.inj (ht.symm.trans (runCommand_running hr _))
    rw [htd]
    exact mainStep_waitLoop_poll hm hl hb
  · rw [mainStep_waitLoop_expired hm hl hb, raise_dataStageTimeout]
    rfl
  · obtain ⟨⟨hr, -⟩, -, -, -, htx⟩ := id hready
    refine ⟨fun hstate hmod => ?_, fun h7 => ?_⟩
    · obtain ⟨frame, dfu, line, stall, fifo, tx, mask, main, pcb⟩ :=
        seqRecv_timeout hready [.dnloadStore (r.wLength.toNat / 4)] hb hcap hl
      exact ⟨_, exec_dfuDnload_of_data hr (acceptsDnload_iff.mpr hstate) (by omega) hmod hcap, frame, dfu, line, stall,
        fifo, tx.trans htx, mask, main, pcb⟩
    · obtain ⟨frame, dfu, line, stall, fifo, tx, mask, main, pcb⟩ :=
        seqRecv_timeout hready [.lineCodingStore] hb hcap hl
      exact ⟨_, exec_cdcSetLineCoding hr h7, frame, dfu, line, stall, fifo, tx.trans htx, mask, main, pcb⟩

/-! ### What the two requests do with their bytes -/

/-- Bytes `4i` to `4i+3` of a payload are its word `i`, little-endian (spec/20_memory.md R63). -/
theorem getElem?_wordsOfBytes {data : List Byte} {i : Nat} {b0 b1 b2 b3 : Byte} (h0 : data[4 * i]? = some b0)
    (h1 : data[4 * i + 1]? = some b1) (h2 : data[4 * i + 2]? = some b2) (h3 : data[4 * i + 3]? = some b3) :
    (wordsOfBytes data)[i]? = some (b3 ++ b2 ++ b1 ++ b0) := by
  induction i generalizing data with
  | zero =>
    match data with
    | c0 :: c1 :: c2 :: c3 :: rest =>
      cases h0; cases h1; cases h2; cases h3
      rfl
  | succ i ih =>
    match data with
    | c0 :: c1 :: c2 :: c3 :: rest =>
      exact ih h0 h1 h2 h3

/-- R216 and R217: the words lie at the cursor, which advances; a full block resets it and requests a flush. -/
theorem bufferWords_eq (p : Params) (n : Nat) (data : List Byte) (d : Dfu) :
    bufferWords p n data d =
      { d with
        blk := storeWords d.blk d.cursor (wordsOfBytes data)
        cursor := if d.cursor + n = p.blockWords then 0 else d.cursor + n
        flushPending := if d.cursor + n = p.blockWords then true else d.flushPending } := by
  rw [bufferWords]
  dsimp only
  split <;> rfl

theorem dnloadStore_of_fits {n : Nat} {s : State} (h : s.dfu.cursor + n ≤ s.params.blockWords) :
    dnloadStore n s = s.setDfu { bufferWords s.params n s.rdata s.dfu with bState := .dfuDNLOAD_SYNC } := by
  rw [dnloadStore, if_neg h.not_gt]

/-! ### The data stage arrives during the wait -/

/-- The state in which the driver's own part `op` begins, the packets `ps` having arrived during the wait (R184). -/
def State.dataReceived (ps : List (List Byte)) (op : MainOp) (resp : Word) (s : State) : State :=
  { s with
    eps := s.eps.set 0
      { s.ep 0 with toggle := (s.ep 0).toggle ^^ (ps.length % 2 == 1), txPkt := [], underrun := false, txReady := true }
    pcb := { s.pcb with flags := s.pcb.flags &&& ~~~flagSetupDataAvail, pending := s.pcb.pending &&& ~~~epBit 0 }
    ep0Masked := false, resp := resp, main := [op], rdata := ps.flatten, handling := true, sched := [] }

/-- After a driver's own part that changes no field but the driver's. -/
theorem receivedDuringWait {s : State} (hm : s.main = []) (ps : List (List Byte)) (op : MainOp) (resp : Word) (d : Dfu)
    (l : LineCoding) :
    ReceivedDuringWait ps s
      (State.setMain [] { s.dataReceived ps op resp with dfu := d, lineCoding := l }) where
  endpoint := State.ep_setEp_same s 0 _
  others _ hne := State.ep_setEp_of_ne s _ hne
  pcb := rfl
  rest := by simp [State.dataReceived, State.setMain, hm]

/-- Settles O38: the payload is received whole, and the driver's own part stores it. -/
theorem dataStageArrives : Obligations.DataStageArrives := by
  unfold Obligations.DataStageArrives
  intro r s rounds lastRound last ps haw hs hps hlast hne hp hlen hcap hb
  have hreceived (op : MainOp) (d : Dfu) (l : LineCoding)
      (hop : ∀ w, mainOp op [] (s.dataReceived ps op w) =
        some (State.setMain [] { s.dataReceived ps op w with dfu := d, lineCoding := l })) :
      ∃ t, seqRecv r.wLength.toNat [op] s = t ∧ ReceivedDuringWait ps s t ∧ t.dfu = d ∧ t.lineCoding = l := by
    obtain ⟨k, w, hk, hdrive⟩ := seqRecv_rounds haw hs hps hlast hne hp hlen hcap hb [op] (List.cons_ne_nil _ _)
    have hend := drive_last (k := k) (s := s.dataReceived ps op w) rfl rfl haw.1.1 (hop w) rfl (by omega)
    exact ⟨_, hdrive.trans hend, receivedDuringWait haw.2.1 ps op w d l, rfl, rfl⟩
  refine ⟨fun n hstate h4n hfits hblk => ?_, fun b0 b1 b2 b3 b4 b5 b6 hbytes => ?_⟩
  · have hpos : 0 < ps.flatten.length := by
      rw [hps, arrivals, List.filterMap_append]
      simp [hlast, List.length_pos_iff.mpr hne]
    have hexec := exec_dfuDnload_of_data haw.1 (acceptsDnload_iff.mpr hstate) (hlen ▸ hpos) (by omega) hcap
    rw [show r.wLength.toNat / 4 = n by omega] at hexec
    obtain ⟨t, ht, hframe, hdfu, hline⟩ := hreceived (.dnloadStore n)
      { bufferWords s.params n ps.flatten s.dfu with bState := .dfuDNLOAD_SYNC } s.lineCoding fun w => by
        rw [mainOp, dnloadStore_of_fits (s := s.dataReceived ps (.dnloadStore n) w) hfits]
        rfl
    rw [bufferWords_eq] at hdfu
    have hwords := wordsOfBytes_length n ps.flatten (hlen.trans h4n)
    refine ⟨t, by rw [hexec, ht], hframe, hline, by rw [hdfu], fun i b0 b1 b2 b3 hi h0 h1 h2 h3 => ?_, fun j hj => ?_⟩
    · rw [hdfu, getElem?_storeWords _ _ _ _ (hwords.symm ▸ hi) (by omega)]
      exact getElem?_wordsOfBytes h0 h1 h2 h3
    · rw [hdfu]
      exact getElem?_storeWords_of_outside _ _ _ _ (by rw [hwords]; exact hj)
  · have h7 : r.wLength.toNat = 7 := by rw [← hlen, hbytes]; rfl
    obtain ⟨t, ht, hframe, hdfu, hline⟩ := hreceived .lineCodingStore s.dfu ⟨b0, b1, b2, b3, b4, b5, b6⟩ fun w => by
      show some (State.setMain [] { s.dataReceived ps .lineCodingStore w with
        lineCoding := lineCodingOfBytes s.lineCoding ps.flatten }) = _
      rw [hbytes]
      rfl
    exact ⟨t, by rw [exec_cdcSetLineCoding haw.1 h7, ht], hframe, hdfu, hline⟩

end Sys2Proof.Machine
end

