-- ==== Sys2Proof/Proofs/RejectedRequests.lean ====
section
/-! The requests that the two drivers reject (spec/42_control_sequencer.md R186): each runs `SEQ_REJECT` alone. -/

namespace Sys2Proof.Machine

/-- `SEQ_REJECT` (R186), field by field. -/
theorem seqReject_eq (s : State) : seqReject s =
    { s with
      eps := s.eps.set 0 { s.ep 0 with hwStall := true }
      pcb := { s.pcb with stall := s.pcb.stall ||| 1#16 }
      resp := respWord .ok 0 } := rfl

/-! ### The requests that are rejected in every state -/

section
variable {s : State} (h : s.running)
include h

theorem exec_dfuUpload (r : ReqArgs) : exec (.dfuUpload r) s = .next (seqReject s) := by
  rw [exec, execDfuUpload, unlessEnded_running h]

theorem exec_dfuDetach (r : ReqArgs) : exec (.dfuDetach r) s = .next (seqReject s) := by
  rw [exec, execDfuDetach, unlessEnded_running h]

theorem exec_dfuReject (bm br : Byte) (r : ReqArgs) : exec (.dfuReject bm br r) s = .next (seqReject s) := by
  rw [exec, execDfuReject, unlessEnded_running h]

theorem exec_cdcReject (bm br : Byte) (r : ReqArgs) : exec (.cdcReject bm br r) s = .next (seqReject s) := by
  rw [exec, execCdcReject, unlessEnded_running h]

/-! ### The requests whose state or length is checked first -/

/-- A `DFU_DNLOAD` in a state that accepts none (spec/44_dfu_controller.md R220). -/
theorem exec_dfuDnload_of_not_accepts (r : ReqArgs) (hb : acceptsDnload s.dfu.bState = false) :
    exec (.dfuDnload r) s = .next (seqReject s) := by
  rw [exec, execDfuDnload, unlessEnded_running h]
  simp [hb]

/-- A `DFU_DNLOAD` whose length is no whole number of words or does not fit the FIFO is rejected whatever the state
(R215). -/
theorem exec_dfuDnload_of_bad_length {r : ReqArgs} (hl : r.wLength.toNat % 4 ≠ 0 ∨ s.params.fifoCap < r.wLength.toNat)
    (h0 : r.wLength.toNat ≠ 0) : exec (.dfuDnload r) s = .next (seqReject s) := by
  cases hb : acceptsDnload s.dfu.bState with
  | false => exact exec_dfuDnload_of_not_accepts h r hb
  | true =>
    rw [exec, execDfuDnload, unlessEnded_running h]
    simp only [hb, Bool.not_true, Bool.false_eq_true, if_false, if_neg h0, if_pos hl]

theorem exec_dfuClrstatus_of_not_error (r : ReqArgs) (hb : s.dfu.bState ≠ .dfuERROR) :
    exec (.dfuClrstatus r) s = .next (seqReject s) := by
  rw [exec, execDfuClrstatus, unlessEnded_running h, if_neg hb]

/-- A `SET_LINE_CODING` whose length is not 7 (spec/43_cdc_client.md R198), or whose data stage does not fit the FIFO
(spec/42_control_sequencer.md R184). -/
theorem exec_cdcSetLineCoding_of_bad_length {r : ReqArgs} (hl : r.wLength.toNat ≠ 7 ∨ s.params.fifoCap < 7) :
    exec (.cdcSetLineCoding r) s = .next (seqReject s) := by
  by_cases h7 : r.wLength.toNat = 7
  · have hcap : s.params.fifoCap < r.wLength.toNat := h7.symm ▸ hl.resolve_left (not_not_intro h7)
    rw [exec_cdcSetLineCoding h h7, seqRecv, if_pos hcap]
  · rw [exec, execCdcSetLineCoding, unlessEnded_running h, if_pos h7]

end

/-! ### The statement -/

/-- Settles O31: every rejected request has the one next state of `SEQ_REJECT`. -/
theorem rejectedRequests : Obligations.RejectedRequests := by
  unfold Obligations.RejectedRequests
  intro s t h ht r bm br
  obtain rfl : t = seqReject s := ht.trans (seqReject_eq s).symm
  refine ⟨exec_dfuUpload h r, exec_dfuDetach h r, exec_dfuReject h bm br r, exec_cdcReject h bm br r,
    fun hidle hdnload => exec_dfuDnload_of_not_accepts h r ?_, exec_dfuDnload_of_bad_length h,
    exec_dfuClrstatus_of_not_error h r, exec_cdcSetLineCoding_of_bad_length h⟩
  exact Bool.eq_false_iff.mpr fun ha => (acceptsDnload_iff.mp ha).elim hidle hdnload

end Sys2Proof.Machine
end

