-- ==== Sys2Proof/Proofs/LineCoding.lean ====
section
/-! The requests of the CDC client that are not rejected (spec/43_cdc_client.md R197 to R199), and what the host gets back
(R204). -/

namespace Sys2Proof.Machine

/-! ### `SEQ_RECV` of a data stage that has arrived -/

/-- The state in which the driver's own part `op` begins, the first `n` bytes of the FIFO having been read
(spec/42_control_sequencer.md R184). -/
def State.dataRead (n : Nat) (op : MainOp) (resp : Word) (s : State) : State :=
  { s with
    eps := s.eps.set 0 { s.ep 0 with q := (s.ep 0).q.drop n, txPkt := [], underrun := false, txReady := true }
    pcb := if (s.ep 0).len = n then
        { s.pcb with flags := s.pcb.flags &&& ~~~flagSetupDataAvail, pending := s.pcb.pending &&& ~~~epBit 0 }
      else s.pcb
    ep0Masked := false, resp := resp, main := [op], rdata := (s.ep 0).q.take n, handling := true }

/-- A driver's own part `op` that changes no field but the driver's ends a request whose `n` bytes had arrived. -/
theorem seqRecv_arrived {s : State} (h : s.readyForRequest) {n : Nat} (hcap : n ≤ s.params.fifoCap)
    (hl : n ≤ (s.ep 0).len) {op : MainOp} {d : Dfu} {l : LineCoding}
    (hop : ∀ w, mainOp op [] (s.dataRead n op w) =
      some (State.setMain [] { s.dataRead n op w with dfu := d, lineCoding := l })) :
    QuietFrame s (seqRecv n [op] s) ∧ Received n s (seqRecv n [op] s) ∧ (seqRecv n [op] s).dfu = d ∧
      (seqRecv n [op] s).lineCoding = l := by
  obtain ⟨k, w, hk, hdrive⟩ := seqRecv_ready h n [op] (List.cons_ne_nil _ _) hcap hl
  obtain ⟨⟨⟨hh, -⟩, -, hs⟩, -⟩ := h
  have hend := drive_last (k := k) (s := s.dataRead n op w) rfl hs hh (hop w) rfl (by omega)
  rw [hdrive.trans hend]
  exact ⟨⟨⟨rfl, rfl, fun _ hne => State.ep_setEp_of_ne s _ hne, rfl, rfl, rfl⟩, fun _ => rfl, rfl, rfl, rfl, rfl⟩,
    ⟨State.ep_setEp_same s 0 _, rfl, rfl, rfl, rfl⟩, rfl, rfl⟩

/-! ### The three requests -/

/-- Settles O32: the acknowledgement is all that the handler does. -/
theorem controlLineState : Obligations.ControlLineState := by
  unfold Obligations.ControlLineState
  intro r s h
  obtain ⟨k, -, hack⟩ := seqAck_ready h []
  obtain ⟨⟨hr, hm, -⟩, -⟩ := h
  rw [exec_cdcSetControlLineState hr, hack, drive_done rfl, List.isEmpty_nil, Bool.not_true, ← hm]

/-- Settles O45: the response is sent as any other (spec/42_control_sequencer.md R185). -/
theorem getLineCoding : Obligations.GetLineCoding := by
  unfold Obligations.GetLineCoding
  intro r s h hroom
  obtain ⟨hframe, hsent, hdfu, hline⟩ := seqSend_ready h (lineCodingBytes s.lineCoding) (List.cons_ne_nil _ _) hroom
  exact ⟨_, exec_cdcGetLineCoding h.1.1 r, hframe, hdfu, hline, hsent⟩

/-- Settles O46: the driver's own part takes the seven bytes that `SEQ_RECV` has read. -/
theorem setLineCoding : Obligations.SetLineCoding := by
  unfold Obligations.SetLineCoding
  intro r s b0 b1 b2 b3 b4 b5 b6 rest h hlen hcap hq
  have h7 : r.wLength.toNat = 7 := by rw [hlen]; rfl
  obtain ⟨hframe, hreceived, hdfu, hline⟩ := seqRecv_arrived h hcap (n := 7) (op := .lineCodingStore) (d := s.dfu)
    (l := ⟨b0, b1, b2, b3, b4, b5, b6⟩) (by simp [Endpoint.len, hq]) fun w => by
      show some (State.setMain [] { s.dataRead 7 .lineCodingStore w with
        lineCoding := lineCodingOfBytes s.lineCoding ((s.ep 0).q.take 7) }) = _
      rw [hq]
      rfl
  exact ⟨_, by rw [exec_cdcSetLineCoding h.1.1 h7, h7], hframe, hdfu, hreceived, hline⟩

/-! ### What was set is what is got -/

/-- The host takes the packet that a request has left: endpoint 0 is ready for the next request. -/
theorem wireTake_after_request {s t : State} {q pkt : List Byte} (h : s.readyForRequest)
    (hen : (s.ep 0).hwEn = true) (hst : (s.ep 0).hwStall = false) (hframe : QuietFrame s t) (hdfu : t.dfu = s.dfu)
    (hm : t.main = [])
    (hep : t.ep 0 = { s.ep 0 with q := q, underrun := false, txReady := true, txPkt := pkt }) :
    (agentStep (.wireTake 0) t).readyForRequest ∧
      (agentStep (.wireTake 0) t).ep 0 =
        { s.ep 0 with q := q, underrun := false, txReady := false, txPkt := pkt, toggle := !(s.ep 0).toggle } ∧
      (agentStep (.wireTake 0) t).events = s.events ++ [.hostReceives 0 pkt] := by
  obtain ⟨⟨⟨hh, hb⟩, -, hs⟩, hn, hc, hx, -⟩ := h
  have hr : t.running := ⟨hframe.halted.trans hh, by rw [hdfu, hb]⟩
  have hnt : 0 < t.params.numEps := by rw [hframe.params]; exact hn
  have hw : agentEnabled (.wireTake 0) t = true :=
    wireTake_enabled hr hnt (by rw [hep]; exact .inl hx) (by rw [hep, hen]) (by rw [hep, hst]) (by rw [hep])
  have ho := agentStep_mainOwned (.wireTake 0) t
  have hve := ep_wireTake hw
  rw [hep] at hve
  refine ⟨⟨⟨wireTake_running hr hw, ho.main.trans hm, ho.sched.trans (hframe.sched.trans hs)⟩, ?_, ?_, ?_, ?_⟩, hve, ?_⟩
  · rw [ho.params]; exact hnt
  · rw [hve, hc]
  · rw [hve, hx]
  · rw [hve]
  · rw [events_wireTake hw, hframe.events, hep]

/-- Settles O47: the host takes the acknowledgement of the one request, then the one packet of the other's response. -/
theorem lineCodingRoundTrip : Obligations.LineCodingRoundTrip := by
  unfold Obligations.LineCodingRoundTrip
  intro r r' s data h hlen hcap hmps hen hst _ hdata hq
  match data, hdata with
  | [b0, b1, b2, b3, b4, b5, b6], _ =>
    obtain ⟨t, hset, hframe, hdfu, hreceived, hline⟩ := setLineCoding r s b0 b1 b2 b3 b4 b5 b6 [] h hlen hcap hq
    obtain ⟨hready, hep, hevents⟩ :=
      wireTake_after_request h hen hst hframe hdfu hreceived.main hreceived.endpoint
    have ho := agentStep_mainOwned (.wireTake 0) t
    have hline' := ho.lineCoding.trans hline
    have hparams := ho.params.trans hframe.params
    set v := agentStep (.wireTake 0) t
    have hempty : (v.ep 0).q = [] := by rw [hep, hq]; rfl
    have hsize : (v.ep 0).mps = (s.ep 0).mps := by rw [hep]
    obtain ⟨u, hget, hframe', hdfu', -, hsent⟩ := getLineCoding r' v hready
      (by rw [Endpoint.len, hempty, hparams]; exact hcap)
    -- the seven bytes fit one packet, so the handler has returned
    have hmain := hsent.main
    rw [hempty, if_pos (by rw [hsize]; exact hmps)] at hmain
    obtain ⟨-, -, hevents'⟩ :=
      wireTake_after_request hready (by rw [hep, hen]) (by rw [hep, hst]) hframe' hdfu' hmain hsent.endpoint
    refine ⟨t, u, hset, hget, ?_⟩
    rw [hevents', hevents, hempty, hsize, hline', List.nil_append, List.take_of_length_le hmps, List.append_assoc]
    rfl

end Sys2Proof.Machine
end

