-- ==== Sys2Proof/Proofs/CdcCalls.lean ====
section
/-! The calls of the CDC client that have no encoding (spec/43_cdc_client.md R201 to R203): the procedures of MAIN that are
no class request, run undisturbed. -/

namespace Sys2Proof.Machine

/-! ### Items and procedures -/

theorem mainTurn_of_item {s : State} {it : MainItem} {items : List MainItem} (hm : s.main = [])
    (hp : s.program = it :: items) : mainTurn s = runItem it { s with program := items } := by
  rw [mainTurn, if_pos (by simp [hm]), hp]

/-- MAIN between handlers, with nobody scheduled, takes the dispatcher's next item. -/
theorem step_of_item {s : State} {it : MainItem} {items : List MainItem} (h : s.quiet) (hp : s.program = it :: items) :
    step s = runItem it { s with program := items } := by
  obtain ⟨hr, hm, hs⟩ := h
  rw [step_of_sched_nil hr hs, mainTurn_of_item hm hp]

/-- A procedure of at most 32 parts that returns, started between handlers. -/
theorem runProcedure_of_runs {n : Nat} {s t : State} {ops : List MainOp} (hm : s.main = [])
    (hr : Runs n { s with main := ops, rdata := [] } t) (ht : t.main = []) (hn : n ≤ 32) : runProcedure ops s = t := by
  rw [runProcedure, hm, List.append_nil, resume]
  exact drive_runs_done hr ht (hn.trans (le_driveFuel _))

theorem State.setMain_of_ne_nil {ops : List MainOp} (h : ops ≠ []) (s : State) :
    s.setMain ops = { s with main := ops } := by
  simp [State.setMain, h]

theorem State.setMain_nil (s : State) : s.setMain [] = { s with main := [], handling := false } := by
  simp [State.setMain]

/-! ### `PUTCHAR` -/

/-- What `PUTCHAR c` writes (R201). -/
def putcharBytes (c : Byte) : List Byte := if c = asciiLF then [c, asciiCR] else [c]

theorem putcharBytes_length_le (c : Byte) : (putcharBytes c).length ≤ 2 := by
  unfold putcharBytes
  split <;> simp

theorem putcharOps_eq (p : Params) (c : Byte) :
    putcharOps p c = (putcharBytes c).map (MainOp.write p.epCdcIn) ++ [.flush p.epCdcIn] := by
  unfold putcharOps putcharBytes
  split <;> rfl

/-- Writes to any endpoint where there is room, one part for each byte (spec/40_fifo_core.md R122). -/
theorem runs_writes_to (e : EpNum) (bytes : List Byte) {s : State} {ops : List MainOp} (hops : ops ≠ [])
    (hm : s.main = bytes.map (MainOp.write e) ++ ops) (hs : s.sched = []) (hh : s.halted = false)
    (he : s.hasEp e = true) (hc : (s.ep e).cfgValid = true) (hl : (s.ep e).len + bytes.length ≤ s.params.fifoCap) :
    ∃ r, Runs bytes.length s
      { s with eps := s.eps.set e.val { s.ep e with q := (s.ep e).q ++ bytes }, resp := r, main := ops } := by
  induction bytes generalizing s with
  | nil =>
    have heps : s.eps.set e.val { s.ep e with q := (s.ep e).q ++ [] } = s.eps := by
      rw [List.append_nil]; exact s.eps_set_self e
    have hops' : ops = s.main := hm.symm
    exact ⟨s.resp, by rw [heps, hops']; exact .refl s⟩
  | cons b bytes ih =>
    rw [List.length_cons] at hl
    have hwrite : mainOp (.write e b) (bytes.map (MainOp.write e) ++ ops) s = some
        { s with
          eps := s.eps.set e.val { s.ep e with q := (s.ep e).q ++ [b] }, resp := respWord .ok 0
          main := bytes.map (MainOp.write e) ++ ops } := by
      rw [mainOp, cmdWrite_performed b he hc (by omega),
        State.setMain_of_ne_nil (List.append_ne_nil_of_right_ne_nil _ hops)]
      rfl
    set u : State := { s with
      eps := s.eps.set e.val { s.ep e with q := (s.ep e).q ++ [b] }, resp := respWord .ok 0
      main := bytes.map (MainOp.write e) ++ ops }
    have hue : u.ep e = { s.ep e with q := (s.ep e).q ++ [b] } := State.ep_setEp_same s e _
    have hlen : (u.ep e).len = (s.ep e).len + 1 := by rw [hue]; exact List.length_append
    obtain ⟨r, hr⟩ := ih (s := u) rfl hs hh he (by rw [hue]; exact hc)
      (by rw [hlen]; show _ ≤ s.params.fifoCap; omega)
    have heps : u.eps.set e.val { s.ep e with q := (s.ep e).q ++ [b] ++ bytes } =
        s.eps.set e.val { s.ep e with q := (s.ep e).q ++ b :: bytes } := by
      rw [List.append_assoc]; exact s.eps_set_set e _ _
    rw [hue, heps] at hr
    refine ⟨r, ?_⟩
    rw [List.length_cons, Nat.add_comm]
    exact (Runs.one hm hs hh hwrite).trans hr

/-- The one `FLUSH` that ends the procedure (R124). -/
theorem mainOp_flush_performed {s : State} {e : EpNum} (he : s.hasEp e = true) (hc : (s.ep e).cfgValid = true)
    (hd : (s.ep e).maySend = true) (ht : (s.ep e).txReady = false) :
    mainOp (.flush e) [] s = some
      { s with
        eps := s.eps.set e.val
          { s.ep e with txPkt := (s.ep e).q.take (s.ep e).mps.toNat, q := (s.ep e).q.drop (s.ep e).mps.toNat,
                        underrun := false, txReady := true }
        resp := respWord .ok (countData (min (s.ep e).len (s.ep e).mps.toNat)), main := [], handling := false } := by
  rw [mainOp, cmdFlush_performed he hc hd ht, Option.map_some, State.setMain_nil]
  simp only [Endpoint.len, take_min_length, drop_min_length]
  rfl

/-- Settles O48: on an enumerated device the bytes are written behind the queue, then one packet is marked ready. -/
theorem putchar : Obligations.Putchar := by
  unfold Obligations.Putchar
  intro c s items hq hp
  have hstep : step s = .next (callPutchar c { s with program := items }) := step_of_item hq hp
  obtain ⟨⟨hh, -⟩, hm, hs⟩ := hq
  refine ⟨fun hen => ?_, fun e out hen hein hn hc hd ht hroom hout => ?_⟩
  · rw [hstep, callPutchar, if_neg (by simp [hen])]
  · subst hein
    set e := s.params.epCdcIn
    have hout' : out = (s.ep e).q ++ putcharBytes c := hout
    have he : s.hasEp e = true := (State.hasEp_iff s e).mpr hn
    have hbytes := putcharBytes_length_le c
    rw [hstep, callPutchar, if_pos hen, putcharOps_eq]
    obtain ⟨r, hwrites⟩ := runs_writes_to e (putcharBytes c) (ops := [.flush e])
      (s := { s with
        program := items, rdata := [], main := (putcharBytes c).map (MainOp.write e) ++ [.flush e] })
      (List.cons_ne_nil _ _) rfl hs hh he hc (show (s.ep e).len + _ ≤ s.params.fifoCap by omega)
    set u : State := { s with
      program := items, rdata := [], main := [.flush e], resp := r
      eps := s.eps.set e.val { s.ep e with q := (s.ep e).q ++ putcharBytes c } }
    have hue : u.ep e = { s.ep e with q := out } := by rw [hout']; exact State.ep_setEp_same s e _
    have hflush := mainOp_flush_performed (s := u) he (by rw [hue]; exact hc)
      (by rw [hue]; exact Endpoint.maySend_iff.mpr hd) (by rw [hue]; exact ht)
    have heps (x : Endpoint) : u.eps.set e.val x = s.eps.set e.val x := s.eps_set_set e _ _
    rw [hue, heps] at hflush
    have hruns := hwrites.trans (Runs.one (s := u) rfl hs hh hflush)
    refine congrArg _ ((runProcedure_of_runs (s := { s with program := items }) hm hruns rfl (by omega)).trans ?_)
    simp only [u, hm, Endpoint.len, countData]

/-! ### The callbacks -/

/-- A `CONFIGURE` whose arguments are legal (spec/40_fifo_core.md R121). -/
theorem cmdConfigure_performed {s : State} {e : EpNum} {ty : XferType} {mps : BitVec 11} (dir : Dir)
    (he : s.hasEp e = true) (hbad : badConfigure s.params.fifoCap e ty mps = false) :
    cmdConfigure e ty dir mps s = { s with
      eps := s.eps.set e.val ((s.ep e).configured ty dir mps), pcb := s.pcb.clrPending e, resp := respWord .ok 0 } := by
  rw [cmdConfigure, onEndpoint_of_hasEp _ he, if_neg (by simp [hbad])]
  rfl

/-- The CDC client's initialisation configures two different endpoints. -/
theorem runs_initCallback {s : State} {ei eo : EpNum} {mps : BitVec 11}
    (hm : s.main = [.configure ei .bulk .inn mps, .configure eo .bulk .out mps]) (hs : s.sched = [])
    (hh : s.halted = false) (hi : s.hasEp ei = true) (ho : s.hasEp eo = true) (hne : eo ≠ ei)
    (hbi : badConfigure s.params.fifoCap ei .bulk mps = false)
    (hbo : badConfigure s.params.fifoCap eo .bulk mps = false) :
    Runs 2 s { s with
      eps := (s.eps.set ei.val ((s.ep ei).configured .bulk .inn mps)).set eo.val ((s.ep eo).configured .bulk .out mps)
      pcb := (s.pcb.clrPending ei).clrPending eo, resp := respWord .ok 0, main := [], handling := false } := by
  set u : State := { s with
    eps := s.eps.set ei.val ((s.ep ei).configured .bulk .inn mps), pcb := s.pcb.clrPending ei
    resp := respWord .ok 0, main := [.configure eo .bulk .out mps] }
  have hin : mainOp (.configure ei .bulk .inn mps) [.configure eo .bulk .out mps] s = some u := by
    rw [mainOp, cmdConfigure_performed _ hi hbi, State.setMain_of_ne_nil (List.cons_ne_nil _ _)]
  have hue : u.ep eo = s.ep eo := State.ep_setEp_of_ne s _ hne
  have hout := cmdConfigure_performed (s := u) .out ho hbo
  rw [hue] at hout
  refine (Runs.one hm hs hh hin).trans (Runs.one (s := u) rfl hs hh ?_)
  rw [mainOp, hout, State.setMain_nil]

/-- Settles O49: legal parameters pass the checks of both `CONFIGURE` commands; the other two callbacks run no command. -/
theorem callbacks : Obligations.Callbacks := by
  unfold Obligations.Callbacks
  refine ⟨fun s items configured hq hlegal hp hconf => ?_, fun s items hq hp => step_of_item hq hp,
    fun s items hq hp => step_of_item hq hp⟩
  have hstep : step s = .next (callInit .cdc { s with program := items }) := step_of_item hq hp
  obtain ⟨⟨hh, -⟩, hm, hs⟩ := hq
  obtain ⟨-, -, -, -, -, -, hin, hinEp, hout, houtEp, hne, hmps, hcap⟩ := hlegal
  have hbad {e : EpNum} (he : 1 ≤ e.val) : badConfigure s.params.fifoCap e .bulk s.params.cdcMps = false := by
    rw [← Bool.not_eq_true, badConfigure_iff]
    rintro (hzero | hlarge | ⟨rfl, -⟩)
    · omega
    · omega
    · exact Nat.not_succ_le_zero 0 he
  have hruns := runs_initCallback (s := { s with
      program := items, rdata := []
      main := [.configure s.params.epCdcIn .bulk .inn s.params.cdcMps,
        .configure s.params.epCdcOut .bulk .out s.params.cdcMps] })
    rfl hs hh ((State.hasEp_iff s _).mpr hinEp) ((State.hasEp_iff s _).mpr houtEp) hne (hbad hin) (hbad hout)
  rw [hstep, hconf, callInit, runProcedure_of_runs (s := { s with program := items }) hm hruns rfl (by omega), ← hm]
  rfl

end Sys2Proof.Machine
end

