-- ==== Sys2Proof/Proofs/DfuRecord.lean ====
section
/-! What a handler can do to the DFU controller's record: only the parts that end a DFU request change it, and its block only
the part that buffers a payload (spec/44_dfu_controller.md R215 to R219, R225, R226). -/

namespace Sys2Proof.Machine

/-! ### One part of a handler -/

/-- A part that buffers no payload. -/
def MainOp.KeepsBlk (op : MainOp) : Prop := ∀ n, op ≠ .dnloadStore n

theorem MainOp.keepsBlk_of_not_endsDfu {op : MainOp} (h : op.endsDfu = false) : op.KeepsBlk := by
  rintro n rfl; cases h

/-- What part `op` of a handler, with `rest` to follow, can do to the DFU controller's record and to what MAIN still has to
do. -/
structure PartEffect (op : MainOp) (rest : List MainOp) (s t : State) : Prop where
  main : ∀ o ∈ t.main, o ∈ rest ∨ o.endsDfu = false
  dfu : op.endsDfu = false → t.dfu = s.dfu
  blk : op.KeepsBlk → t.dfu.blk = s.dfu.blk

/-- A part that keeps the record and goes on with new parts, none of which ends a DFU request. -/
theorem PartEffect.goOn {op : MainOp} {rest : List MainOp} {s t : State} (hd : t.dfu = s.dfu) (new : List MainOp)
    (hn : ∀ o ∈ new, o.endsDfu = false) : PartEffect op rest s (t.setMain (new ++ rest)) where
  main o ho := (List.mem_append.mp ho).symm.imp_right (hn o)
  dfu _ := hd
  blk _ := congrArg Dfu.blk hd

theorem PartEffect.next {op : MainOp} {rest : List MainOp} {s t : State} (hd : t.dfu = s.dfu) :
    PartEffect op rest s (t.setMain rest) := .goOn hd [] nofun

/-- A part that ends a DFU request. -/
theorem PartEffect.ended {op : MainOp} {rest : List MainOp} {s t : State} (he : op.endsDfu = true)
    (hb : op.KeepsBlk → t.dfu.blk = s.dfu.blk) : PartEffect op rest s (t.setMain rest) where
  main _ ho := .inl ho
  dfu h := by rw [he] at h; cases h
  blk := hb

theorem dnloadEnd_blk (s : State) : (dnloadEnd s).dfu.blk = s.dfu.blk := by
  unfold dnloadEnd; split <;> rfl

theorem waitIteration_partEffect (len i : Nat) (rest : List MainOp) (s : State) :
    PartEffect (.waitLoop len i) rest s (waitIteration len i rest s) := by
  unfold waitIteration
  split
  · split
    · exact ⟨nofun, fun _ => rfl, fun _ => rfl⟩
    · exact .goOn (cmdDrain_sameBut 0 s).dfu [.waitLoop len (i + 1)] (by simp [MainOp.endsDfu])
  · exact .next rfl

theorem mainOp_partEffect {op : MainOp} {rest : List MainOp} {s t : State} (ht : mainOp op rest s = some t) :
    PartEffect op rest s t := by
  cases op with
  | write e b => cases ht; exact .next (cmdWrite_sameBut e b s).dfu
  | read0 =>
    cases ht
    obtain ⟨-, -, -, hkeep, -⟩ := keepByte_same (cmdRead 0 s)
    exact .next (hkeep.trans (cmdRead_sameBut 0 s).dfu)
  | flush e => obtain ⟨u, hu, rfl⟩ := Option.map_eq_some_iff.mp ht; exact .next (cmdFlush_sameBut hu).dfu
  | zlpAck => obtain ⟨u, hu, rfl⟩ := Option.map_eq_some_iff.mp ht; exact .next (cmdZlpAck_sameBut hu).dfu
  | flagClr mask => cases ht; exact .next rfl
  | pendClr e => cases ht; exact .next (cmdPendClr_sameBut e s).dfu
  | configure e ty dir mps => cases ht; exact .next (cmdConfigure_sameBut e ty dir mps s).dfu
  | waitEnter len =>
    cases ht
    exact .goOn (s := s) (t := { s with ep0Masked := true }) rfl [.waitLoop len 0] (by simp [MainOp.endsDfu])
  | waitLoop len i => cases ht; exact waitIteration_partEffect len i rest s
  | clearIfDrained =>
    rw [mainOp] at ht
    cases ht
    split
    · exact .goOn rfl [.flagClr flagSetupDataAvail, .pendClr 0] (by simp [MainOp.endsDfu])
    · exact .next rfl
  | sendLoop =>
    rw [mainOp] at ht
    cases ht
    split
    · exact .goOn rfl [.flush 0, .sendLoop] (by simp [MainOp.endsDfu])
    · exact .next rfl
  | dnloadStore n => cases ht; exact .ended rfl fun h => absurd rfl (h n)
  | dnloadEnd => cases ht; exact .ended rfl fun _ => dnloadEnd_blk s
  | clrstatusEnd | abortEnd => cases ht; exact .ended rfl fun _ => rfl
  | lineCodingStore => cases ht; exact .next rfl

/-! ### A handler's run -/

section
variable {α : Type} (f : Dfu → α) {allowed : MainOp → Prop} (hnew : ∀ op : MainOp, op.endsDfu = false → allowed op)
  (hpart : ∀ {op : MainOp} {rest : List MainOp} {s t : State}, allowed op → PartEffect op rest s t → f t.dfu = f s.dfu)
include hnew hpart

theorem mainStep_dfu_of_allowed {s t : State} (h : ∀ op ∈ s.main, allowed op) (ht : mainStep s = some t) :
    f t.dfu = f s.dfu ∧ ∀ op ∈ t.main, allowed op := by
  unfold mainStep at ht
  split at ht
  · cases ht
  · next op rest hm =>
    rw [hm] at h
    obtain ⟨hop, hrest⟩ := List.forall_mem_cons.mp h
    have hp := mainOp_partEffect ht
    exact ⟨hpart hop hp, fun o ho => (hp.main o ho).elim (hrest o) (hnew o)⟩

/-- What `f` says of the record, a handler whose parts are all `allowed` keeps, since its parts add none that is not,
whoever steps in its gaps. -/
theorem drive_dfu_of_allowed (fuel : Nat) {s : State} (h : ∀ op ∈ s.main, allowed op) :
    f (drive fuel s).dfu = f s.dfu := by
  induction fuel generalizing s with
  | zero => rfl
  | succ fuel ih =>
    unfold drive
    split
    · rfl
    · split
      · next a slots _ =>
        have ho := agentStep_mainOwned a { s with sched := slots }
        rw [ih (by rw [ho.main]; exact h), ho.dfu]
      · next slots _ =>
        cases hs : mainStep { s with sched := slots } with
        | none => exact ih (s := { s with sched := slots }) h
        | some t =>
          obtain ⟨hd, hm⟩ := mainStep_dfu_of_allowed f hnew hpart (s := { s with sched := slots }) h hs
          exact (ih hm).trans hd
      · split
        · next hs =>
          obtain ⟨hd, hm⟩ := mainStep_dfu_of_allowed f hnew hpart h hs
          exact (ih hm).trans hd
        · rfl

end

/-- A handler with no part that ends a DFU request keeps the whole record. -/
theorem drive_dfu (fuel : Nat) {s : State} (h : ∀ op ∈ s.main, op.endsDfu = false) : (drive fuel s).dfu = s.dfu :=
  drive_dfu_of_allowed id (fun _ h => h) (fun hop hp => hp.dfu hop) fuel h

/-- A handler that buffers no payload keeps the block. -/
theorem drive_blk (fuel : Nat) {s : State} (h : ∀ op ∈ s.main, op.KeepsBlk) : (drive fuel s).dfu.blk = s.dfu.blk :=
  drive_dfu_of_allowed Dfu.blk (fun _ => MainOp.keepsBlk_of_not_endsDfu) (fun hop hp => hp.blk hop) fuel h

section
variable {s : State} (hm : s.main = [])
include hm

theorem runHandler_dfu {ops : List MainOp} (h : ∀ op ∈ ops, op.endsDfu = false) : (runHandler ops s).dfu = s.dfu :=
  drive_dfu _ (s := { s with main := ops ++ s.main, rdata := [], handling := true })
    (by simpa [hm] using h)

theorem runHandler_blk {ops : List MainOp} (h : ∀ op ∈ ops, op.KeepsBlk) : (runHandler ops s).dfu.blk = s.dfu.blk :=
  drive_blk _ (s := { s with main := ops ++ s.main, rdata := [], handling := true })
    (by simpa [hm] using h)

theorem runProcedure_dfu {ops : List MainOp} (h : ∀ op ∈ ops, op.endsDfu = false) : (runProcedure ops s).dfu = s.dfu :=
  drive_dfu _ (s := { s with main := ops ++ s.main, rdata := [] })
    (by simpa [hm] using h)

/-- Sending a response (spec/42_control_sequencer.md R185). -/
theorem seqSend_dfu (bytes : List Byte) : (seqSend bytes s).dfu = s.dfu :=
  runHandler_dfu hm fun op ho => by
    simp only [sendOps, List.mem_append, List.mem_map, List.mem_singleton] at ho
    rcases ho with ⟨b, -, rfl⟩ | rfl <;> rfl

/-- Acknowledging (R183). -/
theorem seqAck_blk {after : List MainOp} (h : ∀ op ∈ after, op.KeepsBlk) : (seqAck after s).dfu.blk = s.dfu.blk :=
  runHandler_blk hm (List.forall_mem_cons.mpr ⟨MainOp.keepsBlk_of_not_endsDfu rfl, h⟩)

/-- Receiving a data stage (R184). -/
theorem seqRecv_dfu (len : Nat) {after : List MainOp} (h : ∀ op ∈ after, op.endsDfu = false) :
    (seqRecv len after s).dfu = s.dfu := by
  unfold seqRecv; split
  · rfl
  · refine runHandler_dfu hm fun op ho => ?_
    simp only [recvOps, List.mem_cons, List.mem_append] at ho
    rcases ho with rfl | rfl | ho | rfl | ho
    · rfl
    · rfl
    · rw [List.eq_of_mem_replicate ho]; rfl
    · rfl
    · exact h op ho

end

end Sys2Proof.Machine
end

