-- ==== Sys2Proof/Proofs/DfuReports.lean ====
section
/-! The two requests that report the state of the DFU controller: `DFU_GETSTATUS` (spec/44_dfu_controller.md R221, R222),
which is the transition, the block flush when one is pending (R232, R233, R235), then the response or the boot jump (R234),
and `DFU_GETSTATE` (R223). -/

namespace Sys2Proof.Machine

/-! ### The requests -/

theorem exec_dfuGetstate {s : State} (h : s.running) (r : ReqArgs) :
    exec (.dfuGetstate r) s = .next (seqSend (stateBytes s.params s.dfu) s) := by
  rw [exec, execDfuGetstate, unlessEnded_running h]

/-- A flush whose target address would reach 2^32 is refused (R235, log 15). -/
theorem exec_dfuGetstatus_refused {s : State} (h : s.running) (hp : s.dfu.flushPending = true)
    (hn : 2 ^ 32 ≤ nextTarget s) (r : ReqArgs) : exec (.dfuGetstatus r) s = .refused .targetAddressOverflow := by
  rw [exec, execDfuGetstatus, unlessEnded_running h, if_pos ⟨hp, hn⟩]

/-- A `DFU_GETSTATUS` that is not refused flushes below 2^32. -/
theorem nextTarget_lt_of_exec_dfuGetstatus {s t : State} {r : ReqArgs} (h : s.running)
    (ht : exec (.dfuGetstatus r) s = .next t) (hp : s.dfu.flushPending = true) : nextTarget s < 2 ^ 32 := by
  by_contra hn
  rw [exec_dfuGetstatus_refused h hp (Nat.not_lt.mp hn)] at ht
  cases ht

section
variable {s : State} (h : s.running) (hn : s.dfu.flushPending = true → nextTarget s < 2 ^ 32)
include h hn

theorem exec_dfuGetstatus_report (hw : (getstatusTransition s).dfu.bState ≠ .dfuMANIFEST_WAIT_RESET) (r : ReqArgs) :
    exec (.dfuGetstatus r) s =
      .next (seqSend (statusBytes (getstatusTransition s).params (getstatusTransition s).dfu) (getstatusTransition s)) := by
  rw [exec, execDfuGetstatus, unlessEnded_running h, if_neg fun hc => (hn hc.1).not_ge hc.2]
  exact if_neg hw

theorem exec_dfuGetstatus_jump (hw : (getstatusTransition s).dfu.bState = .dfuMANIFEST_WAIT_RESET) (r : ReqArgs) :
    exec (.dfuGetstatus r) s = .next (bootJump (getstatusTransition s)) := by
  rw [exec, execDfuGetstatus, unlessEnded_running h, if_neg fun hc => (hn hc.1).not_ge hc.2]
  exact if_pos hw

end

/-! ### The transition -/

/-- The state in which a pending block is flushed: only `dfu.bState` has moved (R221). -/
def State.flushEntered (s : State) : State := s.setDfu { s.dfu with bState := getstatusNext true s.dfu.bState }

/-- The transition touches nothing but the DFU controller, the flash, the flash controller's answers and the count of free
values. -/
theorem getstatusTransition_same (s : State) : getstatusTransition s =
    { s with
      dfu := (getstatusTransition s).dfu, flash := (getstatusTransition s).flash
      flashAnswers := (getstatusTransition s).flashAnswers, draws := (getstatusTransition s).draws } := by
  cases hp : s.dfu.flushPending with
  | false => rw [getstatusTransition_quiet hp]; rfl
  | true => rw [getstatusTransition_flush hp]; exact (blockFlush_frame s.flushEntered).same

theorem getstatusTransition_main (s : State) : (getstatusTransition s).main = s.main := by
  rw [getstatusTransition_same]

/-- From the record `d` with a block of `size` bytes pending, the transition in `dfuDNLOAD_SYNC` leaves the record `d'`
(R221, R232, R233, R235). -/
structure Flushed (size : Nat) (d d' : Dfu) : Prop where
  dfu : d' = { d with
    bState := d'.bState, bStatus := d'.bStatus, flushPending := false
    targetAddr := d.targetAddr + BitVec.ofNat 32 size }
  outcome : (d'.bState = .dfuDNBUSY ∧ d'.bStatus = d.bStatus) ∨
    (d'.bState = .dfuERROR ∧ (d'.bStatus = .errERASE ∨ d'.bStatus = .errVERIFY))

theorem ofNat_nextTarget (s : State) :
    BitVec.ofNat 32 (nextTarget s) = s.dfu.targetAddr + BitVec.ofNat 32 s.params.blockBytes := by
  rw [nextTarget, BitVec.ofNat_add, BitVec.ofNat_toNat, BitVec.setWidth_eq]

section
variable {s : State} (hp : s.dfu.flushPending = true) (hb : s.dfu.bState = .dfuDNLOAD_SYNC)
include hp hb

theorem getstatusTransition_flushed : Flushed s.params.blockBytes s.dfu (getstatusTransition s).dfu := by
  have hf := blockFlush_frame s.flushEntered
  have hbusy : s.flushEntered.dfu.bState = .dfuDNBUSY := by rw [State.flushEntered, State.setDfu_dfu, hb]; rfl
  rw [getstatusTransition_flush hp]
  exact ⟨ofNat_nextTarget s ▸ hf.dfu, hbusy ▸ hf.outcome⟩

theorem getstatusTransition_flushed_ne_waitReset : (getstatusTransition s).dfu.bState ≠ .dfuMANIFEST_WAIT_RESET := by
  rcases (getstatusTransition_flushed hp hb).outcome with ⟨hs, -⟩ | ⟨hs, -⟩ <;> rw [hs] <;> nofun

end

/-! ### The report -/

/-- The transition leaves a state that is ready for a request ready. -/
theorem State.readyForRequest.getstatusTransition {s : State} (h : s.readyForRequest) :
    (getstatusTransition s).readyForRequest := by
  obtain ⟨-, -, hbooted, -⟩ := getstatusTransition_frame s
  obtain ⟨⟨⟨hh, hb⟩, hm, hs⟩, hep⟩ := h
  rw [← hbooted] at hb
  rw [getstatusTransition_same]
  exact ⟨⟨⟨hh, hb⟩, hm, hs⟩, hep⟩

theorem Sent.congr {bytes : List Byte} {s u t : State} (h : Sent bytes u t) (he : u.eps = s.eps) (hp : u.pcb = s.pcb)
    (hk : u.ep0Masked = s.ep0Masked) : Sent bytes s t where
  endpoint := by rw [h.endpoint, State.ep_congr he]
  pcb := h.pcb.trans hp
  ep0Masked := h.ep0Masked.trans hk
  main := by rw [h.main, State.ep_congr he]

/-- A `DFU_GETSTATUS` that reports: the transition, then the response with the record after it. -/
theorem exec_dfuGetstatus_sent {s : State} (h : s.readyForRequest)
    (hn : s.dfu.flushPending = true → nextTarget s < 2 ^ 32)
    (hw : (getstatusTransition s).dfu.bState ≠ .dfuMANIFEST_WAIT_RESET) (hroom : (s.ep 0).len + 6 ≤ s.params.fifoCap)
    (r : ReqArgs) :
    ∃ t, exec (.dfuGetstatus r) s = .next t ∧ QuietFrame (getstatusTransition s) t ∧ t.lineCoding = s.lineCoding ∧
      t.dfu = (getstatusTransition s).dfu ∧ Sent (statusBytes s.params (getstatusTransition s).dfu) s t := by
  have hsame := getstatusTransition_same s
  have hready := h.getstatusTransition
  have hexec := exec_dfuGetstatus_report h.1.1 hn hw r
  set u := getstatusTransition s
  have heps : u.eps = s.eps := by rw [hsame]
  have hparams : u.params = s.params := by rw [hsame]
  obtain ⟨hframe, hsent, hdfu, hline⟩ := seqSend_ready hready (statusBytes u.params u.dfu) (List.cons_ne_nil _ _)
    (by rw [State.ep_congr heps, hparams]; exact hroom)
  exact ⟨_, hexec, hframe, by rw [hline, hsame], hdfu,
    hparams ▸ hsent.congr heps (by rw [hsame]) (by rw [hsame])⟩

/-- What a request leaves alone from the transition on, it leaves alone from its start on. -/
theorem RequestFrame.of_getstatusTransition {s t : State} (h : RequestFrame (getstatusTransition s) t) :
    RequestFrame s t := by
  rw [getstatusTransition_same] at h
  exact ⟨h.params, h.rxHandler, h.others, h.program, h.sched, h.halted⟩

/-- The response in the words of R100, where the record holds the two constants. -/
theorem statusBytes_eq {p : Params} {d : Dfu} (hpoll : d.pollTimeout = p.pollTimeout) (hi : d.iString = 0) :
    statusBytes p d = [p.statusCode d.bStatus, p.pollTimeout.extractLsb' 0 8, p.pollTimeout.extractLsb' 8 8,
      p.pollTimeout.extractLsb' 16 8, p.stateCode d.bState, 0] := by
  rw [statusBytes, hpoll, hi]

/-- Only `dfuMANIFEST` is left for `dfuMANIFEST_WAIT_RESET` (R221). -/
theorem getstatusNext_ne_waitReset {b : DfuState} (h : b ≠ .dfuMANIFEST) (h' : b ≠ .dfuMANIFEST_WAIT_RESET) :
    getstatusNext false b ≠ .dfuMANIFEST_WAIT_RESET := by
  cases b with
  | dfuMANIFEST => exact absurd rfl h
  | dfuMANIFEST_WAIT_RESET => exact absurd rfl h'
  | _ => nofun

/-- Settles O40: with no flush pending the transition moves `dfu.bState` alone. -/
theorem getstatusReports : Obligations.GetstatusReports := by
  unfold Obligations.GetstatusReports
  intro r s next h hp hm hw hpoll hi hroom hnext
  have hnext' : getstatusNext false s.dfu.bState = next := by
    rw [hnext]
    cases hb : s.dfu.bState with
    | dfuMANIFEST => exact absurd hb hm
    | _ => rfl
  have htrans := getstatusTransition_quiet hp
  rw [hnext'] at htrans
  obtain ⟨t, hexec, hframe, hline, hdfu, hsent⟩ := exec_dfuGetstatus_sent h (fun hp' => by rw [hp] at hp'; cases hp')
    (by rw [htrans, State.setDfu_dfu, ← hnext']; exact getstatusNext_ne_waitReset hm hw) hroom r
  have hreq := hframe.toRequestFrame.of_getstatusTransition
  rw [htrans] at hframe hdfu hsent
  refine ⟨t, hexec, ⟨hreq, hframe.flash, hframe.flashAnswers, hframe.events, hframe.faults, hframe.draws⟩, hline, hdfu, ?_⟩
  rw [statusBytes_eq (by exact hpoll) (by exact hi)] at hsent
  exact hsent

/-- Settles O41: the transition runs the flush, and the report carries what it left. -/
theorem getstatusFlushes : Obligations.GetstatusFlushes := by
  unfold Obligations.GetstatusFlushes
  intro r s hr hp
  refine ⟨fun hover => exec_dfuGetstatus_refused hr hp hover r, fun hfits h hb hblk hpoll hi hroom => ?_⟩
  obtain ⟨t, hexec, hframe, hline, hdfu, hsent⟩ := exec_dfuGetstatus_sent h (fun _ => hfits)
    (getstatusTransition_flushed_ne_waitReset hp hb) hroom r
  have hflushed := getstatusTransition_flushed hp hb
  obtain ⟨-, hfaults, -, -, hevents, -⟩ := getstatusTransition_frame s
  rw [← hdfu] at hflushed
  rw [← hdfu, statusBytes_eq (by rw [hflushed.dfu]; exact hpoll) (by rw [hflushed.dfu]; exact hi)] at hsent
  refine ⟨t, hexec, hframe.toRequestFrame.of_getstatusTransition, hline, hframe.events.trans hevents,
    hframe.faults.trans hfaults, hflushed.dfu, hflushed.outcome, fun a ha => ?_, hsent⟩
  rw [hframe.flash, getstatusTransition_flush hp]
  exact blockFlush_readByte (s := s.flushEntered) hblk ha

/-! ### What the flush leaves -/

/-- Whether or not the response finds room, it leaves the record, the flash and the answers as the transition left them. -/
theorem exec_dfuGetstatus_flushed {s t : State} (h : s.quiet) (hp : s.dfu.flushPending = true)
    (hb : s.dfu.bState = .dfuDNLOAD_SYNC) {r : ReqArgs} (ht : exec (.dfuGetstatus r) s = .next t) :
    t.dfu = (blockFlush s.flushEntered).dfu ∧ t.flash = (blockFlush s.flushEntered).flash ∧
      t.flashAnswers = (blockFlush s.flushEntered).flashAnswers := by
  have hreport := exec_dfuGetstatus_report h.1 (nextTarget_lt_of_exec_dfuGetstatus h.1 ht)
    (getstatusTransition_flushed_ne_waitReset hp hb) r
  have hmain := (getstatusTransition_main s).trans h.2.1
  rw [ht] at hreport
  cases hreport
  rw [← show getstatusTransition s = blockFlush s.flushEntered from getstatusTransition_flush hp]
  have hframe := runHandler_frame (sendOps (statusBytes (getstatusTransition s).params (getstatusTransition s).dfu))
    (getstatusTransition s)
  exact ⟨seqSend_dfu hmain _, hframe.flash, hframe.flashAnswers⟩

theorem bytesOfWord_getElem? (w : Word) {j : Nat} (hj : j < 4) : (bytesOfWord w)[j]? = some (w.extractLsb' (8 * j) 8) := by
  interval_cases j <;> rfl

section
variable {s t : State} {answers : List Bool}

theorem FlushCase.of_both_succeed (h : FlushCase s t) (ha : s.flashAnswers = true :: true :: answers) :
    t.flashAnswers = answers ∧ t.dfu.bState = s.dfu.bState ∧ t.dfu.bStatus = s.dfu.bStatus ∧
      ∃ m, t.flash = Memory.writeWords s.dfu.targetAddr.toNat s.dfu.blk m := by
  cases h with
  | eraseFailed vs d hl he ht => rw [flashAnswer, ha] at he; cases he
  | writeFailed us vs d d' hu hl he hw ht => rw [ha] at hw; cases hw
  | done us d d' hu he hw ht => rw [ht, ha]; exact ⟨rfl, rfl, rfl, _, rfl⟩

theorem FlushCase.of_write_fails (h : FlushCase s t) (ha : s.flashAnswers = true :: false :: answers) :
    t.flashAnswers = answers ∧ t.dfu.bState = .dfuERROR ∧ t.dfu.bStatus = .errVERIFY := by
  cases h with
  | eraseFailed vs d hl he ht => rw [flashAnswer, ha] at he; cases he
  | writeFailed us vs d d' hu hl he hw ht => rw [ht, ha]; exact ⟨rfl, rfl, rfl⟩
  | done us d d' hu he hw ht => rw [ha] at hw; cases hw

theorem FlushCase.of_erase_fails (h : FlushCase s t) (ha : s.flashAnswers = false :: answers) :
    t.flashAnswers = answers ∧ t.dfu.bState = .dfuERROR ∧ t.dfu.bStatus = .errERASE := by
  cases h with
  | eraseFailed vs d hl he ht => rw [ht, ha]; exact ⟨rfl, rfl, rfl⟩
  | writeFailed us vs d d' hu hl he hw ht => rw [flashAnswer, ha] at he; cases he
  | done us d d' hu he hw ht => rw [flashAnswer, ha] at he; cases he

end

/-- Settles O42: the three ways through a block flush, each chosen by the answers. -/
theorem flushOutcomes : Obligations.FlushOutcomes := by
  unfold Obligations.FlushOutcomes
  intro r s t h hp hb _ ht
  obtain ⟨hdfu, hflash, hanswers⟩ := exec_dfuGetstatus_flushed h.1 hp hb ht
  have hc := blockFlush_cases s.flushEntered
  rw [hdfu, hflash, hanswers]
  refine ⟨fun answers ha => ?_, fun answers ha => hc.of_write_fails ha, fun answers ha => hc.of_erase_fails ha⟩
  obtain ⟨hrest, hstate, hstatus, m, hm⟩ := hc.of_both_succeed ha
  refine ⟨hrest, ?_, hstatus, fun k w j hk hj => ?_⟩
  · rw [hstate, State.flushEntered, State.setDfu_dfu, hb]; rfl
  · obtain ⟨hlt, rfl⟩ := List.getElem?_eq_some_iff.mp hk
    rw [hm]
    exact (Memory.readByte_writeWords s.dfu.blk _ k j m hlt hj).trans (bytesOfWord_getElem? _ hj)

/-! ### The boot jump -/

/-- Every instruction runs under the check for the end of the run (spec/70_reset_and_hazards.md R321). -/
theorem exec_eq_unlessEnded (i : Instr) : ∃ k, ∀ s, exec i s = unlessEnded k s := by
  cases i <;> exact ⟨_, fun _ => rfl⟩

/-- After the boot jump nobody steps (R321). -/
theorem agentStep_booted {s : State} (h : s.dfu.booted = true) (a : AgentStep) : agentStep a s = s :=
  agentStep_not_enabled (by simp [agentEnabled, State.booted, h])

theorem step_booted {s : State} (h : s.halted = false) (hb : s.dfu.booted = true) : step s = .next s := by
  rw [step, nextStep, unlessEnded_booted h hb]

theorem exec_booted {s : State} (h : s.halted = false) (hb : s.dfu.booted = true) (i : Instr) : exec i s = .next s := by
  obtain ⟨k, hk⟩ := exec_eq_unlessEnded i
  rw [hk, unlessEnded_booted h hb]

/-- Settles O43: the transition out of `dfuMANIFEST` is due a boot jump, and after it the run is over for everyone. -/
theorem dfuBootJump : Obligations.BootJump := by
  unfold Obligations.BootJump
  refine ⟨fun r s hr hb hp => ?_, fun s hh hb => ⟨step_booted hh hb, exec_booted hh hb, agentStep_booted hb⟩⟩
  have htrans := getstatusTransition_quiet hp
  rw [hb] at htrans
  rw [exec_dfuGetstatus_jump hr (fun hp' => by rw [hp] at hp'; cases hp') (by rw [htrans]; rfl), htrans]
  rfl

/-! ### `DFU_GETSTATE` -/

/-- Settles O44: the response is sent as any other (spec/42_control_sequencer.md R185). -/
theorem getstate : Obligations.Getstate := by
  unfold Obligations.Getstate
  intro r s h hroom
  obtain ⟨hframe, hsent, hdfu, hline⟩ := seqSend_ready h (stateBytes s.params s.dfu) (List.cons_ne_nil _ _) hroom
  exact ⟨_, exec_dfuGetstate h.1.1 r, hframe, hdfu, hline, hsent⟩

end Sys2Proof.Machine
end

