-- ==== Sys2Proof/Proofs/DfuRequests.lean ====
section
/-! The requests that change the DFU controller's record (spec/44_dfu_controller.md R215 to R219, R225, R226, R231): those that
end after their acknowledgement, and `DFU_DNLOAD` with a data stage. -/

namespace Sys2Proof.Machine

/-! ### Requests that end after their acknowledgement -/

/-- The state once the acknowledgement has been made ready and the handler has returned (spec/42_control_sequencer.md
R183). -/
def State.acknowledged (s : State) : State :=
  { s with
    eps := s.eps.set 0 { s.ep 0 with txPkt := [], underrun := false, txReady := true }
    resp := respWord .ok 0, main := [], rdata := [], handling := false }

theorem State.acknowledged_eq {s : State} (hm : s.main = []) : s.acknowledged =
    { s with
      eps := s.eps.set 0 { s.ep 0 with txPkt := [], underrun := false, txReady := true }
      resp := respWord .ok 0, rdata := [], handling := false } := by
  rw [State.acknowledged, ← hm]

/-- A request that is acknowledged, with one part `op` of the driver after it, which ends the handler. -/
theorem seqAck_ready_one {s t : State} (h : s.readyForRequest) {op : MainOp}
    (hop : mainOp op [] { s.acknowledged with main := [op], handling := true } = some t) (ht : t.main = []) :
    seqAck [op] s = t := by
  obtain ⟨k, hk, hack⟩ := seqAck_ready h [op]
  obtain ⟨⟨⟨hh, -⟩, -, hs⟩, -⟩ := h
  exact hack.trans (drive_last (s := { s.acknowledged with main := [op], handling := true }) rfl hs hh hop ht hk)

/-- Settles O33: both requests end with the entry to `dfuIDLE`. -/
theorem abortAndClearStatus : Obligations.AbortAndClearStatus := by
  unfold Obligations.AbortAndClearStatus
  intro r s t h ht
  obtain rfl : t = { s.acknowledged with
      dfu := { s.dfu with bState := .dfuIDLE, bStatus := .ok, cursor := 0, flushPending := false
                          targetAddr := s.params.flashBase } } := by
    rw [State.acknowledged_eq h.1.2.1, ht]
  refine ⟨?_, fun hb => ?_⟩
  · rw [exec_dfuAbort h.1.1, seqAck_ready_one h (op := .abortEnd) rfl rfl]
    rfl
  · rw [exec_dfuClrstatus_of_error h.1.1 hb, seqAck_ready_one h (op := .clrstatusEnd) rfl rfl]
    rfl

/-- Settles O34: the state decides how the image ends. -/
theorem dnloadZeroLength : Obligations.DnloadZeroLength := by
  unfold Obligations.DnloadZeroLength
  intro r s t h hl ht
  obtain rfl : t = s.acknowledged := by rw [State.acknowledged_eq h.1.2.1, ht]
  refine ⟨fun hb => ?_, fun hb => ?_⟩
  · rw [exec_dfuDnload_of_length_zero h.1.1 (acceptsDnload_iff.mpr (.inl hb)) hl,
      seqAck_ready_one h (mainOp_dnloadEnd_of_idle [] hb) rfl]
    rfl
  · rw [exec_dfuDnload_of_length_zero h.1.1 (acceptsDnload_iff.mpr (.inr hb)) hl,
      seqAck_ready_one h (mainOp_dnloadEnd_of_dnloadIdle [] hb) rfl]
    rfl

/-! ### `DFU_DNLOAD` with a data stage -/

/-- Settles O36: the driver's own part stores the words that `SEQ_RECV` has read. -/
theorem dnloadBuffers : Obligations.DnloadBuffers := by
  unfold Obligations.DnloadBuffers
  intro r s n h hstate hn hlen hcap hl hfits hblk
  have hexec := exec_dfuDnload_of_data h.1.1 (acceptsDnload_iff.mpr hstate) (r := r) (by omega) (by omega) (by omega)
  rw [show r.wLength.toNat / 4 = n by omega, hlen] at hexec
  obtain ⟨hframe, hreceived, hdfu, hline⟩ := seqRecv_arrived h hcap hl (op := .dnloadStore n)
    (d := { bufferWords s.params n ((s.ep 0).q.take (4 * n)) s.dfu with bState := .dfuDNLOAD_SYNC }) (l := s.lineCoding)
    fun w => by
      rw [mainOp, dnloadStore_of_fits (s := s.dataRead (4 * n) (.dnloadStore n) w) hfits]
      rfl
  rw [bufferWords_eq] at hdfu
  have hwords := wordsOfBytes_length n ((s.ep 0).q.take (4 * n)) (List.length_take_of_le hl)
  have hread {j : Nat} (hj : j < 4 * n) : ((s.ep 0).q.take (4 * n))[j]? = (s.ep 0).q[j]? := List.getElem?_take_of_lt hj
  refine ⟨_, hexec, hframe, hreceived, hline, by rw [hdfu], fun i b0 b1 b2 b3 hi h0 h1 h2 h3 => ?_, fun j hj => ?_⟩
  · rw [hdfu, getElem?_storeWords _ _ _ _ (hwords.symm ▸ hi) (by omega)]
    exact getElem?_wordsOfBytes ((hread (by omega)).trans h0) ((hread (by omega)).trans h1)
      ((hread (by omega)).trans h2) ((hread (by omega)).trans h3)
  · rw [hdfu]
    exact getElem?_storeWords_of_outside _ _ _ _ (by rw [hwords]; exact hj)

end Sys2Proof.Machine
end

