-- ==== Sys2Proof/Proofs/DfuSafety.lean ====
section
/-! The two safety statements of the DFU controller: a block that awaits its flush is not overwritten
(spec/44_dfu_controller.md R240), and only a `DFU_GETSTATUS` that leaves `dfuMANIFEST` makes the boot jump (R234). -/

namespace Sys2Proof.Machine

/-! ### MAIN's turn -/

theorem callPutchar_dfu {s : State} (hm : s.main = []) (c : Byte) : (callPutchar c s).dfu = s.dfu := by
  unfold callPutchar; split
  · exact runProcedure_dfu hm fun _ => endsDfu_eq_false_of_mem_putcharOps
  · rfl

theorem callInit_dfu {s : State} (hm : s.main = []) (d : Driver) : (callInit d s).dfu = s.dfu := by
  cases d with
  | dfu => rfl
  | cdc =>
    refine runProcedure_dfu hm fun op ho => ?_
    simp only [List.mem_cons, List.not_mem_nil, or_false] at ho
    rcases ho with rfl | rfl <;> rfl

theorem execReserved_dfu {s t : State} (ht : execReserved s = .next t) : t.dfu = s.dfu := by
  rcases runCommand_next ht with rfl | rfl <;> rfl

/-- No command touches the DFU controller (spec/40_fifo_core.md R139). -/
theorem exec_command_dfu {i : Instr} {s t : State} (hi : i.isCommand = true) (h : exec i s = .next t) : t.dfu = s.dfu := by
  by_cases hinit : i = .pcbInit
  · subst hinit
    rcases runCommand_next (cmd := cmdPcbInit) h with rfl | rfl
    · rfl
    · rw [cmdPcbInit, State.respond_dfu, tearDownPcb_dfu]
  · obtain ⟨hframe, -⟩ := commandFrames i s t hi hinit h
    exact hframe.dfu

/-- Whatever a `DFU_GETSTATUS` does, it keeps the words of the block. -/
theorem GetstatusCase.blk {s t : State} (h : GetstatusCase s t) (hm : s.main = []) : t.dfu.blk = s.dfu.blk := by
  obtain ⟨-, -, -, hblk, -⟩ := getstatusTransition_frame s
  cases h with
  | ended hb ht => rw [ht]
  | jump hb hw ht => rw [ht]; exact hblk
  | report hb hw ht => rw [ht, seqSend_dfu ((getstatusTransition_main s).trans hm), hblk]

/-- Where no `DFU_DNLOAD` is accepted, no instruction changes a word of the block. -/
theorem exec_blk {i : Instr} {s t : State} (hr : s.running) (hm : s.main = []) (ha : acceptsDnload s.dfu.bState = false)
    (h : exec i s = .next t) : t.dfu.blk = s.dfu.blk := by
  cases i with
  | pcbInit | configure | write | read | flush | drain | setStall | clearStall | zlpAck | flagSet | flagClr | pendClr =>
    rw [exec_command_dfu rfl h]
  | dfuDetach r => rw [exec_dfuDetach hr] at h; cases h; rfl
  | dfuUpload r => rw [exec_dfuUpload hr] at h; cases h; rfl
  | dfuReject bm br r => rw [exec_dfuReject hr] at h; cases h; rfl
  | cdcReject bm br r => rw [exec_cdcReject hr] at h; cases h; rfl
  | dfuDnload r => rw [exec_dfuDnload_of_not_accepts hr r ha] at h; cases h; rfl
  | dfuGetstatus r => exact (execDfuGetstatus_cases h).blk hm
  | dfuGetstate r =>
    rw [exec_dfuGetstate hr] at h; cases h
    rw [seqSend_dfu hm]
  | dfuClrstatus r =>
    by_cases hb : s.dfu.bState = .dfuERROR
    · rw [exec_dfuClrstatus_of_error hr hb] at h; cases h
      exact seqAck_blk hm (by simp [MainOp.KeepsBlk])
    · rw [exec_dfuClrstatus_of_not_error hr r hb] at h; cases h; rfl
  | dfuAbort r =>
    rw [exec_dfuAbort hr] at h; cases h
    exact seqAck_blk hm (by simp [MainOp.KeepsBlk])
  | cdcSetLineCoding r =>
    by_cases h7 : r.wLength.toNat = 7
    · rw [exec_cdcSetLineCoding hr h7] at h; cases h
      rw [seqRecv_dfu hm _ (by simp [MainOp.endsDfu])]
    · rw [exec_cdcSetLineCoding_of_bad_length hr (.inl h7)] at h; cases h; rfl
  | cdcGetLineCoding r =>
    rw [exec_cdcGetLineCoding hr] at h; cases h
    rw [seqSend_dfu hm]
  | cdcSetControlLineState r =>
    rw [exec_cdcSetControlLineState hr] at h; cases h
    exact seqAck_blk hm nofun

/-- A block that awaits its flush does so in a state that accepts no `DFU_DNLOAD` (R239, R240). -/
theorem DfuInv.not_accepts_of_pending {p : Params} {d : Dfu} (h : DfuInv p d) (hp : d.flushPending = true) :
    acceptsDnload d.bState = false := by
  rw [(h.pending hp).2]; rfl

/-- MAIN's turn changes no word of a block that awaits its flush. -/
theorem TurnCase.blk {s t : State} (hr : s.running) (h : Inv s) (hp : s.dfu.flushPending = true) (ht : TurnCase s t) :
    t.dfu.blk = s.dfu.blk := by
  have ha := h.block.dfu.not_accepts_of_pending hp
  cases ht with
  | idle hm hprog ht => rw [ht]
  | resumed hm ht =>
    rw [ht]
    refine drive_blk _ fun op ho n hop => ?_
    have hsuits := h.main.suits op ho
    rw [hop, MainOp.suits, ha] at hsuits
    cases hsuits
  | instr i w items hm hprog hw ht => exact exec_blk (s := { s with program := items }) hr hm ha ht
  | reserved w items hm hprog hw ht => rw [execReserved_dfu ht]
  | putchar c items hm hprog ht => rw [ht, callPutchar_dfu (s := { s with program := items }) hm]
  | init d items hm hprog ht => rw [ht, callInit_dfu (s := { s with program := items }) hm]
  | rx items hm hprog ht => rw [ht]

/-! ### The statements -/

/-- Settles O55: nothing changes after the boot jump, the other agents do not touch the record, and at MAIN's turn no payload
is buffered while a flush is pending. -/
theorem bufferIsSafe : Obligations.BufferIsSafe := by
  unfold Obligations.BufferIsSafe
  intro s t h hp hst
  obtain ⟨hh, hc⟩ := step_cases hst
  cases hc with
  | ended hb ht => rw [ht]
  | agent a slots hb hs ht => rw [ht, (agentStep_mainOwned a _).dfu]
  | turn slots hb hs ht =>
    exact TurnCase.blk (s := { s with sched := slots }) ⟨hh, hb⟩ ((LiveInv.mk h hb).withSched slots).inv hp ht

/-- Settles O56: a step that sets `booted` runs a `DFU_GETSTATUS`, and of its three cases only the boot jump sets it. -/
theorem bootOnlyFromManifest : Obligations.BootOnlyFromManifest := by
  unfold Obligations.BootOnlyFromManifest
  intro s t h hst hb hbt
  rcases step_frame hst with ⟨r, items, slots, hg⟩ | hf
  · set u : State := { s with program := items, sched := slots }
    have hB : BlockInv u := h.block.congr rfl rfl rfl rfl rfl rfl
    obtain ⟨hparams, -, hbooted, -, hevents, -⟩ := getstatusTransition_frame u
    cases execDfuGetstatus_cases hg with
    | ended hbu ht => rw [ht] at hbt; exact absurd hbt (by rw [hb]; nofun)
    | report _ hw ht =>
      rw [ht, seqSend, (runHandler_frame _ _).booted, hbooted, hb] at hbt
      cases hbt
    | jump _ hw ht =>
      obtain ⟨-, hjump, -⟩ := getstatusTransition_keeps hB hb
        (nextTarget_lt_of_exec_dfuGetstatus ⟨(step_cases hst).1, hb⟩ hg)
      obtain ⟨hmanifest, hpending, -⟩ := hjump hw
      refine ⟨hmanifest, hpending, ?_, ?_⟩
      · rw [ht]; exact hw
      · rw [ht, bootJump, State.setDfu_events, State.emit_events, hevents, hparams]
  · rw [hf.booted, hb] at hbt; cases hbt

end Sys2Proof.Machine
end

