-- ==== Sys2Proof/Proofs/Exceptions.lean ====
section
/-! Three exceptions of spec/60_exceptions.md: the overrun of the block buffer (R274), the reserved command word (R268) and
`HALT` (R275). -/

namespace Sys2Proof.Machine

/-! ### The overrun of the block buffer -/

/-- A payload that does not fit the rest of the block: nothing is copied (R274). -/
theorem dnloadStore_of_overrun {n : Nat} {s : State} (h : s.params.blockWords < s.dfu.cursor + n) :
    dnloadStore n s = s.setDfu { s.dfu with bState := .dfuERROR, bStatus := .errINTERNAL } := by
  rw [dnloadStore, if_pos h, raise, State.dfuFail]

/-- Settles O37: the driver's own part discards what `SEQ_RECV` has read. -/
theorem dnloadOverrun : Obligations.DnloadOverrun := by
  unfold Obligations.DnloadOverrun
  intro r s n h hstate hn hlen hcap hl hover
  have hexec := exec_dfuDnload_of_data h.1.1 (acceptsDnload_iff.mpr hstate) (r := r) (by omega) (by omega) (by omega)
  rw [show r.wLength.toNat / 4 = n by omega, hlen] at hexec
  obtain ⟨hframe, hreceived, hdfu, hline⟩ := seqRecv_arrived h hcap hl (op := .dnloadStore n)
    (d := { s.dfu with bState := .dfuERROR, bStatus := .errINTERNAL }) (l := s.lineCoding) fun w => by
      rw [mainOp, dnloadStore_of_overrun (s := s.dataRead (4 * n) (.dnloadStore n) w) hover]
      rfl
  exact ⟨_, hexec, hframe, hreceived, hline, hdfu⟩

/-! ### The reserved command word -/

/-- Before the end of a run a reserved command word is refused (R268). -/
theorem execReserved_running {s : State} (h : s.running) : execReserved s = .next (s.respond .errOp 0) := by
  rw [execReserved, runCommand_running h, raise]

/-- A command word that names no operation is refused when the dispatcher hands it to MAIN (spec/30_encoding.md R94). -/
theorem runItem_of_reserved {s : State} {w : Word} (h : decodeCmd32 w = none) :
    runItem (.issue (.cmd32 w)) s = execReserved s := by
  rw [runItem, decode, h]

/-- Settles O10: the word names no operation, so the step that takes it refuses it. -/
theorem reservedWordRefused : Obligations.ReservedWordRefused := by
  unfold Obligations.ReservedWordRefused
  intro s w items hr hm hs hp hw
  have hnone : decodeCmd32 w = none := decodeCmd32_eq_none fun r hmem =>
    Bool.eq_false_iff.mpr fun hsel => hw r hmem ((r.selects_iff w).mp hsel)
  calc step s
      = runItem (.issue (.cmd32 w)) { s with program := items } := step_of_item ⟨hr, hm, hs⟩ hp
    _ = execReserved { s with program := items } := runItem_of_reserved hnone
    _ = .next (State.respond .errOp 0 { s with program := items }) := execReserved_running hr

/-! ### `HALT` -/

theorem halt_enabled {s : State} (h : s.running) : agentEnabled .halt s = true := by
  rw [agentEnabled, not_halted_and_not_booted h, Bool.true_and]

/-- After `HALT` nobody steps (R275). -/
theorem agentStep_halted {s : State} (h : s.halted = true) (a : AgentStep) : agentStep a s = s :=
  agentStep_not_enabled (by simp [agentEnabled, h])

theorem step_halted {s : State} (h : s.halted = true) : step s = .fault .hardStop := by
  rw [step, nextStep, unlessEnded_halted h]

theorem exec_halted {s : State} (h : s.halted = true) (i : Instr) : exec i s = .fault .hardStop := by
  obtain ⟨k, hk⟩ := exec_eq_unlessEnded i
  rw [hk, unlessEnded_halted h]

/-- Settles O29: `HALT` itself can be taken while the run lasts; after it the run is over for everyone. -/
theorem halt : Obligations.Halt := by
  unfold Obligations.Halt
  exact ⟨fun s hr => agentStep_enabled (halt_enabled hr),
    fun s h => ⟨step_halted h, exec_halted h, agentStep_halted h⟩⟩

end Sys2Proof.Machine
end

