-- ==== Sys2Proof/Proofs/Reset.lean ====
section
/-! The two resets: the bus reset, against the command `PCB_INIT` whose state change it has (spec/70_reset_and_hazards.md
R302), and the reset table of the power-on reset (spec/10_state.md R52, spec/70_reset_and_hazards.md R301). -/

namespace Sys2Proof.Machine

/-! ### The bus reset -/

theorem resetBus_enabled {s : State} (h : s.running) : agentEnabled .resetBus s = true := by
  rw [agentEnabled, not_halted_and_not_booted h, Bool.true_and]

/-- `PCB_INIT` without its response (R302). -/
theorem agentStep_resetBus {s : State} (h : s.running) :
    agentStep .resetBus s = { cmdPcbInit s with resp := s.resp } := by
  rw [agentStep_enabled (resetBus_enabled h), agentEffect, cmdPcbInit, State.respond]
  rfl

@[simp] theorem tearDownPcb_lineCoding (s : State) : (tearDownPcb s).lineCoding = s.lineCoding := rfl

theorem cmdPcbInit_ep {s : State} {e : EpNum} (h : e.val < s.params.numEps) : (cmdPcbInit s).ep e = Endpoint.reset := by
  rw [cmdPcbInit, State.ep_respond, tearDownPcb_ep, if_pos ((s.hasEp_iff e).mpr h)]

/-- Settles O28: both the command and the bus reset tear the endpoints down; they differ in the response. -/
theorem busReset : Obligations.BusReset := by
  unfold Obligations.BusReset
  refine ⟨fun s hr => ?_, fun s hb => agentStep_booted hb .resetBus⟩
  refine ⟨cmdPcbInit s, runCommand_running hr _, agentStep_resetBus hr, rfl, rfl, fun e he => ?_, ?_⟩
  · rw [cmdPcbInit_ep he, Endpoint.reset]
  · simp only [cmdPcbInit, State.respond_dfu, State.respond_lineCoding, State.respond_flash, State.respond_faults,
      tearDownPcb_dfu, tearDownPcb_lineCoding, tearDownPcb_flash, tearDownPcb_faults, and_self]

/-! ### The power-on reset -/

/-- Settles O50: every endpoint is `Endpoint.reset`; the other fields are those `State.powerOn` writes. -/
theorem resetValues : Obligations.ResetValues := by
  unfold Obligations.ResetValues
  intro p flash
  refine ⟨fun e => ?_, rfl, rfl, rfl, rfl, rfl, rfl, rfl, rfl, rfl, rfl, rfl, rfl, rfl, rfl, rfl⟩
  rw [State.ep_powerOn]
  exact ⟨rfl, rfl, rfl, rfl, rfl, rfl, rfl, rfl, rfl, rfl⟩

end Sys2Proof.Machine
end
